-- ==== Sys2Proof/Word.lean ====
section
/-! DEFINITION. The word types of the keypad debounce block (KDB): the sizes of data, command words and response data (spec 00_scope R9, 30_encoding R80, R83). -/

namespace Sys2Proof

/-- One byte: a KeyEvent, a ring slot, an `imm8` operand (10_state R39, 30_encoding R80). -/
abbrev Byte := BitVec 8

/-- One command word `W` (30_encoding R80). -/
abbrev CmdWord := BitVec 16

/-- The data of a response (30_encoding R83). -/
abbrev Word32 := BitVec 32

/-- A pin level or a one-bit register: `true` is 1 (high), `false` is 0 (low) (00_scope R9). -/
abbrev Bit := Bool

/-- A key of the matrix: the pair (row, column), both counted from 0 (00_scope R9). -/
abbrev Key := Nat × Nat

end Sys2Proof
end

