-- ==== Sys2Proof/Config.lean ====
section
/-! DEFINITION. What is fixed for one KDB: the parameters of 00_scope R8, and the free values the spec leaves open. -/

namespace Sys2Proof

/-- A pin identifier: a port (0 is port A) and a number within the port (30_encoding R82). -/
structure PinId where
  port : BitVec 4
  num  : BitVec 4
deriving DecidableEq, Repr

namespace Machine

/-- The two forms of the phase machine; one deployment has exactly one (00_scope R3). -/
inductive Variant where
  | poll
  | interrupt
deriving DecidableEq, Repr

/-- The parameters of a KDB instance (00_scope R8). `N_ROWS` and `N_COLS` are the lengths of
`rowPin` and `colPin`; `keymap` is the N_ROWS by N_COLS table, row after row (20_memory R66); `C` and `IDX_W` are
computed. `tickPeriodMs` is used by no rule (R8, 70_reset_and_hazards R272): it is for claims about durations
(46 R218, 93 U14). `debounceDelayMs` is an integer, not bounded by the operand of `TM.DELAY` (log entry 7). -/
structure Config where
  variant           : Variant
  rowPin            : List PinId
  colPin            : List PinId
  keymap            : List Byte
  cfgPresent        : Bool
  debounceThreshold : Nat
  tickPeriodMs      : Nat
  debounceDelayMs   : Nat
  rowRest           : Bit
  rbSlots           : Nat
  cntW              : Nat
  msW               : Nat
deriving DecidableEq, Repr

/-- The default rest level of the rows: high in the Poll variant, low in the Interrupt variant (R8, decision D9). -/
def Variant.rowRest : Variant → Bit
  | .poll      => true
  | .interrupt => false

/-- The reference configuration of 95_test_vectors section 1, in the given variant: rows PA0 to PA3, columns
PB4, PB5, PB9, PB10, the telephone key map, 16 ring slots. -/
def Config.reference (v : Variant) : Config where
  variant           := v
  rowPin            := [⟨0, 0⟩, ⟨0, 1⟩, ⟨0, 2⟩, ⟨0, 3⟩]
  colPin            := [⟨1, 4⟩, ⟨1, 5⟩, ⟨1, 9⟩, ⟨1, 10⟩]
  keymap            := [0x31, 0x32, 0x33, 0x41,
                        0x34, 0x35, 0x36, 0x42,
                        0x37, 0x38, 0x39, 0x43,
                        0x2A, 0x30, 0x23, 0x44]
  cfgPresent        := true
  debounceThreshold := 20
  tickPeriodMs      := 1
  debounceDelayMs   := 5
  rowRest           := v.rowRest
  rbSlots           := 16
  cntW              := 8
  msW               := 32

/-- FREE VALUE `LATCH_WHEN_DISABLED` (00_scope R8, 45 R191, U2): the `draw()` of the edge latch for a line, numbered by
State's counter `draws`. Nothing constrains it (log entry 6). -/
opaque Config.latchDraw : Nat → Fin 16 → Bool

/-- FREE VALUE `VECTOR_ORDER` (00_scope R8, 45 R195, U12): which of several requesting vectors the platform serves, numbered by
State's counter `draws`. Nothing constrains it (log entry 6). -/
opaque Config.vectorDraw : Nat → Nat

/-- FREE VALUE: the level of a pin that is neither a row nor a column pin, which the spec does not define
(41 R123, U9), numbered by State's counter `draws`. Nothing constrains it (log entries 6 and 9). -/
opaque Config.foreignLevel : Nat → PinId → Bit

end Machine
end Sys2Proof
end

