-- ==== Sys2Proof/Syntax.lean ====
section
/-! DEFINITION. The syntax of KDB: the twenty operations of 30_encoding R84, one constructor for each row of the opcode table. -/

namespace Sys2Proof

/-- The direction operand of `IO.CFG`: 0 is `Input`, 1 is `Output` (30_encoding R82). -/
inductive Dir where
  | input
  | output
deriving DecidableEq, Repr

/-- The pull operand of `IO.CFG`: 0 is `None`, 1 is `Up`, 2 is `Down`, 3 is reserved and so no pull at all
(30_encoding R82). -/
inductive Pull where
  | noPull
  | up
  | down
deriving DecidableEq, Repr

/-- The operations of KDB (30_encoding R84). -/
inductive Instr where
  | rbInit  (c : Byte)                       -- RB.INIT c
  | rbWr    (b : Byte)                       -- RB.WR b
  | rbRd                                     -- RB.RD
  | rbCnt                                    -- RB.CNT
  | rbFlush                                  -- RB.FLUSH
  | kpInit                                   -- KP.INIT
  | kpTick                                   -- KP.TICK
  | kpIrq   (v : BitVec 4)                   -- KP.IRQ v
  | kpRdkey                                  -- KP.RDKEY
  | ilArmf  (p : PinId)                      -- IL.ARMF pin
  | ilArmr  (p : PinId)                      -- IL.ARMR pin
  | ilDis   (p : PinId)                      -- IL.DIS pin
  | ilEn    (p : PinId)                      -- IL.EN pin
  | ilClr   (p : PinId)                      -- IL.CLR pin
  | ioCfg   (p : PinId) (d : Dir) (q : Pull) -- IO.CFG pin, dir, pull
  | ioSet   (p : PinId)                      -- IO.SET pin
  | ioRst   (p : PinId)                      -- IO.RST pin
  | ioRd    (p : PinId)                      -- IO.RD pin
  | tmNow                                    -- TM.NOW
  | tmDelay (m : Byte)                       -- TM.DELAY m
deriving DecidableEq, Repr

namespace Instr

/-! The pseudo-operations of 30_encoding R88: exact synonyms, with no expansion beyond renaming. -/

/-- The edge operand of `IL.ARM` (30_encoding R88). -/
inductive ArmEdge where
  | F
  | R
deriving DecidableEq, Repr

/-- `SCAN_TICK` is `KP.TICK`. -/
abbrev scanTick : Instr := .kpTick
/-- `ON_INTERRUPT Vk` is `KP.IRQ Vk`. -/
abbrev onInterrupt (v : BitVec 4) : Instr := .kpIrq v
/-- `TRY_READ_KEY` is `KP.RDKEY`. -/
abbrev tryReadKey : Instr := .kpRdkey
/-- `IL.ARM pin, F` is `IL.ARMF pin` and `IL.ARM pin, R` is `IL.ARMR pin`. -/
abbrev ilArm (p : PinId) : ArmEdge → Instr
  | .F => .ilArmf p
  | .R => .ilArmr p

end Instr
end Sys2Proof
end

