-- ==== Sys2Proof/WellFormed.lean ====
section
/-! DEFINITION. Which instructions have an encoding: the operand constraints of 30_encoding R80 and R84 that the types do not already express. -/

namespace Sys2Proof

/-- `vec` must be one of the seven vectors, `vvvv <= 6` (30_encoding R80, R84). Every other operand constraint is in the
operand's type: `qq != 3` in `Pull`. -/
def Instr.wf : Instr → Bool
  | .kpIrq v => decide (v.toNat ≤ 6)
  | .rbInit _ | .rbWr _ | .rbRd | .rbCnt | .rbFlush => true
  | .kpInit | .kpTick | .kpRdkey => true
  | .ilArmf _ | .ilArmr _ | .ilDis _ | .ilEn _ | .ilClr _ => true
  | .ioCfg _ _ _ | .ioSet _ | .ioRst _ | .ioRd _ => true
  | .tmNow | .tmDelay _ => true

end Sys2Proof
end

