-- ==== Sys2Proof/Decode.lean ====
section
/-! DEFINITION. Decoding of command words, total on every word and refusing the reserved ones, the encoder, the opcode table's rows, and the textual form (30_encoding R80 to R87). -/

namespace Sys2Proof

/-- `W[15:12]`, the unit (30_encoding R80). -/
def unitField (w : CmdWord) : BitVec 4 := w.extractLsb' 12 4
/-- `W[11:8]`, the function (30_encoding R80). -/
def fnField (w : CmdWord) : BitVec 4 := w.extractLsb' 8 4
/-- `W[7:4]`, the high half of the operand field: the port of a pin (30_encoding R80, R82). -/
def hiField (w : CmdWord) : BitVec 4 := w.extractLsb' 4 4
/-- `W[3:0]`, the low half of the operand field: a pin's number, or `vec` (30_encoding R80, R82). -/
def loField (w : CmdWord) : BitVec 4 := w.extractLsb' 0 4
/-- `W[7:0]`, the operand field: `imm8` (30_encoding R80). -/
def immField (w : CmdWord) : Byte := w.extractLsb' 0 8
/-- The pin operand of formats P and G (30_encoding R82). -/
def pinField (w : CmdWord) : PinId := ⟨hiField w, loField w⟩

/-- `dir`: 0 is `Input`, 1 is `Output` (30_encoding R82). -/
def Dir.ofBit : Bit → Dir
  | false => .input
  | true  => .output

def Dir.bit : Dir → Bit
  | .input  => false
  | .output => true

/-- `pull`: 0 is `None`, 1 is `Up`, 2 is `Down`, 3 is reserved (30_encoding R82). -/
def Pull.ofBits (b : BitVec 2) : Option Pull :=
  if b = 0 then some .noPull
  else if b = 1 then some .up
  else if b = 2 then some .down
  else none

def Pull.bits : Pull → BitVec 2
  | .noPull => 0
  | .up     => 1
  | .down   => 2

/-- Why a command word is illegal (30_encoding R85). Every one is answered `E_ILLEGAL`. -/
inductive Reject where
  /-- Unit `0x0` or `0x6..0xF`. -/
  | reservedUnit
  /-- A function the unit does not have. -/
  | reservedFn
  /-- Operand bits that must be 0. -/
  | operandBits
  /-- `vec >= 7`. -/
  | vectorRange
  /-- `pull = 3`. -/
  | reservedPull
  /-- `0x4Bpp`, kept for `toggle` (41 R131). -/
  | toggle
deriving DecidableEq, Repr

/-- Format N: the operand field must be `0x00` (30_encoding R80). -/
def noOperand (w : CmdWord) (i : Instr) : Except Reject Instr :=
  if immField w = 0 then .ok i else .error .operandBits

/-- Unit RB, `0x1` (30_encoding R84, R85). -/
def decodeRb (w : CmdWord) : Except Reject Instr :=
  match (fnField w).toNat with
  | 0 => .ok (.rbInit (immField w))
  | 1 => .ok (.rbWr (immField w))
  | 2 => noOperand w .rbRd
  | 3 => noOperand w .rbCnt
  | 4 => noOperand w .rbFlush
  | _ => .error .reservedFn

/-- `KP.IRQ v`: `W[7:4]` must be 0 and `vec` in `0..6` (30_encoding R80, R85). -/
def decodeIrq (w : CmdWord) : Except Reject Instr :=
  if hiField w ≠ 0 then .error .operandBits
  else if (loField w).toNat ≤ 6 then .ok (.kpIrq (loField w))
  else .error .vectorRange

/-- Unit KP, `0x2` (30_encoding R84, R85). -/
def decodeKp (w : CmdWord) : Except Reject Instr :=
  match (fnField w).toNat with
  | 0 => noOperand w .kpInit
  | 1 => noOperand w .kpTick
  | 2 => decodeIrq w
  | 3 => noOperand w .kpRdkey
  | _ => .error .reservedFn

/-- Unit IL, `0x3` (30_encoding R84, R85). -/
def decodeIl (w : CmdWord) : Except Reject Instr :=
  match (fnField w).toNat with
  | 1 => .ok (.ilArmf (pinField w))
  | 2 => .ok (.ilArmr (pinField w))
  | 4 => .ok (.ilDis (pinField w))
  | 5 => .ok (.ilEn (pinField w))
  | 6 => .ok (.ilClr (pinField w))
  | _ => .error .reservedFn

/-- `IO.CFG`, format G: `dir = W[10]`, `pull = W[9:8]`, which must not be 3 (30_encoding R80, R85). -/
def decodeCfg (w : CmdWord) : Except Reject Instr :=
  match Pull.ofBits (w.extractLsb' 8 2) with
  | some q => .ok (.ioCfg (pinField w) (Dir.ofBit (w.getLsbD 10)) q)
  | none   => .error .reservedPull

/-- Unit IO, `0x4`: with `W[11] = 0` the word is format G, else `fn` selects (30_encoding R80, R84, R85). -/
def decodeIo (w : CmdWord) : Except Reject Instr :=
  match (fnField w).toNat with
  | 8  => .ok (.ioSet (pinField w))
  | 9  => .ok (.ioRst (pinField w))
  | 10 => .ok (.ioRd (pinField w))
  | 11 => .error .toggle
  | fn => if fn < 8 then decodeCfg w else .error .reservedFn

/-- Unit TM, `0x5` (30_encoding R84, R85). -/
def decodeTm (w : CmdWord) : Except Reject Instr :=
  match (fnField w).toNat with
  | 0 => noOperand w .tmNow
  | 1 => .ok (.tmDelay (immField w))
  | _ => .error .reservedFn

/-- The decoder, total on every word: the operation the word is, or why it is illegal (30_encoding R81, R84, R85). -/
def decodeWord (w : CmdWord) : Except Reject Instr :=
  match (unitField w).toNat with
  | 1 => decodeRb w
  | 2 => decodeKp w
  | 3 => decodeIl w
  | 4 => decodeIo w
  | 5 => decodeTm w
  | _ => .error .reservedUnit

/-- The operation a command word is, if it is one (30_encoding R84). -/
def decode (w : CmdWord) : Option Instr := (decodeWord w).toOption

/-! ## The encoder -/

/-- Formats N, B and V, or any word given by its unit, function and operand byte (30_encoding R80). -/
def assemble (unit fn : BitVec 4) (arg : Byte) : CmdWord := unit ++ fn ++ arg

/-- The operand byte of a pin, `port ++ num` (30_encoding R82). -/
def PinId.byte (p : PinId) : Byte := p.port ++ p.num

/-- `fn` of `IO.CFG`: `0 d qq` (30_encoding R80 format G). -/
def cfgFn (d : Dir) (q : Pull) : BitVec 4 := 0#1 ++ BitVec.ofBool d.bit ++ q.bits

/-- The command word of an instruction (30_encoding R84). -/
def encode : Instr → CmdWord
  | .rbInit c    => assemble 0x1 0x0 c
  | .rbWr b      => assemble 0x1 0x1 b
  | .rbRd        => assemble 0x1 0x2 0
  | .rbCnt       => assemble 0x1 0x3 0
  | .rbFlush     => assemble 0x1 0x4 0
  | .kpInit      => assemble 0x2 0x0 0
  | .kpTick      => assemble 0x2 0x1 0
  | .kpIrq v     => assemble 0x2 0x2 (0#4 ++ v)
  | .kpRdkey     => assemble 0x2 0x3 0
  | .ilArmf p    => assemble 0x3 0x1 p.byte
  | .ilArmr p    => assemble 0x3 0x2 p.byte
  | .ilDis p     => assemble 0x3 0x4 p.byte
  | .ilEn p      => assemble 0x3 0x5 p.byte
  | .ilClr p     => assemble 0x3 0x6 p.byte
  | .ioCfg p d q => assemble 0x4 (cfgFn d q) p.byte
  | .ioSet p     => assemble 0x4 0x8 p.byte
  | .ioRst p     => assemble 0x4 0x9 p.byte
  | .ioRd p      => assemble 0x4 0xA p.byte
  | .tmNow       => assemble 0x5 0x0 0
  | .tmDelay m   => assemble 0x5 0x1 m

/-- The instruction the decoder reads from a word numbered as spec/opcode_table.json numbers it; KDB's words have one length, 16 bits
(30_encoding R80, R86), so bits above `nbits` are 0. -/
def decodeTableWord (nbits w : Nat) : Option Instr :=
  decode (BitVec.ofNat 16 (w % 2 ^ nbits))

/-! ## The opcode table of 30_encoding R84, as rows of match and mask -/

/-- The operand constraints of R84's table: none, `vvvv <= 6`, `qq != 3`. -/
inductive OperandRule where
  | anyOperand
  | vectorAtMost6
  | pullNot3
deriving DecidableEq, Repr

/-- A word meets an operand constraint (R84). -/
def OperandRule.holds (c : OperandRule) (w : CmdWord) : Bool :=
  match c with
  | .anyOperand    => true
  | .vectorAtMost6 => decide ((loField w).toNat ≤ 6)
  | .pullNot3      => decide (w.extractLsb' 8 2 ≠ 3)

/-- One row of R84's table: `W` is of this row when `(W AND mask) = match` and the operand constraint holds. -/
structure OpRow where
  mnemonic   : String
  matchBits  : CmdWord
  mask       : CmdWord
  constraint : OperandRule
deriving DecidableEq, Repr

/-- The rows of unit RB and unit KP (R84). -/
def opRowsRbKp : List OpRow :=
  [ ⟨"RB.INIT",  0x1000, 0xFF00, .anyOperand⟩,
    ⟨"RB.WR",    0x1100, 0xFF00, .anyOperand⟩,
    ⟨"RB.RD",    0x1200, 0xFFFF, .anyOperand⟩,
    ⟨"RB.CNT",   0x1300, 0xFFFF, .anyOperand⟩,
    ⟨"RB.FLUSH", 0x1400, 0xFFFF, .anyOperand⟩,
    ⟨"KP.INIT",  0x2000, 0xFFFF, .anyOperand⟩,
    ⟨"KP.TICK",  0x2100, 0xFFFF, .anyOperand⟩,
    ⟨"KP.IRQ",   0x2200, 0xFFF0, .vectorAtMost6⟩,
    ⟨"KP.RDKEY", 0x2300, 0xFFFF, .anyOperand⟩ ]

/-- The rows of units IL, IO and TM (R84). -/
def opRowsIlIoTm : List OpRow :=
  [ ⟨"IL.ARMF",  0x3100, 0xFF00, .anyOperand⟩,
    ⟨"IL.ARMR",  0x3200, 0xFF00, .anyOperand⟩,
    ⟨"IL.DIS",   0x3400, 0xFF00, .anyOperand⟩,
    ⟨"IL.EN",    0x3500, 0xFF00, .anyOperand⟩,
    ⟨"IL.CLR",   0x3600, 0xFF00, .anyOperand⟩,
    ⟨"IO.CFG",   0x4000, 0xF800, .pullNot3⟩,
    ⟨"IO.SET",   0x4800, 0xFF00, .anyOperand⟩,
    ⟨"IO.RST",   0x4900, 0xFF00, .anyOperand⟩,
    ⟨"IO.RD",    0x4A00, 0xFF00, .anyOperand⟩,
    ⟨"TM.NOW",   0x5000, 0xFFFF, .anyOperand⟩,
    ⟨"TM.DELAY", 0x5100, 0xFF00, .anyOperand⟩ ]

/-- The twenty rows of R84. -/
def opRows : List OpRow := opRowsRbKp ++ opRowsIlIoTm

/-- Row `r` selects word `w` (R84). -/
def OpRow.selects (r : OpRow) (w : CmdWord) : Bool :=
  decide (w &&& r.mask = r.matchBits) && r.constraint.holds w

/-- The mnemonic of an instruction (30_encoding R84). -/
def Instr.mnemonic : Instr → String
  | .rbInit _    => "RB.INIT"
  | .rbWr _      => "RB.WR"
  | .rbRd        => "RB.RD"
  | .rbCnt       => "RB.CNT"
  | .rbFlush     => "RB.FLUSH"
  | .kpInit      => "KP.INIT"
  | .kpTick      => "KP.TICK"
  | .kpIrq _     => "KP.IRQ"
  | .kpRdkey     => "KP.RDKEY"
  | .ilArmf _    => "IL.ARMF"
  | .ilArmr _    => "IL.ARMR"
  | .ilDis _     => "IL.DIS"
  | .ilEn _      => "IL.EN"
  | .ilClr _     => "IL.CLR"
  | .ioCfg _ _ _ => "IO.CFG"
  | .ioSet _     => "IO.SET"
  | .ioRst _     => "IO.RST"
  | .ioRd _      => "IO.RD"
  | .tmNow       => "TM.NOW"
  | .tmDelay _   => "TM.DELAY"

/-! ## The textual form of 30_encoding R87 -/

/-- The letter of a port, `A` to `P` (30_encoding R87). -/
def portLetter (p : BitVec 4) : String := String.singleton (Char.ofNat (65 + p.toNat))

/-- A pin as text: `PB5` is port 1, number 5 (30_encoding R87). -/
def PinId.text (p : PinId) : String := "P" ++ portLetter p.port ++ toString p.num.toNat

def Dir.text : Dir → String
  | .input  => "IN"
  | .output => "OUT"

def Pull.text : Pull → String
  | .noPull => "NONE"
  | .up     => "UP"
  | .down   => "DOWN"

/-- The operands of an instruction as text, in order (30_encoding R87). -/
def Instr.operandText : Instr → List String
  | .rbInit c | .rbWr c | .tmDelay c => [toString c.toNat]
  | .rbRd | .rbCnt | .rbFlush | .kpInit | .kpTick | .kpRdkey | .tmNow => []
  | .kpIrq v => ["V" ++ toString v.toNat]
  | .ilArmf p | .ilArmr p | .ilDis p | .ilEn p | .ilClr p | .ioSet p | .ioRst p | .ioRd p => [p.text]
  | .ioCfg p d q => [p.text, d.text, q.text]

/-- One line of text: the mnemonic, then the operands separated by commas (30_encoding R87). -/
def Instr.text (i : Instr) : String :=
  match i.operandText with
  | []      => i.mnemonic
  | o :: os => i.mnemonic ++ " " ++ String.intercalate ", " (o :: os)

end Sys2Proof
end

