-- ==== Sys2Proof/Machine/State.lean ====
section
/-! DEFINITION. The state of KDB as plain data (10_state R20 to R45), the reasons a step can stop, and the state after reset (10_state R43). -/

namespace Sys2Proof
namespace Machine

/-- Why a step stops with a fault. KDB itself has none (60_exceptions R230). -/
inductive Fault where
  /-- Raised by `RB.RD` and `KP.RDKEY` when the slot at `tail` has never been written: "reading one is a model fault, not a zero"
  (10_state R43, 93 U8). Safe: the machine stops where the chip returns some byte. No run from reset raises it. -/
  | unwrittenSlot (slot : Nat)
  /-- Raised by `RB.RD`, `RB.WR` and what issues them when the index is not a slot `0..RB_SLOTS-1`: "an out-of-range `RING` index
  cannot arise" (20_memory R62). Safe: no run from reset raises it. -/
  | noSuchSlot (slot : Nat)
  /-- Raised by `KP.TICK` and handler step `H4` when a scanned key has no entry in `KEYMAP`: "an out-of-range `KEYMAP` index cannot
  arise" (20_memory R62). Safe: with a key map of N_ROWS * N_COLS bytes no run from reset raises it. -/
  | noSuchKey (key : Key)
deriving DecidableEq, Repr

/-- Why an instruction is refused. -/
inductive Refusal where
  /-- Raised by `exec` for an instruction that has no meaning yet; safe. No arm raises it. -/
  | notModelled (mnemonic : String)
  /-- Raised by `KP.IRQ` when a handler invocation is already in progress: `H0` "requires hstep = 0" (43 R160), and a handler preempting
  a handler is outside the spec (93 U6). Safe; `step` never hands a word to `exec` then (45 R194). -/
  | handlerInProgress
deriving DecidableEq, Repr

/-- An outcome of a rule of KDB. -/
abbrev Result (α : Type) := Host.Outcome α Fault Refusal

/-- The phase of the poll machine; there is no fourth value (10_state R23, 93 U10). -/
inductive Phase where
  | idle
  | debounce
  | pressed
deriving DecidableEq, Repr

/-- The handler sequencer `hstep`: `h0` is 0, no invocation in progress; `h1` to `h6` say which micro-step is next (10_state R26). -/
inductive HStep where
  | h0 | h1 | h2 | h3 | h4 | h5 | h6
deriving DecidableEq, Repr

/-- The edge a line latches (10_state R33). -/
inductive Edge where
  | noEdge
  | falling
  | rising
deriving DecidableEq, Repr

/-- The registers of one interrupt line: `il_port`, `il_edge`, `il_en`, `il_pend`, `il_last` (10_state R33, R34). -/
structure LineReg where
  port : BitVec 4
  edge : Edge
  en   : Bit
  pend : Bit
  last : Bit
deriving DecidableEq, Repr

/-- The registers of one pin: `pin_dir`, `pin_pull` (10_state R31). -/
structure PinReg where
  dir  : Dir
  pull : Pull
deriving DecidableEq, Repr

/-- A response (30_encoding R83). `OK` carries its data, zero where the rule names none; `NOVALUE` carries none (93 U7). -/
inductive Resp where
  | ok (data : Word32)
  | noValue
  | rejected
  | eStorage
  | eConfig
  | inert
  | eIllegal
  | refused
deriving DecidableEq, Repr

/-- A `TM.DELAY` in progress: the `t0` it took and its operand `m` (46 R217). -/
structure Delay where
  t0 : Nat
  m  : Nat
deriving DecidableEq, Repr

/-- What the model records of a run; KDB has no such register (60_exceptions R230). The first four are R230's fault set; `pinUse` and
`ghosting` mark the runs to which 93 U9 and U17 give no meaning, and `msWrap` a run in which `ms` has wrapped, past which 93 U16 lets no claim
rest on the absolute value that `TM.NOW` answers. -/
structure Marks where
  eConfig  : Bool
  eStorage : Bool
  eIllegal : Bool
  refused  : Bool
  pinUse   : Bool
  ghosting : Bool
  msWrap   : Bool
deriving DecidableEq, Repr

/-- The two execution contexts (60_exceptions R238). -/
inductive Context where
  | producer
  | consumer
deriving DecidableEq, Repr

/-- A step of the environment (30_encoding R89): `ENV.PRESS`, `ENV.RELEASE`, `ENV.MS`. -/
inductive EnvStep where
  | press (k : Key)
  | release (k : Key)
  | ms (d : Nat)
deriving DecidableEq, Repr

/-- Who moves next (20_memory R68, 70_reset_and_hazards R273): KDB itself, the environment, a context that makes a command word
ready on the port, or the platform's arbiter that serves one requesting vector (45 R195). -/
inductive Move where
  | kdb
  | env (e : EnvStep)
  | ready (c : Context) (w : CmdWord)
  | serve
deriving DecidableEq, Repr

/-- The ring's bytes, the RING space of 20_memory R60: (slot, byte) pairs, slots strictly rising; an unlisted slot has no value. -/
abbrev Memory := List Host.Cell

/-- The state of KDB (10_state R20), its configuration (00_scope R8), its environment and the moves to come. -/
structure State where
  /-- The configuration, written by no step (10_state R21). -/
  cfg      : Config
  -- keypad control (10_state R22 to R26)
  active   : Bit
  inited   : Bit
  phase    : Phase
  -- a number below `2^CNT_W` (10_state R24)
  cnt      : Nat
  trig     : BitVec 16
  hstep    : HStep
  hkey     : Option Key
  -- ring buffer (10_state R27, R28)
  rbValid  : Bit
  rbCap    : Nat
  head     : Nat
  tail     : Nat
  buf      : Memory
  -- pins (10_state R30, R31): the level of each row, the registers of each of the 256 pins
  rowOut   : List Bit
  pins     : Vector PinReg 256
  -- interrupt line controller (10_state R33, R34)
  lines    : Vector LineReg 16
  -- time, a number below `2^MS_W` (10_state R37)
  ms       : Nat
  -- environment: the closed keys, in rising order without repeats (10_state R38)
  pressed  : List Key
  -- the response port (30_encoding R83)
  resp     : Option Resp
  -- a `TM.DELAY` in progress (46 R217): the producer context's, its own or handler step `H2`'s, and the main loop's
  delay     : Option Delay
  mainDelay : Option Delay
  -- the model's own: the context whose operation KDB runs (R238, log entry 10), marks, the number of the next free draw, words
  -- ready on the port, moves to come
  issuer   : Context
  marks    : Marks
  draws    : Nat
  producer : List CmdWord
  consumer : List CmdWord
  sched    : List Move
deriving DecidableEq, Repr

/-- No mark. -/
def Marks.clean : Marks := ⟨false, false, false, false, false, false, false⟩

/-- A line after reset (10_state R43; `port` and `last` are DESIGN CHOICE, log entry 4). -/
def LineReg.reset : LineReg := ⟨0, .noEdge, false, false, false⟩

/-- A pin's registers after reset (DESIGN CHOICE, log entry 4). -/
def PinReg.reset : PinReg := ⟨.input, .noPull⟩

/-- The state after power-on of a KDB with configuration `c` (10_state R43, 70_reset_and_hazards R255). The values R43 calls
unspecified are DESIGN CHOICE (log entry 4); no ring slot has a value (log entry 5). -/
def State.resetWith (c : Config) : State where
  cfg      := c
  active   := false
  inited   := false
  phase    := .idle
  cnt      := 0
  trig     := 0
  hstep    := .h0
  hkey     := none
  rbValid  := false
  rbCap    := 0
  head     := 0
  tail     := 0
  buf      := []
  rowOut   := List.replicate c.rowPin.length false
  pins     := Vector.replicate 256 PinReg.reset
  lines    := Vector.replicate 16 LineReg.reset
  ms       := 0
  pressed  := []
  resp     := none
  delay     := none
  mainDelay := none
  issuer   := .consumer
  marks    := Marks.clean
  draws    := 0
  producer := []
  consumer := []
  sched    := []

/-- The state after reset, of the reference configuration in the Poll variant (DESIGN CHOICE, log entry 2). -/
def State.reset : State := State.resetWith (Config.reference .poll)

end Machine
end Sys2Proof
end

