-- ==== Sys2Proof/Machine/Operands.lean ====
section
/-! DEFINITION. Operand forms: how a pin, a key, a slot and a response name a place in the state (30_encoding R82, R83, 20_memory R60, 45 R185). -/

namespace Sys2Proof

/-- The interrupt line a pin feeds: its number, whatever its port (45 R185). -/
def PinId.line (p : PinId) : Fin 16 := p.num.toFin

/-- The index of a pin among the 256: its operand byte (30_encoding R82). -/
def PinId.index (p : PinId) : Fin 256 := p.byte.toFin

namespace Machine

/-- The number of rows (00_scope R8). -/
def Config.nRows (c : Config) : Nat := c.rowPin.length

/-- The number of columns (00_scope R8). -/
def Config.nCols (c : Config) : Nat := c.colPin.length

/-- The width `IDX_W` of `head` and `tail`: `max(1, ceil(log2(RB_SLOTS)))` (00_scope R8). -/
def Config.idxW (c : Config) : Nat := max 1 (Nat.clog 2 c.rbSlots)

/-- `(ms - t0) % 2^MS_W`, the milliseconds from `t0` to `ms` across at most one wrap of the clock (46 R217). -/
def Config.elapsed (c : Config) (t0 ms : Nat) : Nat := (ms + 2 ^ c.msW - t0) % 2 ^ c.msW

/-- `pin = ROW_PIN[r]` for some `r` (41 R121). -/
def Config.isRow (c : Config) (p : PinId) : Bool := c.rowPin.contains p

/-- `pin = COL_PIN[c]` for some `c` (41 R124). -/
def Config.isCol (c : Config) (p : PinId) : Bool := c.colPin.contains p

/-- The pin is a row or a column pin of the configuration (41 R123). -/
def Config.isMatrix (c : Config) (p : PinId) : Bool := c.isRow p || c.isCol p

/-- The line is in `COLLINES`, the numbers of the column pins (43 section 1). -/
def Config.isColLine (c : Config) (n : Fin 16) : Bool := c.colPin.any fun p => p.line == n

/-- The matrix has the key `(r, c)` (10_state R38). -/
def Config.hasKey (c : Config) (k : Key) : Bool := decide (k.1 < c.nRows) && decide (k.2 < c.nCols)

/-- The linear index of a key in `KEYMAP`, row-major (20_memory R66). -/
def Config.keyIndex (c : Config) (k : Key) : Nat := k.1 * c.nCols + k.2

/-- An address of a byte: a space and an index (00_scope R10, 20_memory R60). -/
inductive Address where
  | ring (i : Nat)
  | keymap (i : Nat)
deriving DecidableEq, Repr

/-- The code of a response (30_encoding R83). -/
def Resp.code : Resp → BitVec 4
  | .ok _     => 0
  | .noValue  => 1
  | .rejected => 2
  | .eStorage => 3
  | .eConfig  => 4
  | .inert    => 5
  | .eIllegal => 6
  | .refused  => 7

/-- The data of a response: zero when the rule names none, no payload under `NOVALUE` (30_encoding R83, 93 U7, log entry 16). -/
def Resp.data : Resp → Option Word32
  | .ok d    => some d
  | .noValue => none
  | _        => some 0

/-- The name of a response (30_encoding R83, R87). -/
def Resp.text : Resp → String
  | .ok _     => "OK"
  | .noValue  => "NOVALUE"
  | .rejected => "REJECTED"
  | .eStorage => "E_STORAGE"
  | .eConfig  => "E_CONFIG"
  | .inert    => "INERT"
  | .eIllegal => "E_ILLEGAL"
  | .refused  => "REFUSED"

/-- The registers of an interrupt line (10_state R33, R34). -/
def State.line (s : State) (n : Fin 16) : LineReg := s.lines.get n

/-- The registers of a pin (10_state R31). -/
def State.pin (s : State) (i : Fin 256) : PinReg := s.pins.get i

/-- `hstep` as its number (10_state R26). -/
def HStep.toNat : HStep → Nat
  | .h0 => 0
  | .h1 => 1
  | .h2 => 2
  | .h3 => 3
  | .h4 => 4
  | .h5 => 5
  | .h6 => 6

/-- `phase` as its number (10_state R23). -/
def Phase.toNat : Phase → Nat
  | .idle     => 0
  | .debounce => 1
  | .pressed  => 2

/-- The vector of a line (45 R192). -/
def vectorOf (n : Fin 16) : Nat :=
  if n.val ≤ 4 then n.val else if n.val ≤ 9 then 5 else 6

/-- `group(v)`: the lines of a vector (45 R192). -/
def group (v : Nat) : List (Fin 16) := (List.finRange 16).filter fun n => vectorOf n == v

end Machine
end Sys2Proof
end

