-- ==== Sys2Proof/Machine/Flags.lean ====
section
/-! DEFINITION. The derived conditions: empty, full and count of the ring, `in_handler`, vector requests, the pending mask, the validity of a configuration, and the marks a response leaves (10_state R29, R35, R36, R42). -/

namespace Sys2Proof
namespace Machine

/-- `next(i) = (i + 1) % C` (20_memory R65). -/
def State.next (s : State) (i : Nat) : Nat := (i + 1) % s.rbCap

/-- `Empty = (rb_valid = 0) or (head = tail)` (40 R105). -/
def State.ringEmpty (s : State) : Bool := !s.rbValid || s.head == s.tail

/-- `Full = (rb_valid = 1) and (next(head) = tail)` (40 R105). -/
def State.ringFull (s : State) : Bool := s.rbValid && s.next s.head == s.tail

/-- `count() = (head - tail + C) % C`, the sum computed without wrap (20_memory R65, 40 R103); an invalid ring
"always reports empty". -/
def State.ringCount (s : State) : Nat :=
  if s.rbValid then (s.head + s.rbCap - s.tail) % s.rbCap else 0

/-- `in_handler` is `hstep != 0` (10_state R36). -/
def State.inHandler (s : State) : Bool := s.hstep != .h0

/-- `vreq[v] = OR over n in group(v) of (il_pend[n] AND il_en[n])` (45 R193). -/
def State.vreq (s : State) (v : Nat) : Bool := (group v).any fun n => (s.line n).pend && (s.line n).en

/-- The vectors that request service (45 R195). -/
def State.requesting (s : State) : List Nat := (List.range 7).filter s.vreq

/-- The 16-bit mask whose bit `n` is `f n`. -/
def maskOf (f : Fin 16 → Bool) : BitVec 16 :=
  (List.finRange 16).foldl (fun m n => if f n then m ||| BitVec.twoPow 16 n.val else m) 0

/-- The column lines that are pending, as `H0` copies them into `trig` (43 R160, 45 R198). -/
def State.pendingCols (s : State) : BitVec 16 :=
  maskOf fun n => s.cfg.isColLine n && (s.line n).pend

/-- `CfgValid()` (42 R141). -/
def Config.valid (c : Config) : Bool :=
  c.cfgPresent
    && decide (1 ≤ c.nRows) && decide (1 ≤ c.nCols)
    && decide (c.nRows * c.nCols ≤ 255) && decide (c.nRows * c.nCols ≤ c.rbSlots)
    && decide (c.rowPin ++ c.colPin).Nodup
    && (c.variant != .interrupt
        || (decide (c.nCols ≤ 16) && decide (c.colPin.map PinId.line).Nodup))

/-- What a response adds to the run's marks: `E_CONFIG`, `E_STORAGE`, `E_ILLEGAL` and `REFUSED` are recorded
(60_exceptions R230, 42 R150, R151). -/
def Marks.note (m : Marks) : Resp → Marks
  | .eConfig  => { m with eConfig := true }
  | .eStorage => { m with eStorage := true }
  | .eIllegal => { m with eIllegal := true }
  | .refused  => { m with refused := true }
  | .ok _ | .noValue | .rejected | .inert => m

end Machine
end Sys2Proof
end

