-- ==== Sys2Proof/Machine/Ops.lean ====
section
/-! DEFINITION. The named operations over memory and registers that the meanings share: the ring, the pins, the edge latch, the interrupt lines, the scan, the delay, the answer of an operation, and handler entry and return. -/

namespace Sys2Proof
namespace Machine

/-! ## Memory: the RING space -/

/-- The byte at a slot, if one has been written. -/
def Memory.read : Memory → Nat → Option Byte
  | [], _ => none
  | (a, b) :: m, i => if i = a then some b else Memory.read m i

/-- Write a byte, keeping the slots in rising order. -/
def Memory.write : Memory → Nat → Byte → Memory
  | [], i, v => [(i, v)]
  | (a, b) :: m, i, v =>
    if i < a then (i, v) :: (a, b) :: m
    else if i = a then (i, v) :: m
    else (a, b) :: Memory.write m i v

/-- Every listed slot is at least `lo`, and the slots rise strictly. -/
def Memory.risingFrom : Nat → Memory → Bool
  | _, [] => true
  | lo, (a, _) :: m => decide (lo ≤ a) && Memory.risingFrom (a + 1) m

/-- The canonical form: slots strictly rising. An unlisted slot has no value, so no entry can equal one. -/
def Memory.wf (m : Memory) : Bool := Memory.risingFrom 0 m

/-- `MemRead(a, 1)` of 00_scope R10: the byte at an address of a space, if it has one. -/
def State.memRead (s : State) : Address → Option Byte
  | .ring i   => s.buf.read i
  | .keymap i => s.cfg.keymap[i]?

/-! ## Results and answers -/

/-- Go on with the value of a result; a fault or a refusal ends it. -/
def Result.andThen {α β : Type} (x : Result α) (f : α → Result β) : Result β :=
  match x with
  | .next a    => f a
  | .fault r   => .fault r
  | .refused r => .refused r

/-- End an operation with its response: `respond(code, data)`, and `raise <Status>` too, which is a response code and no trap
(00_scope R10, 60_exceptions R225). The response is put on the response port and the run's marks note it. -/
def answer (p : State × Resp) : Result State :=
  .next { p.1 with resp := some p.2, marks := p.1.marks.note p.2 }

/-- `respond(OK, 0)`. -/
def answerOk (s : State) : Result State := answer (s, .ok 0)

/-! ## Ring buffer rules (40_ring_buffer) -/

/-- `MemRead(RING:i, 1)`; a slot that does not exist or was never written faults (20_memory R62, 93 U8). -/
def State.ringLoad (s : State) (i : Nat) : Result Byte :=
  if i < s.cfg.rbSlots then
    match s.memRead (.ring i) with
    | some b => .next b
    | none   => .fault (.unwrittenSlot i)
  else .fault (.noSuchSlot i)

/-- `MemWrite(RING:i, 1, b)`; a slot that does not exist faults (20_memory R62). -/
def State.ringStore (s : State) (i : Nat) (b : Byte) : Result State :=
  if i < s.cfg.rbSlots then .next { s with buf := s.buf.write i b } else .fault (.noSuchSlot i)

/-- The rule of `RB.INIT c` (40 R100). -/
def ringInit (c : Nat) (s : State) : State × Resp :=
  if c = 0 ∨ s.cfg.rbSlots < c then ({ s with rbValid := false }, .eStorage)
  else ({ s with rbCap := c, head := 0, tail := 0, rbValid := true }, .ok 0)

/-- Drop the oldest byte of a full ring (40 R101, 60_exceptions R227). -/
def dropOldest (s : State) : State :=
  if s.next s.head = s.tail then { s with tail := s.next s.tail } else s

/-- The rule of `RB.WR b` (40 R101). -/
def ringWrite (b : Byte) (s : State) : Result (State × Resp) :=
  if s.rbValid then
    Result.andThen ((dropOldest s).ringStore s.head b) fun t =>
      .next ({ t with head := s.next s.head }, .ok 0)
  else .next (s, .rejected)

/-- The rule of `RB.RD` (40 R102). -/
def ringRead (s : State) : Result (State × Resp) :=
  if s.ringEmpty then .next (s, .noValue)
  else
    Result.andThen (s.ringLoad s.tail) fun v =>
      .next ({ s with tail := s.next s.tail }, .ok (v.setWidth 32))

/-- The rule of `RB.FLUSH` (40 R104). -/
def ringFlush (s : State) : State := { s with head := 0, tail := 0 }

/-! ## Pins, levels and the edge latch (41 sections 1 and 2, 45 section 3) -/

/-- The level KDB drives on a row pin, `row_out[r]` for `pin = ROW_PIN[r]` (41 R124). -/
def State.rowLevel (s : State) (p : PinId) : Option Bit := (s.cfg.rowPin.zip s.rowOut).lookup p

/-- A closed key of a column of this pin sits on a row that is low (41 R124). -/
def State.pulledLow (s : State) (p : PinId) : Bool :=
  s.pressed.any fun k => s.cfg.colPin[k.2]? == some p && s.rowOut[k.1]? == some false

/-- `Level(p)` (41 R124). The level of a pin that is neither row nor column is not defined: a free value (41 R123, 93 U9, log entry 9). -/
def State.level (s : State) (p : PinId) : Bit :=
  match s.rowLevel p with
  | some b => b
  | none   => if s.cfg.isCol p then !s.pulledLow p else Config.foreignLevel s.draws p

/-- The edge from `old` to `new` is the one the line latches (45 R190). -/
def Edge.hit (e : Edge) (old new : Bit) : Bool :=
  match e with
  | .noEdge  => false
  | .falling => old && !new
  | .rising  => !old && new

/-- What the edge latch makes of line `n` (45 R190); on a disabled line the draw decides (45 R191). -/
def State.latched (s : State) (n : Fin 16) : LineReg :=
  let l := s.line n
  if l.edge = .noEdge then l
  else
    let new := s.level ⟨l.port, BitVec.ofFin n⟩
    { l with
      pend := l.pend || (l.edge.hit l.last new && (l.en || Config.latchDraw s.draws n))
      last := new }

/-- `EdgeLatch()` (45 R190). -/
def edgeLatch (s : State) : State :=
  { s with lines := Vector.ofFn s.latched, draws := s.draws + 1 }

/-- Mark a run in which a pin is used in a way that the spec gives no meaning (93 U9, log entry 9). -/
def markPinUse (bad : Bool) (s : State) : State :=
  { s with marks := { s.marks with pinUse := s.marks.pinUse || bad } }

/-- The effect of `IO.SET` (`b` true) and `IO.RST` (`b` false) (41 R121, R122): on a row pin the row's level changes and the edge latch runs;
on any other pin nothing changes. -/
def drivePin (b : Bit) (p : PinId) (s : State) : State :=
  if s.cfg.isRow p then
    edgeLatch (markPinUse ((s.pin p.index).dir != .output)
      { s with rowOut := List.zipWith (fun q v => if q = p then b else v) s.cfg.rowPin s.rowOut })
  else s

/-- `IO.SET(ROW_PIN[r])` or `IO.RST(ROW_PIN[r])`. -/
def driveRow (b : Bit) (r : Nat) (s : State) : State :=
  match s.cfg.rowPin[r]? with
  | some p => drivePin b p s
  | none   => s

/-- Drive every row in configuration order (41 R129). -/
def driveRows (b : Bit) (s : State) : State :=
  (List.range s.cfg.nRows).foldl (fun t r => driveRow b r t) s

/-- A setting of a row pin other than Output/None, or of a column pin other than Input/Up (93 U9). -/
def Config.oddSetting (c : Config) (p : PinId) (d : Dir) (q : Pull) : Bool :=
  (c.isRow p && !(d == .output && q == .noPull)) || (c.isCol p && !(d == .input && q == .up))

/-- The effect of `IO.CFG` (41 R120). -/
def configPin (p : PinId) (d : Dir) (q : Pull) (s : State) : State :=
  markPinUse (s.cfg.oddSetting p d q) { s with pins := s.pins.set p.index ⟨d, q⟩ }

/-! ## Interrupt lines (45 section 2) -/

/-- Rewrite the registers of line `n`. -/
def State.setLine (s : State) (n : Fin 16) (l : LineReg) : State := { s with lines := s.lines.set n l }

/-- A free level has been taken for pin `p` if it is neither row nor column: the next one is a new draw, and the run is marked (93 U9). -/
def noteForeign (p : PinId) (s : State) : State :=
  if s.cfg.isMatrix p then s else markPinUse true { s with draws := s.draws + 1 }

/-- The effect of `IL.ARMF` and `IL.ARMR` (45 R186). -/
def armLine (e : Edge) (p : PinId) (s : State) : State :=
  noteForeign p
    (s.setLine p.line { port := p.port, edge := e, en := true, pend := false, last := s.level p })

/-- The effect of `IL.DIS` (`b` false) and `IL.EN` (`b` true) (45 R187, R188). -/
def enableLine (b : Bit) (p : PinId) (s : State) : State :=
  s.setLine p.line { s.line p.line with en := b }

/-- The effect of `IL.CLR` (45 R189). -/
def clearLine (p : PinId) (s : State) : State :=
  s.setLine p.line { s.line p.line with pend := false }

/-- Apply an operation to every column pin in configuration order. -/
def eachCol (f : PinId → State → State) (s : State) : State :=
  s.cfg.colPin.foldl (fun t p => f p t) s

/-- Apply an operation to every row pin in configuration order. -/
def eachRow (f : PinId → State → State) (s : State) : State :=
  s.cfg.rowPin.foldl (fun t p => f p t) s

/-! ## The scan (41 section 3) -/

/-- `IO.RD(COL_PIN[c]) = 0` (41 R125). -/
def State.colLow (s : State) (c : Nat) : Bool :=
  match s.cfg.colPin[c]? with
  | some p => !s.level p
  | none   => false

/-- Sample the columns in configuration order and stop at the first that reads low (41 R125). -/
def State.sample (s : State) : Option Nat := (List.range s.cfg.nCols).find? s.colLow

/-- `CoreScan()` over the rows still to scan: each row in turn is driven low, sampled, and restored high before the scan goes on or returns
(41 R125). -/
def coreScanFrom : List Nat → State → State × Option Key
  | [], s => (s, none)
  | r :: rs, s =>
    let t := driveRow false r s
    match t.sample with
    | some c => (driveRow true r t, some (r, c))
    | none   => coreScanFrom rs (driveRow true r t)

/-- `CoreScan()` (41 R125). The closed keys do not change during it (41 R130, log entry 12). -/
def coreScan (s : State) : State × Option Key := coreScanFrom (List.range s.cfg.nRows) s

/-- `Scan()`: with the rows resting low they are raised before `CoreScan()` and lowered after it (41 R129). -/
def scan (s : State) : State × Option Key :=
  if s.cfg.rowRest then coreScan s
  else
    let r := coreScan (driveRows true s)
    (driveRows false r.1, r.2)

/-- `Decode(r, c) = KEYMAP[r][c]` (41 R128, 20_memory R66). -/
def State.symbol (s : State) (k : Key) : Option Byte :=
  if s.cfg.hasKey k then s.memRead (.keymap (s.cfg.keyIndex k)) else none

/-- `RB.WR(Decode(k))`, the inner response discarded (42 R145, 43 R164). -/
def reportKey (k : Key) (s : State) : Result State :=
  match s.symbol k with
  | some b => Result.andThen (ringWrite b s) fun p => .next p.1
  | none   => .fault (.noSuchKey k)

/-! ## The delay (46 R217) -/

/-- `(ms - t0) % 2^MS_W >= m` (46 R217). -/
def State.delayOver (s : State) (d : Delay) : Bool := decide (d.m ≤ s.cfg.elapsed d.t0 s.ms)

/-- The context waits for the delay; its response is still to come. -/
def holdDelay (c : Context) (d : Delay) (s : State) : State :=
  match c with
  | .producer => { s with delay := some d, resp := none }
  | .consumer => { s with mainDelay := some d, resp := none }

/-- Take `t0` and, if the wait is not over at once, wait in the context that asked for the delay (46 R217); `done` is what follows the
delay. A delay in progress is a field of State, one for each context, since only the agent that issued it waits (log entry 10). -/
def startDelay (c : Context) (m : Nat) (done : State → Result State) (s : State) : Result State :=
  if s.delayOver ⟨s.ms, m⟩ then done s else .next (holdDelay c ⟨s.ms, m⟩ s)

/-! ## Handler entry and return (60_exceptions R236, R237) -/

/-- Entry: nothing is saved; `trig` records the pending column lines and `hstep` marks that the handler is in progress (43 R160). -/
def enterHandler (s : State) : State := { s with trig := s.pendingCols, hstep := .h1, resp := none }

/-- Return: `hstep` goes to 0 and the operation answers `OK` (43 R166). -/
def returnFromHandler (s : State) : Result State :=
  answerOk { s with hstep := .h0, hkey := none }

end Machine
end Sys2Proof
end

