-- ==== Sys2Proof/Machine/Gpio.lean ====
section
/-! DEFINITION. The operations of unit IO (41_gpio_and_scan section 1). -/

namespace Sys2Proof
namespace Machine

/-- `IO.CFG pin, dir, pull` (41 R120). -/
def execIoCfg (p : PinId) (d : Dir) (q : Pull) (s : State) : Result State := answerOk (configPin p d q s)

/-- `IO.SET pin` (41 R121). -/
def execIoSet (p : PinId) (s : State) : Result State := answerOk (drivePin true p s)

/-- `IO.RST pin` (41 R122). -/
def execIoRst (p : PinId) (s : State) : Result State := answerOk (drivePin false p s)

/-- `IO.RD pin` (41 R123): the level in `data[0]`. -/
def execIoRd (p : PinId) (s : State) : Result State :=
  answer (noteForeign p s, .ok ((BitVec.ofBool (s.level p)).setWidth 32))

end Machine
end Sys2Proof
end

