-- ==== Sys2Proof/Machine/Keypad.lean ====
section
/-! DEFINITION. The operations of unit KP: initialisation, the poll machine, the handler's entry and its micro-steps, the consumer read (42_keypad_poll, 43_keypad_interrupt, 44_consumer_read). -/

namespace Sys2Proof
namespace Machine

/-! ## KP.INIT (42 section 1) -/

/-- `KP.INIT` binds the pins: rows Output/None, columns Input/Up (42 R140). -/
def bindPins (s : State) : State :=
  eachCol (fun p => configPin p .input .up) (eachRow (fun p => configPin p .output .noPull) s)

/-- `KP.INIT` resets the keypad's state (42 R140). -/
def resetScanState (s : State) : State :=
  { s with phase := .idle, cnt := 0, trig := 0, hstep := .h0, hkey := none }

/-- `KP.INIT` arms the column lines in the Interrupt variant and nothing in the Poll variant (42 R140). -/
def armColumns (s : State) : State :=
  match s.cfg.variant with
  | .poll      => s
  | .interrupt => eachCol (armLine .falling) s

/-- What a `KP.INIT` with a valid configuration does after `inited <- 1`, in the order of 42 R140. -/
def bringUp (s : State) : State :=
  let t := driveRows s.cfg.rowRest (bindPins s)
  let u := (ringInit (s.cfg.nRows * s.cfg.nCols) t).1
  { armColumns (resetScanState u) with active := true }

/-- `KP.INIT` (42 R140, R151). -/
def execKpInit (s : State) : Result State :=
  if s.inited then answer (s, .refused)
  else if s.cfg.valid then answerOk (bringUp { s with inited := true })
  else answer ({ s with inited := true, active := false }, .eConfig)

/-! ## KP.TICK (42 section 2) -/

/-- Phase `IDLE` (42 R144). -/
def tickIdle (k : Option Key) (s : State) : State :=
  match k with
  | some _ => { s with phase := .debounce, cnt := 0 }
  | none   => s

/-- Phase `DEBOUNCE` (42 R145): the counter is compared after the increment. -/
def tickDebounce (k : Option Key) (s : State) : Result State :=
  match k with
  | some key =>
    let t := { s with cnt := (s.cnt + 1) % 2 ^ s.cfg.cntW }
    if s.cfg.debounceThreshold ≤ t.cnt then
      Result.andThen (reportKey key t) fun u => .next { u with phase := .pressed }
    else .next t
  | none => .next { s with phase := .idle, cnt := 0 }

/-- Phase `PRESSED` (42 R146). -/
def tickPressed (k : Option Key) (s : State) : State :=
  match k with
  | some _ => s
  | none   => { s with phase := .idle }

/-- One tick of the phase machine on the result of the scan: exactly one phase rule is applied (42 R143). -/
def tickPhase (k : Option Key) (s : State) : Result State :=
  match s.phase with
  | .idle     => .next (tickIdle k s)
  | .debounce => tickDebounce k s
  | .pressed  => .next (tickPressed k s)

/-- `KP.TICK` (42 R143, R150). -/
def execKpTick (s : State) : Result State :=
  if s.cfg.variant != .poll then answer (s, .refused)
  else if !s.active then answer (s, .inert)
  else
    let r := scan s
    Result.andThen (tickPhase r.2 r.1) answerOk

/-! ## KP.IRQ (43 section 1) -/

/-- `KP.IRQ v`, micro-step `H0` (43 R160): no rule's outcome depends on `v`. The handler's other micro-steps are KDB's own later moves
(log entry 11); a call while a handler is in progress is refused (log entry 21). -/
def execKpIrq (_v : BitVec 4) (s : State) : Result State :=
  if s.cfg.variant != .interrupt then answer (s, .refused)
  else if !s.active then answer (s, .inert)
  else if s.inHandler then .refused .handlerInProgress
  else if s.pendingCols = 0 then answerOk { s with trig := 0 }
  else .next (enterHandler s)

/-- Micro-step `H1`: disable every column line (43 R161). -/
def stepH1 (s : State) : Result State :=
  .next { eachCol (enableLine false) s with hstep := .h2 }

/-- What ends micro-step `H2` (43 R162). -/
def endH2 (s : State) : Result State := .next { s with hstep := .h3 }

/-- Micro-step `H2`: `TM.DELAY(DEBOUNCE_DELAY_MS)` (43 R162). -/
def stepH2 (s : State) : Result State := startDelay .producer s.cfg.debounceDelayMs endH2 s

/-- Micro-step `H3`: one scan (43 R163). -/
def stepH3 (s : State) : Result State :=
  let r := scan s
  .next { r.1 with hkey := r.2, hstep := .h4 }

/-- Micro-step `H4`: report the key if one was found (43 R164). -/
def stepH4 (s : State) : Result State :=
  match s.hkey with
  | some k => Result.andThen (reportKey k s) fun t => .next { t with hstep := .h5 }
  | none   => .next { s with hstep := .h5 }

/-- Micro-step `H5`: clear the pending flag of every column line, unconditionally (43 R165). -/
def stepH5 (s : State) : Result State :=
  .next { eachCol clearLine s with hstep := .h6 }

/-- Micro-step `H6`: enable every column line and return (43 R166). -/
def stepH6 (s : State) : Result State := returnFromHandler (eachCol (enableLine true) s)

/-- The next micro-step of the handler in progress (43 R160 to R166). -/
def microStep (s : State) : Result State :=
  match s.hstep with
  | .h0 => .next s
  | .h1 => stepH1 s
  | .h2 => stepH2 s
  | .h3 => stepH3 s
  | .h4 => stepH4 s
  | .h5 => stepH5 s
  | .h6 => stepH6 s

/-- The producer context's delay is over: the handler goes on to `H3` (43 R162), or the `TM.DELAY` operation answers (46 R217). -/
def endDelay (s : State) : Result State :=
  let t := { s with delay := none }
  if s.inHandler then endH2 t else answerOk t

/-- The main loop's delay is over and its `TM.DELAY` answers (46 R217). -/
def endMainDelay (s : State) : Result State := answerOk { s with mainDelay := none }

/-! ## KP.RDKEY (44) -/

/-- `KP.RDKEY` (44 R180). -/
def execKpRdkey (s : State) : Result State :=
  if !s.active then answer (s, .noValue) else Result.andThen (ringRead s) answer

end Machine
end Sys2Proof
end

