-- ==== Sys2Proof/Machine/Lines.lean ====
section
/-! DEFINITION. The operations of unit IL (45_interrupt_line_controller section 2). -/

namespace Sys2Proof
namespace Machine

/-- `IL.ARMF pin` (45 R186). -/
def execIlArmf (p : PinId) (s : State) : Result State := answerOk (armLine .falling p s)

/-- `IL.ARMR pin` (45 R186). -/
def execIlArmr (p : PinId) (s : State) : Result State := answerOk (armLine .rising p s)

/-- `IL.DIS pin` (45 R187). -/
def execIlDis (p : PinId) (s : State) : Result State := answerOk (enableLine false p s)

/-- `IL.EN pin` (45 R188). -/
def execIlEn (p : PinId) (s : State) : Result State := answerOk (enableLine true p s)

/-- `IL.CLR pin` (45 R189). -/
def execIlClr (p : PinId) (s : State) : Result State := answerOk (clearLine p s)

end Machine
end Sys2Proof
end

