-- ==== Sys2Proof/Machine/RingBuffer.lean ====
section
/-! DEFINITION. The operations of unit RB (40_ring_buffer). -/

namespace Sys2Proof
namespace Machine

/-- `RB.INIT c` (40 R100). -/
def execRbInit (c : Byte) (s : State) : Result State := answer (ringInit c.toNat s)

/-- `RB.WR b` (40 R101). -/
def execRbWr (b : Byte) (s : State) : Result State := Result.andThen (ringWrite b s) answer

/-- `RB.RD` (40 R102). -/
def execRbRd (s : State) : Result State := Result.andThen (ringRead s) answer

/-- `RB.CNT` (40 R103). -/
def execRbCnt (s : State) : Result State := answer (s, .ok (BitVec.ofNat 32 s.ringCount))

/-- `RB.FLUSH` (40 R104). -/
def execRbFlush (s : State) : Result State := answerOk (ringFlush s)

end Machine
end Sys2Proof
end

