-- ==== Sys2Proof/Machine/Time.lean ====
section
/-! DEFINITION. The operations of unit TM (46_time_source). -/

namespace Sys2Proof
namespace Machine

/-- `TM.NOW` (46 R216): `ms` in `data[31:0]` (log entry 7). After a wrap of `ms` it answers the wrapped number of R215 (DESIGN CHOICE, log entry 26):
93 U16 lets no claim rest on an absolute value across a wrap, and such a run carries the mark `msWrap`. -/
def execTmNow (s : State) : Result State := answer (s, .ok (BitVec.ofNat 32 s.ms))

/-- `TM.DELAY m` (46 R217): `TM.DELAY 0` returns at once; otherwise the wait begins, and the response comes when it is over. -/
def execTmDelay (m : Byte) (s : State) : Result State := startDelay s.issuer m.toNat answerOk s

end Machine
end Sys2Proof
end

