-- ==== Sys2Proof/Machine/Dispatch.lean ====
section
/-! DEFINITION. exec: one arm for each operation of 30_encoding R84. -/

namespace Sys2Proof.Machine

def exec (i : Instr) (s : State) : Host.Outcome State Fault Refusal :=
  match i with
  | .rbInit c => Sys2Proof.Machine.execRbInit c s
  | .rbWr b => Sys2Proof.Machine.execRbWr b s
  | .rbRd => Sys2Proof.Machine.execRbRd s
  | .rbCnt => Sys2Proof.Machine.execRbCnt s
  | .rbFlush => Sys2Proof.Machine.execRbFlush s
  | .kpInit => Sys2Proof.Machine.execKpInit s
  | .kpTick => Sys2Proof.Machine.execKpTick s
  | .kpIrq v => Sys2Proof.Machine.execKpIrq v s
  | .kpRdkey => Sys2Proof.Machine.execKpRdkey s
  | .ilArmf p => Sys2Proof.Machine.execIlArmf p s
  | .ilArmr p => Sys2Proof.Machine.execIlArmr p s
  | .ilDis p => Sys2Proof.Machine.execIlDis p s
  | .ilEn p => Sys2Proof.Machine.execIlEn p s
  | .ilClr p => Sys2Proof.Machine.execIlClr p s
  | .ioCfg p d q => Sys2Proof.Machine.execIoCfg p d q s
  | .ioSet p => Sys2Proof.Machine.execIoSet p s
  | .ioRst p => Sys2Proof.Machine.execIoRst p s
  | .ioRd p => Sys2Proof.Machine.execIoRd p s
  | .tmNow => Sys2Proof.Machine.execTmNow s
  | .tmDelay m => Sys2Proof.Machine.execTmDelay m s

end Sys2Proof.Machine
end

