-- ==== Sys2Proof/Machine/Port.lean ====
section
/-! DEFINITION. The command port and the moves of the agents: fetching a ready word, running it, KDB's own moves, the environment's steps, and the platform's arbiter (20_memory R68, R69, 30_encoding R89, 45 section 5, 70 R273). -/

namespace Sys2Proof
namespace Machine

/-! ## The port -/

/-- The next ready word and the state without it: a ready producer word goes before a ready consumer word (20_memory R69), and the main loop
takes no other step while its own `TM.DELAY` runs (46 R217). -/
def State.fetch (s : State) : Option (CmdWord × State) :=
  match s.producer, s.consumer, s.mainDelay with
  | w :: ws, _, _ => some (w, { s with producer := ws, issuer := .producer })
  | [], w :: ws, none => some (w, { s with consumer := ws, issuer := .consumer })
  | [], _ :: _, some _ => none
  | [], [], _ => none

/-- Run a command word: its operation, or the answer `E_ILLEGAL` and no change for a word that no row selects (30_encoding R85). -/
def runWord (w : CmdWord) (s : State) : Result State :=
  match decode w with
  | some i => exec i s
  | none   => answer (s, .eIllegal)

/-- KDB's move when no word can be taken: it looks at the clock for the main loop's delay (46 R217), or waits for operations (70 R255). -/
def idleMove (s : State) : Result State :=
  match s.mainDelay with
  | some d => if s.delayOver d then endMainDelay s else .next s
  | none   => .next s

/-- KDB's own move. A producer operation in progress goes on: its delay looks at the clock, its handler takes the next micro-step. With none in
progress KDB runs the next ready word, a producer's even while the main loop waits in a `TM.DELAY` (20_memory R69, 43 R167, 45 R194, R196,
46 R217, R218; log entries 10, 11 and 18). -/
def kdbMove (s : State) : Result State :=
  match s.delay with
  | some d => if s.delayOver d then endDelay s else .next s
  | none   =>
    if s.inHandler then microStep s
    else
      match s.fetch with
      | some (w, t) => runWord w t
      | none        => idleMove s

/-! ## The environment -/

/-- The order of keys: by row, then by column. -/
def keyLt (a b : Key) : Bool := decide (a.1 < b.1) || (a.1 == b.1 && decide (a.2 < b.2))

/-- Add a key to a rising list without repeats. -/
def insertKey (k : Key) : List Key → List Key
  | [] => [k]
  | a :: l => if keyLt k a then k :: a :: l else if k = a then a :: l else a :: insertKey k l

/-- The set of closed keys changes; the edge latch runs after the change (45 R190). Three or more closed keys mark the run (93 U17). -/
def setPressed (l : List Key) (s : State) : State :=
  edgeLatch { s with
    pressed := l
    marks := { s.marks with ghosting := s.marks.ghosting || decide (3 ≤ l.length) } }

/-- `ms <- (ms + d) % 2^MS_W` (46 R215); a wrap marks the run (93 U16, log entry 26). -/
def advanceClock (d : Nat) (s : State) : State :=
  { s with
    ms := (s.ms + d) % 2 ^ s.cfg.msW
    marks := { s.marks with msWrap := s.marks.msWrap || decide (2 ^ s.cfg.msW ≤ s.ms + d) } }

/-- One step of the environment (30_encoding R89, 46 R215). A key the matrix does not have cannot close (10_state R38, log entry 17). -/
def envStep (e : EnvStep) (s : State) : State :=
  match e with
  | .press k   => if s.cfg.hasKey k then setPressed (insertKey k s.pressed) s else s
  | .release k => setPressed (s.pressed.filter (· != k)) s
  | .ms d      => advanceClock d s

/-! ## The platform -/

/-- A context makes a word ready on the port (60_exceptions R238). -/
def makeReady (c : Context) (w : CmdWord) (s : State) : State :=
  match c with
  | .producer => { s with producer := s.producer ++ [w] }
  | .consumer => { s with consumer := s.consumer ++ [w] }

/-- The arbiter serves one of the requesting vectors: it brings `KP.IRQ v` to the port; which vector is open (45 R195), a free draw. With no
request it does nothing. The handler starts when KDB is free (45 R194, log entry 19). -/
def serve (s : State) : State :=
  match s.requesting[Config.vectorDraw s.draws % s.requesting.length]? with
  | some v => makeReady .producer (encode (.kpIrq (BitVec.ofNat 4 v))) { s with draws := s.draws + 1 }
  | none   => s

/-- One move of one agent (20_memory R68). -/
def move (m : Move) (s : State) : Result State :=
  match m with
  | .kdb       => kdbMove s
  | .env e     => .next (envStep e s)
  | .ready c w => .next (makeReady c w s)
  | .serve     => .next (serve s)

/-- The next move of the schedule; with no move left, KDB moves. -/
def advance (s : State) : Result State :=
  match s.sched with
  | []      => kdbMove s
  | m :: ms => move m { s with sched := ms }

/-- Put a word where KDB fetches its next operation and leave KDB free to fetch it as its next step (log entry 3). -/
def placeWord (w : CmdWord) (s : State) : State :=
  { s with
    producer := w :: s.producer
    delay    := none
    hstep    := .h0
    sched    := match s.sched with
                | [] => []
                | ms => .kdb :: ms }

end Machine
end Sys2Proof
end

