-- ==== Sys2Proof/Machine/Step.lean ====
section
/-! DEFINITION. One step of the machine, and where its next instruction is fetched. -/

namespace Sys2Proof
namespace Machine

/-- One step: one transition of the total order of 20_memory R68. -/
def step (s : State) : Host.Outcome State Fault Refusal := advance s

/-- The state with a command word ready where `step` fetches its next operation (log entry 3). -/
def State.withFetchWord (s : State) (nbits w : Nat) : State :=
  placeWord (BitVec.ofNat 16 (w % 2 ^ nbits)) s

end Machine
end Sys2Proof
end

