-- ==== Sys2Proof/Safety.lean ====
section
/-! DEFINITION. What counts as a safe run, in the terms the statements use: the ring as a queue, the least pressed key, the invariants of every run, the keypad's own invariants under exclusive ownership, and what a step leaves alone. -/

namespace Sys2Proof
namespace Machine

/-! ## Illegal words -/

/-- The illegal words as 30_encoding R85 lists them, unit by unit. -/
def illegalWord (w : CmdWord) : Prop :=
  (unitField w).toNat = 0 ∨ 6 ≤ (unitField w).toNat ∨
  ((unitField w).toNat = 1 ∧
    (5 ≤ (fnField w).toNat ∨ (2 ≤ (fnField w).toNat ∧ (fnField w).toNat ≤ 4 ∧ immField w ≠ 0))) ∨
  ((unitField w).toNat = 2 ∧
    (4 ≤ (fnField w).toNat ∨
     (((fnField w).toNat = 0 ∨ (fnField w).toNat = 1 ∨ (fnField w).toNat = 3) ∧ immField w ≠ 0) ∨
     ((fnField w).toNat = 2 ∧ (hiField w ≠ 0 ∨ 7 ≤ (loField w).toNat)))) ∨
  ((unitField w).toNat = 3 ∧ ((fnField w).toNat = 0 ∨ (fnField w).toNat = 3 ∨ 7 ≤ (fnField w).toNat)) ∨
  ((unitField w).toNat = 4 ∧
    (((fnField w).toNat ≤ 7 ∧ w.extractLsb' 8 2 = 3) ∨ 11 ≤ (fnField w).toNat)) ∨
  ((unitField w).toNat = 5 ∧ (2 ≤ (fnField w).toNat ∨ ((fnField w).toNat = 0 ∧ immField w ≠ 0)))

/-! ## The ring as a queue (10_state R29) -/

/-- The stored bytes, oldest first: `buf[tail], buf[(tail+1) % rb_cap], ...` (10_state R29). -/
def State.contents (s : State) : List Byte :=
  (List.range s.ringCount).filterMap fun i => s.buf.read ((s.tail + i) % s.rbCap)

/-- The invariants of a valid ring (10_state R29): the indices are below `rb_cap`, which is at most `RB_SLOTS`, and every stored slot
holds a byte. -/
structure RingOk (s : State) : Prop where
  cap   : s.rbValid = true → 1 ≤ s.rbCap ∧ s.rbCap ≤ s.cfg.rbSlots
  index : s.rbValid = true → s.head < s.rbCap ∧ s.tail < s.rbCap
  bytes : s.rbValid = true → ∀ i, i < s.ringCount → (s.buf.read ((s.tail + i) % s.rbCap)).isSome = true

/-- A queue of at most `room` bytes that drops its oldest ones (40 R101, R107). -/
def lastBytes (room : Nat) (l : List Byte) : List Byte := l.drop (l.length - room)

/-! ## Keys -/

/-- The keys of the matrix in row-major order (41 R125). -/
def Config.keys (c : Config) : List Key :=
  (List.range c.nRows).flatMap fun r => (List.range c.nCols).map fun k => (r, k)

/-- The least pressed key in the order (row, then column) (41 R125, R127). -/
def State.firstPressed (s : State) : Option Key := s.cfg.keys.find? fun k => s.pressed.contains k

/-- The closed keys are keys of the matrix, in rising order without repeats (10_state R38). -/
def KeysOk (c : Config) (l : List Key) : Prop :=
  l.Pairwise (fun a b => keyLt a b = true) ∧ ∀ k ∈ l, c.hasKey k = true

/-! ## Runs of one operation, for the rules that speak of several -/

/-- Write the bytes of a list, one `RB.WR` after another (40 R107). -/
def writeAll : List Byte → State → Result State
  | [], s => .next s
  | b :: bs, s => Result.andThen (exec (.rbWr b) s) (writeAll bs)

/-- A write or a read of the ring (40 R106). -/
inductive RingOp where
  | write (b : Byte)
  | read
deriving DecidableEq, Repr

/-- The bytes written, in write order. -/
def written : List RingOp → List Byte
  | [] => []
  | .write b :: ops => b :: written ops
  | .read :: ops => written ops

/-- The byte an `OK` response carries in `data[7:0]` (30_encoding R83). -/
def Resp.bytes : Option Resp → List Byte
  | some (.ok d) => [d.setWidth 8]
  | _ => []

/-- Run writes and reads; the final state and the bytes the reads returned, in order, or none if a write finds the ring full
(40 R106: "provided no write found the ring full"). -/
def ringRun : List RingOp → State → Option (State × List Byte)
  | [], s => some (s, [])
  | .write b :: ops, s =>
    if s.ringFull then none
    else
      match exec (.rbWr b) s with
      | .next t => ringRun ops t
      | _ => none
  | .read :: ops, s =>
    match exec .rbRd s with
    | .next t => (ringRun ops t).map fun r => (r.1, Resp.bytes t.resp ++ r.2)
    | _ => none

/-- One tick with the given keys closed (42 R143). -/
def tickWith (l : List Key) (s : State) : Result State := exec .kpTick (setPressed l s)

/-- Successive ticks, each with its own set of closed keys (42 R147, R148, R149). -/
def tickRun : List (List Key) → State → Result State
  | [], s => .next s
  | l :: ls, s => Result.andThen (tickWith l s) (tickRun ls)

/-- The milliseconds that the moves of a schedule add to the clock (46 R215). -/
def msAdded : List Move → Nat
  | [] => 0
  | .env (.ms d) :: l => d + msAdded l
  | _ :: l => msAdded l

/-- How many moves of a schedule are KDB's own. -/
def kdbCount (l : List Move) : Nat := l.countP (· == .kdb)

/-- The move closes or opens a key (30_encoding R89). -/
def Move.changesKeys : Move → Bool
  | .env (.press _) | .env (.release _) => true
  | .env (.ms _) | .kdb | .ready _ _ | .serve => false

/-- The states `CoreScan()` passes through, one after each change of a row (41 R125, R126). -/
def scanTrace : List Nat → State → List State
  | [], _ => []
  | r :: rs, s =>
    let t := driveRow false r s
    let u := driveRow true r t
    t :: u :: (if t.sample.isSome then [] else scanTrace rs u)

/-! ## The invariant of every run -/

/-- What holds of every state a run from reset reaches (10_state R22 to R31, 43 R169). -/
structure RunOk (s : State) : Prop where
  /-- The ring's memory keeps its canonical form. -/
  memory : s.buf.wf = true
  /-- There is one level for each row (10_state R30). -/
  rows   : s.rowOut.length = s.cfg.nRows
  /-- `KEYMAP` is an N_ROWS by N_COLS table (00_scope R8). -/
  keymap : s.cfg.keymap.length = s.cfg.nRows * s.cfg.nCols
  /-- The ring invariants (10_state R29). -/
  ring   : RingOk s
  /-- Only keys of the matrix close (10_state R38). -/
  keys   : KeysOk s.cfg s.pressed
  /-- The keypad is active only after a `KP.INIT` that found the configuration valid (10_state R22). -/
  active : s.active = true → s.inited = true ∧ s.cfg.valid = true
  /-- A scanned key is a key of the matrix (10_state R26). -/
  hkey   : ∀ k, s.hkey = some k → s.cfg.hasKey k = true
  /-- `cnt` can hold the threshold: `CNT_W >= 5` and `DEBOUNCE_THRESHOLD < 2^CNT_W` (00_scope R8, 10_state R24). -/
  width  : 5 ≤ s.cfg.cntW ∧ s.cfg.debounceThreshold < 2 ^ s.cfg.cntW
  /-- `ms` and the times that delays took are numbers of `MS_W` bits (10_state R37). -/
  clock  : s.ms < 2 ^ s.cfg.msW ∧ (∀ d, s.delay = some d → d.t0 < 2 ^ s.cfg.msW) ∧
    ∀ d, s.mainDelay = some d → d.t0 < 2 ^ s.cfg.msW
  /-- `cnt` stays below the threshold while it counts (10_state R24). -/
  counting : s.phase = .debounce → s.cnt < max 1 s.cfg.debounceThreshold
  /-- `cnt` never exceeds the threshold (10_state R24). -/
  count  : s.cnt ≤ max 1 s.cfg.debounceThreshold
  /-- The Poll variant has no handler (10_state R26). -/
  poll   : s.cfg.variant = .poll → s.hstep = .h0 ∧ s.hkey = none ∧ s.trig = 0
  /-- The Interrupt variant has no multi-tick state (43 R169, 10_state R23). -/
  irq    : s.cfg.variant = .interrupt → s.phase = .idle ∧ s.cnt = 0
  /-- `hkey` is carried from `H3` to `H6` only (10_state R26). -/
  carried : s.hkey ≠ none → s.hstep = .h4 ∨ s.hstep = .h5 ∨ s.hstep = .h6
  /-- A producer's delay runs in `H2` or as an operation of its own (46 R217). -/
  waiting : s.delay ≠ none → s.hstep = .h0 ∨ s.hstep = .h2

/-- `il_last` of every armed line that watches a row or column pin is the level of that pin now (10_state R34). -/
def Tracks (s : State) : Prop :=
  ∀ n : Fin 16, (s.line n).edge ≠ .noEdge →
    s.cfg.isMatrix ⟨(s.line n).port, BitVec.ofFin n⟩ = true →
      (s.line n).last = s.level ⟨(s.line n).port, BitVec.ofFin n⟩

/-! ## Exclusive ownership (20_memory R74, 70 R264) -/

/-- The step is KDB's own move. -/
def State.kdbMoves (s : State) : Bool :=
  match s.sched with
  | [] => true
  | .kdb :: _ => true
  | _ :: _ => false

/-- The operation this step hands to `exec`, if it hands one. -/
def State.issuing (s : State) : Option Instr :=
  if s.kdbMoves && s.delay.isNone && !s.inHandler then
    match s.fetch with
    | some (w, _) => decode w
    | none => none
  else none

/-- The operation is one that the platform may issue after `KP.INIT`: no `IO.CFG`, `IO.SET` or `IO.RST` on a row or column pin, no `IL.*` on a column line, and
no `RB.INIT`, `RB.WR`, `RB.RD` or `RB.FLUSH` (20_memory R74, 70 R264). -/
def Config.permits (c : Config) : Instr → Bool
  | .rbInit _ | .rbWr _ | .rbRd | .rbFlush => false
  | .rbCnt | .kpInit | .kpTick | .kpIrq _ | .kpRdkey => true
  | .ilArmf p | .ilArmr p | .ilDis p | .ilEn p | .ilClr p => !c.isColLine p.line
  | .ioCfg p _ _ | .ioSet p | .ioRst p => !c.isMatrix p
  | .ioRd _ | .tmNow | .tmDelay _ => true

/-- The platform respects the keypad's ownership in this step (93 U11). -/
def Owned (s : State) : Prop :=
  s.active = true → ∀ i, s.issuing = some i → s.cfg.permits i = true

/-- What holds of an active keypad between its transitions while the platform respects its ownership (10_state R30, 43 R168, 70 R257). -/
structure KeypadOk (s : State) : Prop where
  /-- Outside a scan every row is at rest (10_state R30). -/
  rest  : s.active = true → s.rowOut = List.replicate s.cfg.nRows s.cfg.rowRest
  /-- The ring is the keypad's: valid, of capacity `N_ROWS * N_COLS` (10_state R27). -/
  ring  : s.active = true → s.rbValid = true ∧ s.rbCap = s.cfg.nRows * s.cfg.nCols
  /-- Every row is Output/None and every column Input/Up (10_state R31). -/
  bound : s.active = true →
    (∀ p ∈ s.cfg.rowPin, s.pin p.index = ⟨.output, .noPull⟩) ∧
    (∀ p ∈ s.cfg.colPin, s.pin p.index = ⟨.input, .up⟩)
  /-- Every column line watches its column pin for the falling edge; it is enabled exactly when no handler stands between `H1` and
  `H6` (43 R168). -/
  armed : s.active = true → s.cfg.variant = .interrupt → ∀ p ∈ s.cfg.colPin,
    (s.line p.line).port = p.port ∧ (s.line p.line).edge = .falling ∧
    ((s.line p.line).en = true ↔ s.hstep = .h0 ∨ s.hstep = .h1)

/-! ## What a step leaves alone -/

/-- The keypad control registers are unchanged. -/
structure KeypadSame (s t : State) : Prop where
  active : t.active = s.active
  inited : t.inited = s.inited
  phase  : t.phase = s.phase
  cnt    : t.cnt = s.cnt
  trig   : t.trig = s.trig
  hstep  : t.hstep = s.hstep
  hkey   : t.hkey = s.hkey

/-- The ring's registers are unchanged. -/
structure RingSame (s t : State) : Prop where
  rbValid : t.rbValid = s.rbValid
  rbCap   : t.rbCap = s.rbCap
  head    : t.head = s.head
  tail    : t.tail = s.tail

/-- Every byte of every space reads as before. -/
def BytesSame (s t : State) : Prop := ∀ a, t.memRead a = s.memRead a

/-- Every row's level and every pin's registers are unchanged. -/
structure PinsSame (s t : State) : Prop where
  rowOut : t.rowOut = s.rowOut
  pins   : ∀ i : Fin 256, t.pin i = s.pin i

/-- The registers of every interrupt line are unchanged. -/
def LinesSame (s t : State) : Prop := ∀ n : Fin 16, t.line n = s.line n

/-- The lines keep their pin, edge and enable, and a pending flag stays set: the edge latch may only set flags and follow levels
(45 R190). -/
structure LinesKept (s t : State) : Prop where
  port : ∀ n : Fin 16, (t.line n).port = (s.line n).port
  edge : ∀ n : Fin 16, (t.line n).edge = (s.line n).edge
  en   : ∀ n : Fin 16, (t.line n).en = (s.line n).en
  pend : ∀ n : Fin 16, (s.line n).pend = true → (t.line n).pend = true

/-- What no operation of KDB writes: the configuration, the clock, the keys, the port's other words, the moves to come, and whose operation
runs. -/
structure OutsideSame (s t : State) : Prop where
  cfg      : t.cfg = s.cfg
  ms       : t.ms = s.ms
  pressed  : t.pressed = s.pressed
  producer : t.producer = s.producer
  consumer : t.consumer = s.consumer
  sched    : t.sched = s.sched
  issuer   : t.issuer = s.issuer

/-- The delays in progress are unchanged. -/
structure DelaysSame (s t : State) : Prop where
  delay     : t.delay = s.delay
  mainDelay : t.mainDelay = s.mainDelay

/-- An operation has answered `r`: the response port holds it, and no delay has begun or ended. -/
structure Answered (s t : State) (r : Resp) : Prop where
  resp   : t.resp = some r
  delays : DelaysSame s t

/-- Nothing but the answer has changed. -/
structure OnlyAnswered (s t : State) (r : Resp) : Prop where
  answered : Answered s t r
  keypad   : KeypadSame s t
  ring     : RingSame s t
  bytes    : BytesSame s t
  pins     : PinsSame s t
  lines    : LinesSame s t
  outside  : OutsideSame s t

end Machine
end Sys2Proof
end

