-- ==== Sys2Proof/Certificates/Slice0/Obligations.lean ====
section
/-! DEFINITION. The statements about KDB, from the numbered rules of spec/, for the provers. -/

open Sys2Proof
open Sys2Proof.Machine

/-! ## Encoding (30_encoding) -/

/-- Decoding the word of a well-formed instruction gives it back (R80, R82, R84). -/
def Obligations.DecodeEncodeRoundTrip : Prop :=
  ∀ i : Instr, i.wf = true → decode (encode i) = some i

/-- R84: a word is an operation exactly when a row's mask and match select it and its operand constraint holds, its operands are those of
the row's encoding, and no two rows overlap. -/
def Obligations.DecodeFollowsOpcodeTable : Prop :=
  ∀ w : CmdWord,
    (∀ i, decode w = some i → encode i = w ∧ i.wf = true ∧
      ∃ r ∈ opRows, r.mnemonic = i.mnemonic ∧ r.selects w = true) ∧
    (∀ r ∈ opRows, r.selects w = true → ∃ i, decode w = some i ∧ i.mnemonic = r.mnemonic) ∧
    (∀ r ∈ opRows, ∀ q ∈ opRows, w &&& r.mask = r.matchBits → w &&& q.mask = q.matchBits → r.mnemonic = q.mnemonic)

/-- R85: the illegal words are those R85 lists; the port answers one with `E_ILLEGAL` and nothing else changes. -/
def Obligations.IllegalWordsAnswered : Prop :=
  ∀ w : CmdWord,
    (decode w = none ↔ illegalWord w) ∧
    ∀ s : State, illegalWord w →
      ∃ t, runWord w s = .next t ∧ OnlyAnswered s t .eIllegal

/-- Words of 95_test_vectors V-EN1 decode to the operations they stand for; a sanity statement. -/
def Obligations.SampleWordsDecode : Prop :=
  decode 0x1138 = some (.rbWr 0x38) ∧ decode 0x1400 = some .rbFlush ∧
  decode 0x2206 = some (.kpIrq 6) ∧ decode 0x2300 = some .kpRdkey ∧
  decode 0x3119 = some (.ilArmf ⟨1, 9⟩) ∧ decode 0x34FF = some (.ilDis ⟨15, 15⟩) ∧
  decode 0x4615 = some (.ioCfg ⟨1, 5⟩ .output .down) ∧ decode 0x4A15 = some (.ioRd ⟨1, 5⟩) ∧
  decode 0x51FF = some (.tmDelay 255) ∧ decode 0x0000 = none ∧ decode 0x2207 = none ∧ decode 0x4B15 = none

/-! ## The command port and the step (20_memory R68, R69, 45 R194) -/

/-- When KDB moves and no producer operation is in progress, the step runs the first ready word on the state with the word taken off the port and the
move off the schedule: the operation it decodes to, or the port's answer to a word that decodes to none. A ready producer word goes first, even while
the main loop waits in a `TM.DELAY`; a consumer word waits for that delay (R69, R196, R217, R218). A context makes a word ready at the end of its queue.
The port and the schedule are the model's form (log entry 3). -/
def Obligations.StepRunsDecodedInstruction : Prop :=
  (∀ (s : State) (w : CmdWord), s.kdbMoves = true → s.delay = none → s.hstep = .h0 →
    (∀ ws, s.producer = w :: ws →
      let u : State := { s with producer := ws, issuer := .producer, sched := s.sched.tail }
      step s = runWord w u ∧ ∀ i, decode w = some i → step s = exec i u) ∧
    (∀ ws, s.producer = [] → s.mainDelay = none → s.consumer = w :: ws →
      let u : State := { s with consumer := ws, issuer := .consumer, sched := s.sched.tail }
      step s = runWord w u ∧ ∀ i, decode w = some i → step s = exec i u)) ∧
  (∀ (s : State) (w : CmdWord) (ms : List Move),
    (s.sched = .ready .producer w :: ms → step s = .next { s with producer := s.producer ++ [w], sched := ms }) ∧
    (s.sched = .ready .consumer w :: ms → step s = .next { s with consumer := s.consumer ++ [w], sched := ms }))

/-- When KDB moves with a handler in progress and no delay running, the step is the handler's next micro-step (R167). -/
def Obligations.StepTakesMicroStep : Prop :=
  ∀ s : State, s.kdbMoves = true → s.delay = none → s.hstep ≠ .h0 →
    step s = microStep { s with sched := s.sched.tail }

/-- The host's way of placing a word makes the next step run exactly the instruction the word encodes, as the producer context's (log entry 3). -/
def Obligations.PlacedWordRunsNext : Prop :=
  ∀ (s : State) (i : Instr), i.wf = true →
    step (s.withFetchWord 16 (encode i).toNat) = exec i { s with delay := none, hstep := .h0, issuer := .producer }

/-- While a producer operation is in progress, a handler or its `TM.DELAY`, no ready word is taken from the port: no consumer step and no second producer
operation starts (R69, R194). While the main loop's `TM.DELAY` is in progress no further consumer word is taken (R217). -/
def Obligations.BusyPortTakesNoWord : Prop :=
  ∀ s t : State, step s = .next t →
    (s.hstep ≠ .h0 ∨ s.delay ≠ none → (∃ l, t.producer = s.producer ++ l) ∧ (∃ l, t.consumer = s.consumer ++ l)) ∧
    (s.mainDelay ≠ none → ∃ l, t.consumer = s.consumer ++ l)

/-- The configuration is written by no step, and only the environment's steps change `ms` and the closed keys (R21, R37, R38, R215). -/
def Obligations.OnlyEnvironmentMovesTimeAndKeys : Prop :=
  ∀ s t : State, step s = .next t →
    t.cfg = s.cfg ∧ ((∀ e, s.sched.head? ≠ some (.env e)) → t.ms = s.ms ∧ t.pressed = s.pressed)

/-! ## Reset and initialisation (10_state, 42, 70) -/

/-- What R43 gives a value at power-on, for every configuration; the values R43 calls unspecified are not stated here. -/
def Obligations.ResetRegisters : Prop :=
  ∀ c : Config,
    let s := State.resetWith c
    s.active = false ∧ s.inited = false ∧ s.phase = .idle ∧ s.cnt = 0 ∧ s.trig = 0 ∧ s.hstep = .h0 ∧
    s.hkey = none ∧ s.rbValid = false ∧ s.head = 0 ∧ s.tail = 0 ∧
    (∀ n : Fin 16, (s.line n).edge = .noEdge ∧ (s.line n).en = false ∧ (s.line n).pend = false) ∧
    (∀ v, s.vreq v = false) ∧ s.contents = []

/-- The state after reset meets the invariants that the steps keep, for every configuration whose key map has the matrix's size (R8) and whose counter can
hold the threshold (R24), in both variants; and so does the model's own `State.reset` (log entry 2). -/
def Obligations.ResetMeetsInvariants : Prop :=
  (∀ c : Config, c.keymap.length = c.nRows * c.nCols → 5 ≤ c.cntW → c.debounceThreshold < 2 ^ c.cntW →
    RunOk (State.resetWith c) ∧ Tracks (State.resetWith c) ∧ KeypadOk (State.resetWith c)) ∧
  RunOk State.reset ∧ Tracks State.reset ∧ KeypadOk State.reset

/-- R257: what a `KP.INIT` with a valid configuration leaves, from every state in which none was issued before; with the answer, the registers
R140 resets, the registers of the pins, and what is left alone. -/
def Obligations.BootLeavesKeypadReady : Prop :=
  ∀ s : State, s.inited = false → s.cfg.valid = true → s.rowOut.length = s.cfg.nRows →
    ∃ t, exec .kpInit s = .next t ∧ Answered s t (.ok 0) ∧
      t.active = true ∧ t.inited = true ∧ t.phase = .idle ∧ t.cnt = 0 ∧ t.trig = 0 ∧ t.hstep = .h0 ∧ t.hkey = none ∧
      t.rbValid = true ∧ t.rbCap = s.cfg.nRows * s.cfg.nCols ∧ t.head = 0 ∧ t.tail = 0 ∧ t.contents = [] ∧
      t.rowOut = List.replicate s.cfg.nRows s.cfg.rowRest ∧
      (∀ p ∈ s.cfg.rowPin, t.pin p.index = ⟨.output, .noPull⟩) ∧
      (∀ p ∈ s.cfg.colPin, t.pin p.index = ⟨.input, .up⟩) ∧
      (∀ p : PinId, p ∉ s.cfg.rowPin → p ∉ s.cfg.colPin → t.pin p.index = s.pin p.index) ∧
      (s.cfg.variant = .interrupt → ∀ p ∈ s.cfg.colPin,
        t.line p.line = ⟨p.port, .falling, true, false, t.level p⟩) ∧
      (s.cfg.variant = .poll → LinesKept s t) ∧
      (∀ n : Fin 16, s.cfg.isColLine n = false → (t.line n).port = (s.line n).port ∧
        (t.line n).edge = (s.line n).edge ∧ (t.line n).en = (s.line n).en) ∧
      BytesSame s t ∧ OutsideSame s t

/-- R151: a second `KP.INIT` answers `REFUSED` and changes no state; the run is marked. -/
def Obligations.SecondInitRefused : Prop :=
  ∀ s : State, s.inited = true →
    ∃ t, exec .kpInit s = .next t ∧ OnlyAnswered s t .refused ∧ t.marks.refused = true

/-- `KP.INIT` with an invalid configuration answers `E_CONFIG`, sets `inited`, leaves `active` 0 and does nothing else (R142, R225). -/
def Obligations.InvalidConfigurationRefused : Prop :=
  ∀ s : State, s.inited = false → s.cfg.valid = false →
    ∃ t, exec .kpInit s = .next t ∧ Answered s t .eConfig ∧ t.inited = true ∧ t.active = false ∧
      t.phase = s.phase ∧ t.cnt = s.cnt ∧ t.trig = s.trig ∧ t.hstep = s.hstep ∧ t.hkey = s.hkey ∧
      RingSame s t ∧ BytesSame s t ∧ PinsSame s t ∧ LinesSame s t ∧ OutsideSame s t

/-- A keypad that was refused at `KP.INIT` stays refused whatever step is taken, and `inited` never returns to 0 (R22, R45, R142). -/
def Obligations.RefusedKeypadStaysInert : Prop :=
  ∀ s t : State, s.inited = true → step s = .next t →
    t.inited = true ∧ (s.active = false → t.active = false) ∧ (s.active = true → t.active = true)

/-! ## Ring buffer (40_ring_buffer) -/

/-- R100: `RB.INIT c` binds a ring of capacity `c`, or fails and invalidates the ring, leaving `rb_cap`, `head` and `tail`. -/
def Obligations.RingInitBindsOrFails : Prop :=
  ∀ (c : Byte) (s : State), ∃ t, exec (.rbInit c) s = .next t ∧
    (c = 0 ∨ s.cfg.rbSlots < c.toNat →
      t.rbValid = false ∧ t.rbCap = s.rbCap ∧ t.head = s.head ∧ t.tail = s.tail ∧ Answered s t .eStorage) ∧
    (¬ (c = 0 ∨ s.cfg.rbSlots < c.toNat) →
      t.rbValid = true ∧ t.rbCap = c.toNat ∧ t.head = 0 ∧ t.tail = 0 ∧ Answered s t (.ok 0)) ∧
    KeypadSame s t ∧ BytesSame s t ∧ PinsSame s t ∧ LinesSame s t ∧ OutsideSame s t

/-- R101: `RB.WR b` stores at `head`, drops the oldest byte of a full ring, advances `head`, and is rejected by an invalid ring. -/
def Obligations.RingWriteStoresByte : Prop :=
  ∀ (b : Byte) (s : State),
    (s.rbValid = false → ∃ t, exec (.rbWr b) s = .next t ∧ OnlyAnswered s t .rejected) ∧
    (s.rbValid = true → s.head < s.cfg.rbSlots → ∃ t, exec (.rbWr b) s = .next t ∧ Answered s t (.ok 0) ∧
      t.head = (s.head + 1) % s.rbCap ∧
      t.tail = (if (s.head + 1) % s.rbCap = s.tail then (s.tail + 1) % s.rbCap else s.tail) ∧
      t.rbValid = s.rbValid ∧ t.rbCap = s.rbCap ∧
      t.memRead (.ring s.head) = some b ∧ (∀ a, a ≠ .ring s.head → t.memRead a = s.memRead a) ∧
      KeypadSame s t ∧ PinsSame s t ∧ LinesSame s t ∧ OutsideSame s t)

/-- R102: `RB.RD` answers the byte at `tail` and advances it, or answers `NOVALUE` and writes no register. -/
def Obligations.RingReadTakesOldest : Prop :=
  ∀ s : State,
    (s.rbValid = false ∨ s.head = s.tail → ∃ t, exec .rbRd s = .next t ∧ OnlyAnswered s t .noValue) ∧
    (s.rbValid = true → s.head ≠ s.tail → s.tail < s.cfg.rbSlots → ∀ v, s.memRead (.ring s.tail) = some v →
      ∃ t, exec .rbRd s = .next t ∧ Answered s t (.ok (v.setWidth 32)) ∧
        t.tail = (s.tail + 1) % s.rbCap ∧ t.head = s.head ∧ t.rbValid = s.rbValid ∧ t.rbCap = s.rbCap ∧
        KeypadSame s t ∧ BytesSame s t ∧ PinsSame s t ∧ LinesSame s t ∧ OutsideSame s t)

/-- R103: `RB.CNT` answers `(head - tail + C) % C`, and 0 for an invalid ring; no state is written. -/
def Obligations.RingCountAnswersFormula : Prop :=
  ∀ s : State, ∃ t n, exec .rbCnt s = .next t ∧ OnlyAnswered s t (.ok (BitVec.ofNat 32 n)) ∧
    (s.rbValid = false → n = 0) ∧
    (RingOk s → s.rbValid = true →
      n < s.rbCap ∧ ((n : Int) = ((s.head : Int) - s.tail + s.rbCap) % s.rbCap))

/-- R104: `RB.FLUSH` sets `head` and `tail` to 0; `rb_valid`, `rb_cap` and everything else are unchanged. -/
def Obligations.RingFlushEmpties : Prop :=
  ∀ s : State, ∃ t, exec .rbFlush s = .next t ∧ Answered s t (.ok 0) ∧
    t.head = 0 ∧ t.tail = 0 ∧ t.rbValid = s.rbValid ∧ t.rbCap = s.rbCap ∧ t.ringCount = 0 ∧
    KeypadSame s t ∧ BytesSame s t ∧ PinsSame s t ∧ LinesSame s t ∧ OutsideSame s t

/-- The model's stops by name: a ring index outside the storage, a slot never written (R62, R43; log entry 5), and a `KP.IRQ` handed to exec while a
handler is in progress (R160 "requires hstep = 0"; log entry 21). No run from reset meets them. -/
def Obligations.StopsByName : Prop :=
  ∀ s : State,
    (s.rbValid = true → ∀ b, s.cfg.rbSlots ≤ s.head → exec (.rbWr b) s = .fault (.noSuchSlot s.head)) ∧
    (s.rbValid = true → s.head ≠ s.tail → s.cfg.rbSlots ≤ s.tail → exec .rbRd s = .fault (.noSuchSlot s.tail)) ∧
    (s.rbValid = true → s.head ≠ s.tail → s.tail < s.cfg.rbSlots → s.memRead (.ring s.tail) = none →
      exec .rbRd s = .fault (.unwrittenSlot s.tail)) ∧
    (∀ v, s.cfg.variant = .interrupt → s.active = true → s.hstep ≠ .h0 →
      exec (.kpIrq v) s = .refused .handlerInProgress)

/-- Empty, full and count of a ring that meets its invariants: the count lies in `0..C-1`, is 0 exactly when `head = tail`, is `C - 1` exactly when
`(head + 1) % C = tail`, and is the number of stored bytes (R29, R105). -/
def Obligations.RingCountBounds : Prop :=
  ∀ s : State, RingOk s → s.rbValid = true →
    s.ringCount < s.rbCap ∧
    (s.ringCount = 0 ↔ s.head = s.tail) ∧
    (s.ringCount + 1 = s.rbCap ↔ (s.head + 1) % s.rbCap = s.tail) ∧
    s.contents.length = s.ringCount ∧ s.head < 2 ^ s.cfg.idxW ∧ s.tail < 2 ^ s.cfg.idxW

/-- The ring is a queue of at most `C - 1` bytes that drops the oldest on overrun: every RB operation refines the queue's, answers for it, and leaves a ring
that meets its invariants (R29, R100 to R107). -/
def Obligations.RingRefinesDropOldestQueue : Prop :=
  (∀ (c : Byte) (s : State), ∃ t, exec (.rbInit c) s = .next t ∧ RingOk t ∧ t.contents = [] ∧
    (1 ≤ c.toNat ∧ c.toNat ≤ s.cfg.rbSlots → t.rbValid = true ∧ t.rbCap = c.toNat ∧ t.resp = some (.ok 0)) ∧
    (¬ (1 ≤ c.toNat ∧ c.toNat ≤ s.cfg.rbSlots) → t.rbValid = false ∧ t.resp = some .eStorage)) ∧
  ∀ s : State, RingOk s → s.rbValid = true →
    (∀ b, ∃ t, exec (.rbWr b) s = .next t ∧ RingOk t ∧ t.rbValid = true ∧ t.rbCap = s.rbCap ∧ t.resp = some (.ok 0) ∧
      t.contents = lastBytes (s.rbCap - 1) (s.contents ++ [b])) ∧
    (∃ t, exec .rbRd s = .next t ∧ RingOk t ∧ t.rbValid = true ∧ t.rbCap = s.rbCap ∧
      t.resp = some (match s.contents with
        | [] => .noValue
        | b :: _ => .ok (b.setWidth 32)) ∧
      t.contents = s.contents.tail) ∧
    (∃ t, exec .rbCnt s = .next t ∧ RingOk t ∧ t.rbValid = true ∧ t.rbCap = s.rbCap ∧
      t.resp = some (.ok (BitVec.ofNat 32 s.contents.length)) ∧ t.contents = s.contents) ∧
    (∃ t, exec .rbFlush s = .next t ∧ RingOk t ∧ t.rbValid = true ∧ t.rbCap = s.rbCap ∧ t.resp = some (.ok 0) ∧
      t.contents = [])

/-- R106: reads return, in write order, the bytes that were stored and written, for every sequence of writes and reads in which no write found
the ring full and every operation answered (a run that `ringRun` gives a result for). -/
def Obligations.RingKeepsWriteOrder : Prop :=
  ∀ (ops : List RingOp) (s t : State) (out : List Byte), RingOk s → s.rbValid = true →
    ringRun ops s = some (t, out) → out ++ t.contents = s.contents ++ written ops

/-- R107: after a run of at least `C - 1` writes with no read between, the ring holds the last `C - 1` bytes written, in order. -/
def Obligations.OverrunKeepsLastBytes : Prop :=
  ∀ (bs : List Byte) (s : State), RingOk s → s.rbValid = true → s.rbCap - 1 ≤ bs.length →
    ∃ t, writeAll bs s = .next t ∧ t.contents = lastBytes (s.rbCap - 1) bs

/-- The degenerate capacities: with `C = 1` the ring is always empty and always full and a written byte is lost; with `C = 2` at most one byte
is stored (R109). -/
def Obligations.DegenerateCapacities : Prop :=
  ∀ s : State, RingOk s → s.rbValid = true →
    (s.rbCap = 1 →
      s.head = 0 ∧ s.tail = 0 ∧ s.ringEmpty = true ∧ s.ringFull = true ∧
      (∀ b, ∃ t, exec (.rbWr b) s = .next t ∧ Answered s t (.ok 0) ∧ t.memRead (.ring 0) = some b ∧
        t.head = 0 ∧ t.tail = 0 ∧ t.contents = []) ∧
      (∃ t, exec .rbRd s = .next t ∧ Answered s t .noValue) ∧
      (∃ t, exec .rbCnt s = .next t ∧ Answered s t (.ok 0))) ∧
    (s.rbCap = 2 → s.contents.length ≤ 1)

/-! ## GPIO, levels and the scan (41_gpio_and_scan) -/

/-- R120: `IO.CFG` records direction and pull of its pin and does not write `row_out`. -/
def Obligations.ConfigurePinRecords : Prop :=
  ∀ (p : PinId) (d : Dir) (q : Pull) (s : State), ∃ t, exec (.ioCfg p d q) s = .next t ∧ Answered s t (.ok 0) ∧
    t.pin p.index = ⟨d, q⟩ ∧ (∀ p' : PinId, p' ≠ p → t.pin p'.index = s.pin p'.index) ∧ t.rowOut = s.rowOut ∧
    KeypadSame s t ∧ RingSame s t ∧ BytesSame s t ∧ LinesSame s t ∧ OutsideSame s t

/-- `IO.SET` and `IO.RST` drive the row of a row pin and run the edge latch; on any other pin they change no state (R121, R122).
Where a configuration binds the pin to several rows, each of them takes the level, which is the model's choice (log entry 13); a row pin that is not
configured as output follows the same pseudocode (log entry 9). -/
def Obligations.DrivePinSetsRow : Prop :=
  ∀ (b : Bit) (p : PinId) (s : State),
    let i : Instr := if b then .ioSet p else .ioRst p
    (p ∉ s.cfg.rowPin → ∃ t, exec i s = .next t ∧ OnlyAnswered s t (.ok 0)) ∧
    (p ∈ s.cfg.rowPin → s.rowOut.length = s.cfg.nRows → ∃ t, exec i s = .next t ∧ Answered s t (.ok 0) ∧
      (∀ r : Nat, s.cfg.rowPin[r]? = some p → t.rowOut[r]? = some b) ∧
      (∀ r : Nat, s.cfg.rowPin[r]? ≠ some p → t.rowOut[r]? = s.rowOut[r]?) ∧
      (∀ n, t.line n = ({ s with rowOut := t.rowOut } : State).latched n) ∧
      (∀ j, t.pin j = s.pin j) ∧
      KeypadSame s t ∧ RingSame s t ∧ BytesSame s t ∧ OutsideSame s t)

/-- `IO.RD` answers the pin's level in `data[0]` and writes no state; the level of a pin that is neither row nor column is some bit,
which the spec does not define (R123; log entry 9). -/
def Obligations.ReadPinAnswersLevel : Prop :=
  ∀ (p : PinId) (s : State), ∃ (t : State) (b : Bit),
    exec (.ioRd p) s = .next t ∧ OnlyAnswered s t (.ok (if b then 1 else 0)) ∧
    (s.cfg.isMatrix p = true → b = s.level p)

/-- R124: the level of a row pin is its row's; a column pin is low exactly when a closed key of the column sits on a low row. -/
def Obligations.PinLevels : Prop :=
  ∀ s : State, s.cfg.valid = true → s.rowOut.length = s.cfg.nRows →
    (∀ (r : Nat) p, s.cfg.rowPin[r]? = some p → s.rowOut[r]? = some (s.level p)) ∧
    (∀ (c : Nat) p, s.cfg.colPin[c]? = some p →
      (s.level p = false ↔ ∃ r, (r, c) ∈ s.pressed ∧ s.rowOut[r]? = some false))

/-- R125: with every row high at entry, `CoreScan()` returns the least pressed key in the order (row, then column), or none when none is
pressed, and leaves every row high and everything but the lines as it was. -/
def Obligations.CoreScanFindsLeastKey : Prop :=
  ∀ s : State, s.cfg.valid = true → KeysOk s.cfg s.pressed → s.rowOut = List.replicate s.cfg.nRows true →
    (coreScan s).2 = s.firstPressed ∧ (s.firstPressed = none ↔ s.pressed = []) ∧
    (∀ k, s.firstPressed = some k → k ∈ s.pressed ∧ ∀ k' ∈ s.pressed, keyLt k' k = false) ∧
    KeypadSame s (coreScan s).1 ∧ RingSame s (coreScan s).1 ∧ BytesSame s (coreScan s).1 ∧ PinsSame s (coreScan s).1 ∧
    LinesKept s (coreScan s).1 ∧ OutsideSame s (coreScan s).1

/-- R126: from the entry to the return of `CoreScan()` at most one row is low, at every instant; the last instant is the state the scan returns. -/
def Obligations.RowExclusivity : Prop :=
  ∀ s : State, s.cfg.rowPin.Nodup → s.rowOut = List.replicate s.cfg.nRows true →
    (∀ t ∈ s :: scanTrace (List.range s.cfg.nRows) s, t.rowOut.count false ≤ 1) ∧
    (s :: scanTrace (List.range s.cfg.nRows) s).getLast? = some (coreScan s).1

/-- `Scan()` from rows at rest, high or low, returns the least pressed key and leaves the rows at rest (R129). -/
def Obligations.ScanKeepsRest : Prop :=
  ∀ s : State, s.cfg.valid = true → KeysOk s.cfg s.pressed →
    s.rowOut = List.replicate s.cfg.nRows s.cfg.rowRest →
    (scan s).2 = s.firstPressed ∧
    KeypadSame s (scan s).1 ∧ RingSame s (scan s).1 ∧ BytesSame s (scan s).1 ∧ PinsSame s (scan s).1 ∧ LinesKept s (scan s).1 ∧
    OutsideSame s (scan s).1

/-! ## The poll machine (42_keypad_poll) -/

/-- The other variant's operation answers `REFUSED` and changes nothing; an inactive keypad answers `INERT` and changes nothing; the variant is
tested first (R142, R150, R172, R235). -/
def Obligations.WrongVariantAndInactive : Prop :=
  ∀ s : State,
    (s.cfg.variant = .interrupt → ∃ t, exec .kpTick s = .next t ∧ OnlyAnswered s t .refused ∧ t.marks.refused = true) ∧
    (s.cfg.variant = .poll → s.active = false → ∃ t, exec .kpTick s = .next t ∧ OnlyAnswered s t .inert) ∧
    (∀ v, s.cfg.variant = .poll → ∃ t, exec (.kpIrq v) s = .next t ∧ OnlyAnswered s t .refused ∧ t.marks.refused = true) ∧
    (∀ v, s.cfg.variant = .interrupt → s.active = false →
      ∃ t, exec (.kpIrq v) s = .next t ∧ OnlyAnswered s t .inert)

/-- R144: a tick in `IDLE` moves to `DEBOUNCE` with `cnt = 0` if a key is sensed and writes nothing otherwise. -/
def Obligations.TickInIdle : Prop :=
  ∀ s : State, RunOk s → KeypadOk s → s.cfg.variant = .poll → s.active = true → s.phase = .idle →
    ∃ t, exec .kpTick s = .next t ∧ Answered s t (.ok 0) ∧
      (s.pressed = [] → t.phase = .idle ∧ t.cnt = s.cnt) ∧
      (s.pressed ≠ [] → t.phase = .debounce ∧ t.cnt = 0) ∧
      t.active = s.active ∧ t.inited = s.inited ∧ t.trig = s.trig ∧ t.hstep = s.hstep ∧ t.hkey = s.hkey ∧
      RingSame s t ∧ BytesSame s t ∧ PinsSame s t ∧ LinesKept s t ∧ OutsideSame s t

/-- R145: a tick in `DEBOUNCE` counts while a key is sensed, writes the symbol of the key this tick's scan returned when the count reaches the
threshold and moves to `PRESSED`, and returns to `IDLE` with `cnt = 0` when no key is sensed. -/
def Obligations.TickInDebounce : Prop :=
  ∀ s : State, RunOk s → KeypadOk s → s.cfg.variant = .poll → s.active = true → s.phase = .debounce →
    ∃ t, exec .kpTick s = .next t ∧ Answered s t (.ok 0) ∧
      (s.firstPressed = none → t.phase = .idle ∧ t.cnt = 0 ∧ RingSame s t ∧ BytesSame s t) ∧
      (∀ k, s.firstPressed = some k → s.cnt + 1 < s.cfg.debounceThreshold →
        t.phase = .debounce ∧ t.cnt = s.cnt + 1 ∧ RingSame s t ∧ BytesSame s t) ∧
      (∀ k, s.firstPressed = some k → s.cfg.debounceThreshold ≤ s.cnt + 1 →
        t.phase = .pressed ∧ t.cnt = s.cnt + 1 ∧
        t.rbValid = s.rbValid ∧ t.rbCap = s.rbCap ∧ t.head = (s.head + 1) % s.rbCap ∧
        t.tail = (if (s.head + 1) % s.rbCap = s.tail then (s.tail + 1) % s.rbCap else s.tail) ∧
        t.memRead (.ring s.head) = s.memRead (.keymap (k.1 * s.cfg.nCols + k.2)) ∧
        (∀ a, a ≠ .ring s.head → t.memRead a = s.memRead a)) ∧
      t.active = s.active ∧ t.inited = s.inited ∧ t.trig = s.trig ∧ t.hstep = s.hstep ∧ t.hkey = s.hkey ∧
      PinsSame s t ∧ LinesKept s t ∧ OutsideSame s t

/-- R146: a tick in `PRESSED` returns to `IDLE` when no key is sensed and writes nothing otherwise; `cnt` keeps its value. -/
def Obligations.TickInPressed : Prop :=
  ∀ s : State, RunOk s → KeypadOk s → s.cfg.variant = .poll → s.active = true → s.phase = .pressed →
    ∃ t, exec .kpTick s = .next t ∧ Answered s t (.ok 0) ∧
      (s.pressed = [] → t.phase = .idle) ∧ (s.pressed ≠ [] → t.phase = .pressed) ∧ t.cnt = s.cnt ∧
      t.active = s.active ∧ t.inited = s.inited ∧ t.trig = s.trig ∧ t.hstep = s.hstep ∧ t.hkey = s.hkey ∧
      RingSame s t ∧ BytesSame s t ∧ PinsSame s t ∧ LinesKept s t ∧ OutsideSame s t

/-- The confirmation boundary: from `IDLE`, up to `DEBOUNCE_THRESHOLD` consecutive sensed ticks write no KeyEvent, and a tick with no key sensed then
returns to `IDLE` with none written; the next sensed tick writes exactly one, the symbol of the key that tick sensed, whichever keys the earlier ticks
sensed (R147, R149). A threshold of 0 acts as 1, since the comparison comes after the increment (R145; log entry 15). -/
def Obligations.ConfirmationBoundary : Prop :=
  ∀ (s : State) (ls : List (List Key)), RunOk s → KeypadOk s → s.cfg.variant = .poll → s.active = true →
    s.phase = .idle → (∀ l ∈ ls, KeysOk s.cfg l ∧ l ≠ []) →
    (1 ≤ ls.length → ls.length ≤ max 1 s.cfg.debounceThreshold →
      (∃ t, tickRun ls s = .next t ∧ t.phase = .debounce ∧ t.cnt + 1 = ls.length ∧
        RingSame s t ∧ BytesSame s t) ∧
      (∃ t, tickRun (ls ++ [[]]) s = .next t ∧ t.phase = .idle ∧ t.cnt = 0 ∧ RingSame s t ∧ BytesSame s t)) ∧
    (ls.length = max 1 s.cfg.debounceThreshold + 1 →
      ∃ t k b, tickRun ls s = .next t ∧ t.phase = .pressed ∧
        (s.cfg.keys.find? fun k => (ls.getLastD []).contains k) = some k ∧
        s.memRead (.keymap (k.1 * s.cfg.nCols + k.2)) = some b ∧
        t.contents = lastBytes (s.rbCap - 1) (s.contents ++ [b]))

/-- No auto-repeat: after confirmation any number of ticks with a key sensed writes nothing, and the first tick with none returns to `IDLE`
with nothing written (R148). -/
def Obligations.NoAutoRepeat : Prop :=
  ∀ (s : State) (ls : List (List Key)), RunOk s → KeypadOk s → s.cfg.variant = .poll → s.active = true →
    s.phase = .pressed → (∀ l ∈ ls, KeysOk s.cfg l ∧ l ≠ []) →
    (∃ t, tickRun ls s = .next t ∧ t.phase = .pressed ∧ t.cnt = s.cnt ∧ RingSame s t ∧ BytesSame s t) ∧
    (∃ t, tickRun (ls ++ [[]]) s = .next t ∧ t.phase = .idle ∧ RingSame s t ∧ BytesSame s t)

/-! ## The interrupt handler (43_keypad_interrupt) -/

/-- R160, `H0`: with a column line pending, `KP.IRQ v` records the pending column lines in `trig` and enters the handler; with none it answers `OK`
and nothing else happens; the outcome does not depend on `v`. -/
def Obligations.HandlerEntry : Prop :=
  ∀ (v : BitVec 4) (s : State), s.cfg.variant = .interrupt → s.active = true → s.hstep = .h0 →
    ∃ t, exec (.kpIrq v) s = .next t ∧
      (∀ n : Fin 16, t.trig.getLsbD n.val = (s.cfg.isColLine n && (s.line n).pend)) ∧
      ((∃ n : Fin 16, s.cfg.isColLine n = true ∧ (s.line n).pend = true) →
        t.hstep = .h1 ∧ t.resp = none ∧ DelaysSame s t) ∧
      ((∀ n : Fin 16, s.cfg.isColLine n = true → (s.line n).pend = false) →
        t.hstep = .h0 ∧ t.trig = 0 ∧ Answered s t (.ok 0)) ∧
      t.active = s.active ∧ t.inited = s.inited ∧ t.phase = s.phase ∧ t.cnt = s.cnt ∧ t.hkey = s.hkey ∧
      RingSame s t ∧ BytesSame s t ∧ PinsSame s t ∧ LinesSame s t ∧ OutsideSame s t ∧
      ∀ v', exec (.kpIrq v') s = .next t

/-- R161, `H1`: every column line is disabled, no other register of a line changes, and a vector that depends on column lines only makes no
request. -/
def Obligations.HandlerDisablesColumns : Prop :=
  ∀ s : State, s.hstep = .h1 → ∃ t, microStep s = .next t ∧ t.hstep = .h2 ∧
    (∀ n : Fin 16, t.line n = if s.cfg.isColLine n then { s.line n with en := false } else s.line n) ∧
    (∀ v, (∀ n : Fin 16, vectorOf n = v → s.cfg.isColLine n = true) → t.vreq v = false) ∧
    t.active = s.active ∧ t.inited = s.inited ∧ t.phase = s.phase ∧ t.cnt = s.cnt ∧ t.trig = s.trig ∧ t.hkey = s.hkey ∧
    t.resp = s.resp ∧ DelaysSame s t ∧
    RingSame s t ∧ BytesSame s t ∧ PinsSame s t ∧ OutsideSame s t

/-- `H3` and `H4` from rows at rest: the scan's least key is kept in `hkey`, then its symbol is written into the ring; with none, nothing is
written (R163, R164). -/
def Obligations.HandlerScansAndReports : Prop :=
  ∀ s : State, RunOk s → KeypadOk s → s.cfg.variant = .interrupt → s.active = true →
    (s.hstep = .h3 → ∃ t, microStep s = .next t ∧ t.hstep = .h4 ∧ t.hkey = s.firstPressed ∧
      t.active = s.active ∧ t.inited = s.inited ∧ t.phase = s.phase ∧ t.cnt = s.cnt ∧ t.trig = s.trig ∧
      t.resp = s.resp ∧ DelaysSame s t ∧
      RingSame s t ∧ BytesSame s t ∧ PinsSame s t ∧ LinesKept s t ∧ OutsideSame s t) ∧
    (s.hstep = .h4 → ∃ t, microStep s = .next t ∧ t.hstep = .h5 ∧
      (s.hkey = none → RingSame s t ∧ BytesSame s t) ∧
      (∀ k, s.hkey = some k → t.rbValid = s.rbValid ∧ t.rbCap = s.rbCap ∧ t.head = (s.head + 1) % s.rbCap ∧
        t.tail = (if (s.head + 1) % s.rbCap = s.tail then (s.tail + 1) % s.rbCap else s.tail) ∧
        t.memRead (.ring s.head) = s.memRead (.keymap (k.1 * s.cfg.nCols + k.2)) ∧
        (∀ a, a ≠ .ring s.head → t.memRead a = s.memRead a)) ∧
      t.active = s.active ∧ t.inited = s.inited ∧ t.phase = s.phase ∧ t.cnt = s.cnt ∧ t.trig = s.trig ∧ t.hkey = s.hkey ∧
      t.resp = s.resp ∧ DelaysSame s t ∧
      PinsSame s t ∧ LinesSame s t ∧ OutsideSame s t)

/-- `H5` and `H6`: the pending flag of every column line is cleared unconditionally, then every column line is enabled and the handler returns with
`OK` (R165, R166). -/
def Obligations.HandlerClearsThenEnables : Prop :=
  ∀ s : State,
    (s.hstep = .h5 → ∃ t, microStep s = .next t ∧ t.hstep = .h6 ∧
      (∀ n : Fin 16, t.line n = if s.cfg.isColLine n then { s.line n with pend := false } else s.line n) ∧
      t.active = s.active ∧ t.inited = s.inited ∧ t.phase = s.phase ∧ t.cnt = s.cnt ∧ t.trig = s.trig ∧ t.hkey = s.hkey ∧
      t.resp = s.resp ∧ DelaysSame s t ∧
      RingSame s t ∧ BytesSame s t ∧ PinsSame s t ∧ OutsideSame s t) ∧
    (s.hstep = .h6 → ∃ t, microStep s = .next t ∧ t.hstep = .h0 ∧ t.hkey = none ∧ Answered s t (.ok 0) ∧
      (∀ n : Fin 16, t.line n = if s.cfg.isColLine n then { s.line n with en := true } else s.line n) ∧
      t.active = s.active ∧ t.inited = s.inited ∧ t.phase = s.phase ∧ t.cnt = s.cnt ∧ t.trig = s.trig ∧
      RingSame s t ∧ BytesSame s t ∧ PinsSame s t ∧ OutsideSame s t)

/-- A whole invocation: from `H1`, for every schedule in which the delay passes and no key changes, KDB's moves carry the handler to its return, with every
column line enabled and not pending, the rows at rest, and the ring holding one more KeyEvent if a key is held and no more if none is (R160 to R168).
The schedule's first two moves of KDB are `H1` and the start of `H2`; the moves `c` after them pass at least the delay, without the clock going round once
more, and five moves of KDB follow; the environment's clock, the contexts and the arbiter may move anywhere between. The schedule is the model's form (log
entry 3). -/
def Obligations.HandlerRunsToCompletion : Prop :=
  ∀ (s : State) (a b c e : List Move), RunOk s → KeypadOk s → s.cfg.variant = .interrupt → s.active = true →
    s.hstep = .h1 → s.delay = none →
    s.sched = a ++ .kdb :: b ++ .kdb :: c ++ e → kdbCount (a ++ b) = 0 → (∀ m ∈ s.sched, m.changesKeys = false) →
    s.cfg.debounceDelayMs ≤ msAdded c → msAdded (c ++ e) < 2 ^ s.cfg.msW → 5 ≤ kdbCount e →
    ∃ (n : Nat) (t : State), n ≤ s.sched.length ∧ Host.Core.run core n s = .next t ∧
      t.hstep = .h0 ∧ t.hkey = none ∧ t.resp = some (.ok 0) ∧ t.delay = none ∧
      (∀ l : Fin 16, s.cfg.isColLine l = true → (t.line l).en = true ∧ (t.line l).pend = false) ∧
      t.rowOut = List.replicate s.cfg.nRows s.cfg.rowRest ∧
      (s.firstPressed = none → t.contents = s.contents) ∧
      (∀ k, s.firstPressed = some k → ∃ b, s.memRead (.keymap (k.1 * s.cfg.nCols + k.2)) = some b ∧
        t.contents = lastBytes (s.rbCap - 1) (s.contents ++ [b]))

/-- No double enqueue: when the handler has cleared and enabled with no edge in between, a further `KP.IRQ` for any vector answers `OK` at `H0`, leaves
the ring as it is and starts nothing (R165, R166, R170). -/
def Obligations.NoDoubleEnqueue : Prop :=
  ∀ (s t u : State) (v : BitVec 4), s.cfg.variant = .interrupt → s.active = true → s.hstep = .h5 →
    microStep s = .next t → microStep t = .next u →
    ∃ x, exec (.kpIrq v) u = .next x ∧ x.hstep = .h0 ∧ x.trig = 0 ∧ Answered u x (.ok 0) ∧
      RingSame s x ∧ BytesSame s x ∧ PinsSame u x ∧ LinesSame u x

/-! ## The consumer read (44_consumer_read) -/

/-- R180: `KP.RDKEY` answers `NOVALUE` when the keypad is inactive or no key is pending, and otherwise takes the oldest symbol. -/
def Obligations.ReadKeyTakesOldest : Prop :=
  ∀ s : State,
    (s.active = false ∨ s.rbValid = false ∨ s.head = s.tail →
      ∃ t, exec .kpRdkey s = .next t ∧ OnlyAnswered s t .noValue) ∧
    (s.active = true → s.rbValid = true → s.head ≠ s.tail → s.tail < s.cfg.rbSlots →
      ∀ v, s.memRead (.ring s.tail) = some v →
      ∃ t, exec .kpRdkey s = .next t ∧ Answered s t (.ok (v.setWidth 32)) ∧
        t.tail = (s.tail + 1) % s.rbCap ∧ t.head = s.head ∧ t.rbValid = s.rbValid ∧ t.rbCap = s.rbCap ∧
        KeypadSame s t ∧ BytesSame s t ∧ PinsSame s t ∧ LinesSame s t ∧ OutsideSame s t)

/-! ## Interrupt lines (45_interrupt_line_controller) -/

/-- `IL.ARMF` and `IL.ARMR` bind the line of the pin's number to the pin, select the edge, sample the level, clear the pending flag and enable the
line; every other line is unchanged. The level of a pin that is neither row nor column is some bit, which the spec does not define (R186; log entry 9). -/
def Obligations.ArmBindsLine : Prop :=
  ∀ (e : Instr.ArmEdge) (p : PinId) (s : State), ∃ (t : State) (b : Bit),
    exec (.ilArm p e) s = .next t ∧ Answered s t (.ok 0) ∧
    t.line p.line = ⟨p.port, (match e with | .F => .falling | .R => .rising), true, false, b⟩ ∧
    (s.cfg.isMatrix p = true → b = s.level p) ∧
    (∀ n, n ≠ p.line → t.line n = s.line n) ∧
    KeypadSame s t ∧ RingSame s t ∧ BytesSame s t ∧ PinsSame s t ∧ OutsideSame s t

/-- `IL.DIS`, `IL.EN` and `IL.CLR` write one field of the line of the pin's number, whatever the port: the enable or the pending flag. An enabled line with a
pending flag requests its vector at once (R187, R188, R189). -/
def Obligations.LineEnableAndClear : Prop :=
  ∀ (p : PinId) (s : State),
    (∃ t, exec (.ilDis p) s = .next t ∧ Answered s t (.ok 0) ∧
      t.line p.line = { s.line p.line with en := false } ∧ (∀ n, n ≠ p.line → t.line n = s.line n) ∧
      KeypadSame s t ∧ RingSame s t ∧ BytesSame s t ∧ PinsSame s t ∧ OutsideSame s t) ∧
    (∃ t, exec (.ilEn p) s = .next t ∧ Answered s t (.ok 0) ∧
      t.line p.line = { s.line p.line with en := true } ∧ (∀ n, n ≠ p.line → t.line n = s.line n) ∧
      ((s.line p.line).pend = true → t.vreq (vectorOf p.line) = true) ∧
      KeypadSame s t ∧ RingSame s t ∧ BytesSame s t ∧ PinsSame s t ∧ OutsideSame s t) ∧
    (∃ t, exec (.ilClr p) s = .next t ∧ Answered s t (.ok 0) ∧
      t.line p.line = { s.line p.line with pend := false } ∧ (∀ n, n ≠ p.line → t.line n = s.line n) ∧
      KeypadSame s t ∧ RingSame s t ∧ BytesSame s t ∧ PinsSame s t ∧ OutsideSame s t)

/-- R190: the edge latch, line by line: a line with no edge never latches; the selected edge sets the flag of an enabled line; no other level change
does; the flag is never cleared; `il_last` follows the level. On a disabled line the draw decides. -/
def Obligations.EdgeLatchRule : Prop :=
  ∀ (s : State) (n : Fin 16),
    let l := s.line n
    let l' := (edgeLatch s).line n
    let new := s.level ⟨l.port, BitVec.ofFin n⟩
    let hit := (l.edge = .falling ∧ l.last = true ∧ new = false) ∨ (l.edge = .rising ∧ l.last = false ∧ new = true)
    (l.edge = .noEdge → l' = l) ∧
    (l.edge ≠ .noEdge → l'.last = new ∧ l'.port = l.port ∧ l'.edge = l.edge ∧ l'.en = l.en ∧
      (hit → l.en = true → l'.pend = true) ∧
      (hit → l.en = false → l'.pend = (l.pend || Config.latchDraw s.draws n)) ∧
      (¬ hit → l'.pend = l.pend))

/-- A vector requests exactly while a line of its group is pending and enabled; lines 0 to 4 have a vector each, lines 5 to 9 share `V5`, lines 10 to
15 share `V6` (R192, R193). -/
def Obligations.VectorRequestIsOrOfGroup : Prop :=
  ∀ (s : State) (v : Nat),
    (s.vreq v = true ↔ ∃ n : Fin 16, (s.line n).pend = true ∧ (s.line n).en = true ∧
      ((n.val ≤ 4 ∧ v = n.val) ∨ (5 ≤ n.val ∧ n.val ≤ 9 ∧ v = 5) ∨ (10 ≤ n.val ∧ v = 6)))

/-- The arbiter brings `KP.IRQ v` to the producer's port for some requesting vector, any of them, and does nothing when none requests (R194, R195,
R236); a step at which the schedule lets it move is that service (the model's form, log entry 19). -/
def Obligations.ArbiterServesRequestingVector : Prop :=
  ∀ s : State,
    ((∀ v, v < 7 → s.vreq v = false) → serve s = s) ∧
    ((∃ v, v < 7 ∧ s.vreq v = true) →
      ∃ v, v < 7 ∧ s.vreq v = true ∧
        (∃ w, (serve s).producer = s.producer ++ [w] ∧ decode w = some (.kpIrq (BitVec.ofNat 4 v))) ∧
        (serve s).consumer = s.consumer ∧ DelaysSame s (serve s) ∧ KeypadSame s (serve s) ∧ RingSame s (serve s) ∧
        BytesSame s (serve s) ∧ PinsSame s (serve s) ∧ LinesSame s (serve s)) ∧
    (∀ ms, s.sched = .serve :: ms → step s = .next (serve { s with sched := ms }))

/-! ## Time and the environment (46_time_source, 30_encoding R89) -/

/-- `TM.NOW` answers `OK` with `ms` in `data[31:0]` and writes no state (R216). Two parts are the model's: the low 32 bits are answered where `MS_W` is
above 32 (log entry 7), and the register is answered across a wrap of `ms` too, where 93 U16 lets no claim rest on the absolute value (log entry 26). -/
def Obligations.NowAnswersClock : Prop :=
  ∀ s : State, ∃ t, exec .tmNow s = .next t ∧ OnlyAnswered s t (.ok (BitVec.ofNat 32 s.ms))

/-- R217: `TM.DELAY 0` answers at once; any other delay takes `t0 = ms` and waits in the context that issued it, writing no KDB register; KDB answers `OK` at
its first move for that context at which `(ms - t0) % 2^MS_W >= m`, and does nothing for it before. The main loop's delay is looked at when no producer
operation is in progress or ready. The field that holds a delay, one for each context, is the model's form (log entry 10). -/
def Obligations.DelayIsLowerBound : Prop :=
  (∀ (c : Config) (t0 ms : Nat), t0 < 2 ^ c.msW → (c.elapsed t0 ms : Int) = ((ms : Int) - t0) % (2 : Int) ^ c.msW) ∧
  (∀ s : State, ∃ t, exec (.tmDelay 0) s = .next t ∧ OnlyAnswered s t (.ok 0)) ∧
  (∀ (m : Byte) (s : State), m ≠ 0 → ∃ t, exec (.tmDelay m) s = .next t ∧ t.resp = none ∧
    (s.issuer = .producer → t.delay = some ⟨s.ms, m.toNat⟩ ∧ t.mainDelay = s.mainDelay) ∧
    (s.issuer = .consumer → t.delay = s.delay ∧ t.mainDelay = some ⟨s.ms, m.toNat⟩) ∧
    KeypadSame s t ∧ RingSame s t ∧ BytesSame s t ∧ PinsSame s t ∧ LinesSame s t ∧ OutsideSame s t) ∧
  (∀ (d : Delay) (s : State), s.delay = some d → s.cfg.elapsed d.t0 s.ms < d.m → kdbMove s = .next s) ∧
  (∀ (d : Delay) (s : State), s.delay = some d → s.hstep = .h0 → d.m ≤ s.cfg.elapsed d.t0 s.ms →
    ∃ t, kdbMove s = .next t ∧ t.delay = none ∧ t.mainDelay = s.mainDelay ∧ t.resp = some (.ok 0) ∧
      KeypadSame s t ∧ RingSame s t ∧ BytesSame s t ∧ PinsSame s t ∧ LinesSame s t ∧ OutsideSame s t) ∧
  (∀ (d : Delay) (s : State), s.mainDelay = some d → s.delay = none → s.hstep = .h0 → s.producer = [] →
    (s.cfg.elapsed d.t0 s.ms < d.m → kdbMove s = .next s) ∧
    (d.m ≤ s.cfg.elapsed d.t0 s.ms → ∃ t, kdbMove s = .next t ∧ t.delay = none ∧ t.mainDelay = none ∧ t.resp = some (.ok 0) ∧
      KeypadSame s t ∧ RingSame s t ∧ BytesSame s t ∧ PinsSame s t ∧ LinesSame s t ∧ OutsideSame s t))

/-- `H2` is the delay of `DEBOUNCE_DELAY_MS`: the handler stands at `H2` until at least that many milliseconds have passed, then goes on to `H3` (R162,
R217). -/
def Obligations.HandlerWaitsDebounceDelay : Prop :=
  ∀ s : State, s.hstep = .h2 →
    (s.delay = none → s.cfg.debounceDelayMs ≠ 0 → ∃ t, kdbMove s = .next t ∧ t.hstep = .h2 ∧
      t.delay = some ⟨s.ms, s.cfg.debounceDelayMs⟩ ∧ t.hkey = s.hkey ∧ t.trig = s.trig ∧
      t.mainDelay = s.mainDelay ∧ t.active = s.active ∧ t.inited = s.inited ∧ t.phase = s.phase ∧ t.cnt = s.cnt ∧
      RingSame s t ∧ BytesSame s t ∧ PinsSame s t ∧ LinesSame s t ∧ OutsideSame s t) ∧
    (s.delay = none → s.cfg.debounceDelayMs = 0 → ∃ t, kdbMove s = .next t ∧ t.hstep = .h3 ∧ t.delay = none ∧
      t.hkey = s.hkey ∧ t.trig = s.trig ∧
      t.mainDelay = s.mainDelay ∧ t.active = s.active ∧ t.inited = s.inited ∧ t.phase = s.phase ∧ t.cnt = s.cnt ∧
      RingSame s t ∧ BytesSame s t ∧ PinsSame s t ∧ LinesSame s t ∧ OutsideSame s t) ∧
    (∀ d, s.delay = some d → s.cfg.elapsed d.t0 s.ms < d.m → kdbMove s = .next s) ∧
    (∀ d, s.delay = some d → d.m ≤ s.cfg.elapsed d.t0 s.ms → ∃ t, kdbMove s = .next t ∧ t.hstep = .h3 ∧
      t.delay = none ∧ t.hkey = s.hkey ∧ t.trig = s.trig ∧
      t.mainDelay = s.mainDelay ∧ t.active = s.active ∧ t.inited = s.inited ∧ t.phase = s.phase ∧ t.cnt = s.cnt ∧
      RingSame s t ∧ BytesSame s t ∧ PinsSame s t ∧ LinesSame s t ∧ OutsideSame s t)

/-- R89: `ENV.PRESS` adds a key of the matrix to the closed keys, `ENV.RELEASE` removes one, `ENV.MS` adds to `ms` modulo `2^MS_W`; after the first two
the edge latch runs, and no other register changes. A step at which the schedule lets the environment move is that step (the model's form, log entry 3). -/
def Obligations.EnvironmentSteps : Prop :=
  ∀ s : State,
    (∀ k, s.cfg.hasKey k = true →
      (∀ k', k' ∈ (envStep (.press k) s).pressed ↔ k' = k ∨ k' ∈ s.pressed) ∧
      (∀ n, (envStep (.press k) s).line n =
        ({ s with pressed := (envStep (.press k) s).pressed } : State).latched n) ∧
      (envStep (.press k) s).ms = s.ms ∧ KeypadSame s (envStep (.press k) s) ∧ RingSame s (envStep (.press k) s) ∧
      BytesSame s (envStep (.press k) s) ∧ PinsSame s (envStep (.press k) s)) ∧
    (∀ k,
      (∀ k', k' ∈ (envStep (.release k) s).pressed ↔ k' ≠ k ∧ k' ∈ s.pressed) ∧
      (∀ n, (envStep (.release k) s).line n =
        ({ s with pressed := (envStep (.release k) s).pressed } : State).latched n) ∧
      (envStep (.release k) s).ms = s.ms ∧ KeypadSame s (envStep (.release k) s) ∧ RingSame s (envStep (.release k) s) ∧
      BytesSame s (envStep (.release k) s) ∧ PinsSame s (envStep (.release k) s)) ∧
    (∀ d, (envStep (.ms d) s).ms = (s.ms + d) % 2 ^ s.cfg.msW ∧ (envStep (.ms d) s).pressed = s.pressed ∧
      KeypadSame s (envStep (.ms d) s) ∧ RingSame s (envStep (.ms d) s) ∧ BytesSame s (envStep (.ms d) s) ∧
      PinsSame s (envStep (.ms d) s) ∧ LinesSame s (envStep (.ms d) s)) ∧
    (∀ e ms, s.sched = .env e :: ms → step s = .next (envStep e { s with sched := ms }))

/-! ## Whole-machine rules -/

/-- Who may write what (the "written by" column of R45): every operation leaves the registers that neither it nor an operation it calls is listed for;
only what drives a row, through the edge latch, sets a pending flag. `KP.IRQ` is `H0` here, its other micro-steps being KDB's own moves (log entry 11). -/
def Obligations.RegistersWrittenOnlyByTheirOperations : Prop :=
  ∀ (i : Instr) (s t : State), exec i s = .next t →
    OutsideSame s t ∧
    (i ≠ .kpInit → t.active = s.active ∧ t.inited = s.inited ∧ t.hkey = s.hkey) ∧
    (i ≠ .kpInit → i ≠ .kpTick → t.phase = s.phase ∧ t.cnt = s.cnt) ∧
    (i ≠ .kpInit → (∀ v, i ≠ .kpIrq v) → t.trig = s.trig ∧ t.hstep = s.hstep) ∧
    (i ≠ .kpInit → (∀ c, i ≠ .rbInit c) → t.rbValid = s.rbValid ∧ t.rbCap = s.rbCap) ∧
    (i ≠ .kpInit → i ≠ .kpTick → i ≠ .rbFlush → (∀ c, i ≠ .rbInit c) → (∀ b, i ≠ .rbWr b) → t.head = s.head) ∧
    (i ≠ .kpTick → (∀ b, i ≠ .rbWr b) → BytesSame s t) ∧
    (i ≠ .kpInit → i ≠ .kpTick → i ≠ .rbFlush → i ≠ .rbRd → i ≠ .kpRdkey → (∀ c, i ≠ .rbInit c) →
      (∀ b, i ≠ .rbWr b) → t.tail = s.tail) ∧
    (i ≠ .kpInit → i ≠ .kpTick → (∀ p, i ≠ .ioSet p) → (∀ p, i ≠ .ioRst p) → t.rowOut = s.rowOut) ∧
    (i ≠ .kpInit → (∀ p d q, i ≠ .ioCfg p d q) → ∀ j, t.pin j = s.pin j) ∧
    (i ≠ .kpInit → i ≠ .kpTick → (∀ p, i ≠ .ioSet p) → (∀ p, i ≠ .ioRst p) → ∀ n, (t.line n).pend = true → (s.line n).pend = true) ∧
    (i ≠ .kpInit → (∀ p, i ≠ .ilArmf p) → (∀ p, i ≠ .ilArmr p) →
      (∀ n, (t.line n).port = (s.line n).port ∧ (t.line n).edge = (s.line n).edge) ∧
      ((∀ p, i ≠ .ilEn p) → (∀ p, i ≠ .ilDis p) → ∀ n, (t.line n).en = (s.line n).en) ∧
      ((∀ p, i ≠ .ilClr p) → ∀ n, (s.line n).pend = true → (t.line n).pend = true) ∧
      (i ≠ .kpTick → (∀ p, i ≠ .ioSet p) → (∀ p, i ≠ .ioRst p) → ∀ n, (t.line n).last = (s.line n).last))

/-- Every step keeps the invariant of a run: the ring's memory stays canonical, its indices in range and its stored slots written, one level a row, the
closed keys in the matrix, `cnt` within the threshold, `ms` within its width, and each variant's registers quiet in the other (R22 to R31, R169). -/
def Obligations.StepKeepsInvariant : Prop :=
  ∀ s t : State, RunOk s → step s = .next t → RunOk t

/-- Nothing stops KDB: a step from a state that meets the invariant always gives a next state, so no fault and no refusal occurs in a run from reset (R230). -/
def Obligations.InvariantStateNeverStops : Prop :=
  ∀ s : State, RunOk s → ∃ t, step s = .next t

/-- Every step keeps `il_last` of an armed line on a row or column pin equal to the pin's level (R34, R190). -/
def Obligations.StepKeepsLastLevels : Prop :=
  ∀ s t : State, RunOk s → Tracks s → step s = .next t → Tracks t

/-- While the platform respects the keypad's ownership, every step keeps an active keypad's rows at rest, its pins bound, its ring valid and its own, and its column
lines armed for the falling edge and enabled exactly when the handler does not stand between `H1` and `H6` (R30, R31, R168, R264). -/
def Obligations.StepKeepsKeypad : Prop :=
  ∀ s t : State, RunOk s → KeypadOk s → Owned s → step s = .next t → KeypadOk t
end

