-- ==== Sys2Proof/Laws/State.lean ====
section
/-! SUPPORT. One lemma for each field that a named update of State leaves alone, so that no proof unfolds a record update. -/

namespace Sys2Proof
namespace Machine

/-! ## The edge latch and the marks -/

@[simp] theorem edgeLatch_cfg (s : State) : (edgeLatch s).cfg = s.cfg := rfl
@[simp] theorem edgeLatch_active (s : State) : (edgeLatch s).active = s.active := rfl
@[simp] theorem edgeLatch_inited (s : State) : (edgeLatch s).inited = s.inited := rfl
@[simp] theorem edgeLatch_phase (s : State) : (edgeLatch s).phase = s.phase := rfl
@[simp] theorem edgeLatch_cnt (s : State) : (edgeLatch s).cnt = s.cnt := rfl
@[simp] theorem edgeLatch_trig (s : State) : (edgeLatch s).trig = s.trig := rfl
@[simp] theorem edgeLatch_hstep (s : State) : (edgeLatch s).hstep = s.hstep := rfl
@[simp] theorem edgeLatch_hkey (s : State) : (edgeLatch s).hkey = s.hkey := rfl
@[simp] theorem edgeLatch_rbValid (s : State) : (edgeLatch s).rbValid = s.rbValid := rfl
@[simp] theorem edgeLatch_rbCap (s : State) : (edgeLatch s).rbCap = s.rbCap := rfl
@[simp] theorem edgeLatch_head (s : State) : (edgeLatch s).head = s.head := rfl
@[simp] theorem edgeLatch_tail (s : State) : (edgeLatch s).tail = s.tail := rfl
@[simp] theorem edgeLatch_buf (s : State) : (edgeLatch s).buf = s.buf := rfl
@[simp] theorem edgeLatch_rowOut (s : State) : (edgeLatch s).rowOut = s.rowOut := rfl
@[simp] theorem edgeLatch_pins (s : State) : (edgeLatch s).pins = s.pins := rfl
@[simp] theorem edgeLatch_ms (s : State) : (edgeLatch s).ms = s.ms := rfl
@[simp] theorem edgeLatch_pressed (s : State) : (edgeLatch s).pressed = s.pressed := rfl
@[simp] theorem edgeLatch_resp (s : State) : (edgeLatch s).resp = s.resp := rfl
@[simp] theorem edgeLatch_delay (s : State) : (edgeLatch s).delay = s.delay := rfl
@[simp] theorem edgeLatch_mainDelay (s : State) : (edgeLatch s).mainDelay = s.mainDelay := rfl
@[simp] theorem edgeLatch_issuer (s : State) : (edgeLatch s).issuer = s.issuer := rfl
@[simp] theorem edgeLatch_marks (s : State) : (edgeLatch s).marks = s.marks := rfl
@[simp] theorem edgeLatch_producer (s : State) : (edgeLatch s).producer = s.producer := rfl
@[simp] theorem edgeLatch_consumer (s : State) : (edgeLatch s).consumer = s.consumer := rfl
@[simp] theorem edgeLatch_sched (s : State) : (edgeLatch s).sched = s.sched := rfl
@[simp] theorem edgeLatch_draws (s : State) : (edgeLatch s).draws = s.draws + 1 := rfl

@[simp] theorem markPinUse_cfg (b : Bool) (s : State) : (markPinUse b s).cfg = s.cfg := rfl
@[simp] theorem markPinUse_active (b : Bool) (s : State) : (markPinUse b s).active = s.active := rfl
@[simp] theorem markPinUse_inited (b : Bool) (s : State) : (markPinUse b s).inited = s.inited := rfl
@[simp] theorem markPinUse_phase (b : Bool) (s : State) : (markPinUse b s).phase = s.phase := rfl
@[simp] theorem markPinUse_cnt (b : Bool) (s : State) : (markPinUse b s).cnt = s.cnt := rfl
@[simp] theorem markPinUse_trig (b : Bool) (s : State) : (markPinUse b s).trig = s.trig := rfl
@[simp] theorem markPinUse_hstep (b : Bool) (s : State) : (markPinUse b s).hstep = s.hstep := rfl
@[simp] theorem markPinUse_hkey (b : Bool) (s : State) : (markPinUse b s).hkey = s.hkey := rfl
@[simp] theorem markPinUse_rbValid (b : Bool) (s : State) : (markPinUse b s).rbValid = s.rbValid := rfl
@[simp] theorem markPinUse_rbCap (b : Bool) (s : State) : (markPinUse b s).rbCap = s.rbCap := rfl
@[simp] theorem markPinUse_head (b : Bool) (s : State) : (markPinUse b s).head = s.head := rfl
@[simp] theorem markPinUse_tail (b : Bool) (s : State) : (markPinUse b s).tail = s.tail := rfl
@[simp] theorem markPinUse_buf (b : Bool) (s : State) : (markPinUse b s).buf = s.buf := rfl
@[simp] theorem markPinUse_rowOut (b : Bool) (s : State) : (markPinUse b s).rowOut = s.rowOut := rfl
@[simp] theorem markPinUse_pins (b : Bool) (s : State) : (markPinUse b s).pins = s.pins := rfl
@[simp] theorem markPinUse_lines (b : Bool) (s : State) : (markPinUse b s).lines = s.lines := rfl
@[simp] theorem markPinUse_ms (b : Bool) (s : State) : (markPinUse b s).ms = s.ms := rfl
@[simp] theorem markPinUse_pressed (b : Bool) (s : State) : (markPinUse b s).pressed = s.pressed := rfl
@[simp] theorem markPinUse_resp (b : Bool) (s : State) : (markPinUse b s).resp = s.resp := rfl
@[simp] theorem markPinUse_delay (b : Bool) (s : State) : (markPinUse b s).delay = s.delay := rfl
@[simp] theorem markPinUse_mainDelay (b : Bool) (s : State) : (markPinUse b s).mainDelay = s.mainDelay := rfl
@[simp] theorem markPinUse_issuer (b : Bool) (s : State) : (markPinUse b s).issuer = s.issuer := rfl
@[simp] theorem markPinUse_draws (b : Bool) (s : State) : (markPinUse b s).draws = s.draws := rfl
@[simp] theorem markPinUse_producer (b : Bool) (s : State) : (markPinUse b s).producer = s.producer := rfl
@[simp] theorem markPinUse_consumer (b : Bool) (s : State) : (markPinUse b s).consumer = s.consumer := rfl
@[simp] theorem markPinUse_sched (b : Bool) (s : State) : (markPinUse b s).sched = s.sched := rfl

/-! ## Interrupt lines -/

@[simp] theorem setLine_cfg (s : State) (n : Fin 16) (l : LineReg) : (s.setLine n l).cfg = s.cfg := rfl
@[simp] theorem setLine_active (s : State) (n : Fin 16) (l : LineReg) : (s.setLine n l).active = s.active := rfl
@[simp] theorem setLine_inited (s : State) (n : Fin 16) (l : LineReg) : (s.setLine n l).inited = s.inited := rfl
@[simp] theorem setLine_phase (s : State) (n : Fin 16) (l : LineReg) : (s.setLine n l).phase = s.phase := rfl
@[simp] theorem setLine_cnt (s : State) (n : Fin 16) (l : LineReg) : (s.setLine n l).cnt = s.cnt := rfl
@[simp] theorem setLine_trig (s : State) (n : Fin 16) (l : LineReg) : (s.setLine n l).trig = s.trig := rfl
@[simp] theorem setLine_hstep (s : State) (n : Fin 16) (l : LineReg) : (s.setLine n l).hstep = s.hstep := rfl
@[simp] theorem setLine_hkey (s : State) (n : Fin 16) (l : LineReg) : (s.setLine n l).hkey = s.hkey := rfl
@[simp] theorem setLine_rbValid (s : State) (n : Fin 16) (l : LineReg) : (s.setLine n l).rbValid = s.rbValid := rfl
@[simp] theorem setLine_rbCap (s : State) (n : Fin 16) (l : LineReg) : (s.setLine n l).rbCap = s.rbCap := rfl
@[simp] theorem setLine_head (s : State) (n : Fin 16) (l : LineReg) : (s.setLine n l).head = s.head := rfl
@[simp] theorem setLine_tail (s : State) (n : Fin 16) (l : LineReg) : (s.setLine n l).tail = s.tail := rfl
@[simp] theorem setLine_buf (s : State) (n : Fin 16) (l : LineReg) : (s.setLine n l).buf = s.buf := rfl
@[simp] theorem setLine_rowOut (s : State) (n : Fin 16) (l : LineReg) : (s.setLine n l).rowOut = s.rowOut := rfl
@[simp] theorem setLine_pins (s : State) (n : Fin 16) (l : LineReg) : (s.setLine n l).pins = s.pins := rfl
@[simp] theorem setLine_ms (s : State) (n : Fin 16) (l : LineReg) : (s.setLine n l).ms = s.ms := rfl
@[simp] theorem setLine_pressed (s : State) (n : Fin 16) (l : LineReg) : (s.setLine n l).pressed = s.pressed := rfl
@[simp] theorem setLine_resp (s : State) (n : Fin 16) (l : LineReg) : (s.setLine n l).resp = s.resp := rfl
@[simp] theorem setLine_delay (s : State) (n : Fin 16) (l : LineReg) : (s.setLine n l).delay = s.delay := rfl
@[simp] theorem setLine_mainDelay (s : State) (n : Fin 16) (l : LineReg) : (s.setLine n l).mainDelay = s.mainDelay := rfl
@[simp] theorem setLine_issuer (s : State) (n : Fin 16) (l : LineReg) : (s.setLine n l).issuer = s.issuer := rfl
@[simp] theorem setLine_marks (s : State) (n : Fin 16) (l : LineReg) : (s.setLine n l).marks = s.marks := rfl
@[simp] theorem setLine_draws (s : State) (n : Fin 16) (l : LineReg) : (s.setLine n l).draws = s.draws := rfl
@[simp] theorem setLine_producer (s : State) (n : Fin 16) (l : LineReg) : (s.setLine n l).producer = s.producer := rfl
@[simp] theorem setLine_consumer (s : State) (n : Fin 16) (l : LineReg) : (s.setLine n l).consumer = s.consumer := rfl
@[simp] theorem setLine_sched (s : State) (n : Fin 16) (l : LineReg) : (s.setLine n l).sched = s.sched := rfl

@[simp] theorem enableLine_cfg (b : Bit) (p : PinId) (s : State) : (enableLine b p s).cfg = s.cfg := rfl
@[simp] theorem enableLine_active (b : Bit) (p : PinId) (s : State) : (enableLine b p s).active = s.active := rfl
@[simp] theorem enableLine_inited (b : Bit) (p : PinId) (s : State) : (enableLine b p s).inited = s.inited := rfl
@[simp] theorem enableLine_phase (b : Bit) (p : PinId) (s : State) : (enableLine b p s).phase = s.phase := rfl
@[simp] theorem enableLine_cnt (b : Bit) (p : PinId) (s : State) : (enableLine b p s).cnt = s.cnt := rfl
@[simp] theorem enableLine_trig (b : Bit) (p : PinId) (s : State) : (enableLine b p s).trig = s.trig := rfl
@[simp] theorem enableLine_hstep (b : Bit) (p : PinId) (s : State) : (enableLine b p s).hstep = s.hstep := rfl
@[simp] theorem enableLine_hkey (b : Bit) (p : PinId) (s : State) : (enableLine b p s).hkey = s.hkey := rfl
@[simp] theorem enableLine_rbValid (b : Bit) (p : PinId) (s : State) : (enableLine b p s).rbValid = s.rbValid := rfl
@[simp] theorem enableLine_rbCap (b : Bit) (p : PinId) (s : State) : (enableLine b p s).rbCap = s.rbCap := rfl
@[simp] theorem enableLine_head (b : Bit) (p : PinId) (s : State) : (enableLine b p s).head = s.head := rfl
@[simp] theorem enableLine_tail (b : Bit) (p : PinId) (s : State) : (enableLine b p s).tail = s.tail := rfl
@[simp] theorem enableLine_buf (b : Bit) (p : PinId) (s : State) : (enableLine b p s).buf = s.buf := rfl
@[simp] theorem enableLine_rowOut (b : Bit) (p : PinId) (s : State) : (enableLine b p s).rowOut = s.rowOut := rfl
@[simp] theorem enableLine_pins (b : Bit) (p : PinId) (s : State) : (enableLine b p s).pins = s.pins := rfl
@[simp] theorem enableLine_ms (b : Bit) (p : PinId) (s : State) : (enableLine b p s).ms = s.ms := rfl
@[simp] theorem enableLine_pressed (b : Bit) (p : PinId) (s : State) : (enableLine b p s).pressed = s.pressed := rfl
@[simp] theorem enableLine_resp (b : Bit) (p : PinId) (s : State) : (enableLine b p s).resp = s.resp := rfl
@[simp] theorem enableLine_delay (b : Bit) (p : PinId) (s : State) : (enableLine b p s).delay = s.delay := rfl
@[simp] theorem enableLine_mainDelay (b : Bit) (p : PinId) (s : State) : (enableLine b p s).mainDelay = s.mainDelay := rfl
@[simp] theorem enableLine_issuer (b : Bit) (p : PinId) (s : State) : (enableLine b p s).issuer = s.issuer := rfl
@[simp] theorem enableLine_marks (b : Bit) (p : PinId) (s : State) : (enableLine b p s).marks = s.marks := rfl
@[simp] theorem enableLine_draws (b : Bit) (p : PinId) (s : State) : (enableLine b p s).draws = s.draws := rfl
@[simp] theorem enableLine_producer (b : Bit) (p : PinId) (s : State) : (enableLine b p s).producer = s.producer := rfl
@[simp] theorem enableLine_consumer (b : Bit) (p : PinId) (s : State) : (enableLine b p s).consumer = s.consumer := rfl
@[simp] theorem enableLine_sched (b : Bit) (p : PinId) (s : State) : (enableLine b p s).sched = s.sched := rfl

@[simp] theorem clearLine_cfg (p : PinId) (s : State) : (clearLine p s).cfg = s.cfg := rfl
@[simp] theorem clearLine_active (p : PinId) (s : State) : (clearLine p s).active = s.active := rfl
@[simp] theorem clearLine_inited (p : PinId) (s : State) : (clearLine p s).inited = s.inited := rfl
@[simp] theorem clearLine_phase (p : PinId) (s : State) : (clearLine p s).phase = s.phase := rfl
@[simp] theorem clearLine_cnt (p : PinId) (s : State) : (clearLine p s).cnt = s.cnt := rfl
@[simp] theorem clearLine_trig (p : PinId) (s : State) : (clearLine p s).trig = s.trig := rfl
@[simp] theorem clearLine_hstep (p : PinId) (s : State) : (clearLine p s).hstep = s.hstep := rfl
@[simp] theorem clearLine_hkey (p : PinId) (s : State) : (clearLine p s).hkey = s.hkey := rfl
@[simp] theorem clearLine_rbValid (p : PinId) (s : State) : (clearLine p s).rbValid = s.rbValid := rfl
@[simp] theorem clearLine_rbCap (p : PinId) (s : State) : (clearLine p s).rbCap = s.rbCap := rfl
@[simp] theorem clearLine_head (p : PinId) (s : State) : (clearLine p s).head = s.head := rfl
@[simp] theorem clearLine_tail (p : PinId) (s : State) : (clearLine p s).tail = s.tail := rfl
@[simp] theorem clearLine_buf (p : PinId) (s : State) : (clearLine p s).buf = s.buf := rfl
@[simp] theorem clearLine_rowOut (p : PinId) (s : State) : (clearLine p s).rowOut = s.rowOut := rfl
@[simp] theorem clearLine_pins (p : PinId) (s : State) : (clearLine p s).pins = s.pins := rfl
@[simp] theorem clearLine_ms (p : PinId) (s : State) : (clearLine p s).ms = s.ms := rfl
@[simp] theorem clearLine_pressed (p : PinId) (s : State) : (clearLine p s).pressed = s.pressed := rfl
@[simp] theorem clearLine_resp (p : PinId) (s : State) : (clearLine p s).resp = s.resp := rfl
@[simp] theorem clearLine_delay (p : PinId) (s : State) : (clearLine p s).delay = s.delay := rfl
@[simp] theorem clearLine_mainDelay (p : PinId) (s : State) : (clearLine p s).mainDelay = s.mainDelay := rfl
@[simp] theorem clearLine_issuer (p : PinId) (s : State) : (clearLine p s).issuer = s.issuer := rfl
@[simp] theorem clearLine_marks (p : PinId) (s : State) : (clearLine p s).marks = s.marks := rfl
@[simp] theorem clearLine_draws (p : PinId) (s : State) : (clearLine p s).draws = s.draws := rfl
@[simp] theorem clearLine_producer (p : PinId) (s : State) : (clearLine p s).producer = s.producer := rfl
@[simp] theorem clearLine_consumer (p : PinId) (s : State) : (clearLine p s).consumer = s.consumer := rfl
@[simp] theorem clearLine_sched (p : PinId) (s : State) : (clearLine p s).sched = s.sched := rfl

@[simp] theorem noteForeign_cfg (p : PinId) (s : State) : (noteForeign p s).cfg = s.cfg := by unfold noteForeign; split <;> rfl
@[simp] theorem noteForeign_active (p : PinId) (s : State) : (noteForeign p s).active = s.active := by unfold noteForeign; split <;> rfl
@[simp] theorem noteForeign_inited (p : PinId) (s : State) : (noteForeign p s).inited = s.inited := by unfold noteForeign; split <;> rfl
@[simp] theorem noteForeign_phase (p : PinId) (s : State) : (noteForeign p s).phase = s.phase := by unfold noteForeign; split <;> rfl
@[simp] theorem noteForeign_cnt (p : PinId) (s : State) : (noteForeign p s).cnt = s.cnt := by unfold noteForeign; split <;> rfl
@[simp] theorem noteForeign_trig (p : PinId) (s : State) : (noteForeign p s).trig = s.trig := by unfold noteForeign; split <;> rfl
@[simp] theorem noteForeign_hstep (p : PinId) (s : State) : (noteForeign p s).hstep = s.hstep := by unfold noteForeign; split <;> rfl
@[simp] theorem noteForeign_hkey (p : PinId) (s : State) : (noteForeign p s).hkey = s.hkey := by unfold noteForeign; split <;> rfl
@[simp] theorem noteForeign_rbValid (p : PinId) (s : State) : (noteForeign p s).rbValid = s.rbValid := by unfold noteForeign; split <;> rfl
@[simp] theorem noteForeign_rbCap (p : PinId) (s : State) : (noteForeign p s).rbCap = s.rbCap := by unfold noteForeign; split <;> rfl
@[simp] theorem noteForeign_head (p : PinId) (s : State) : (noteForeign p s).head = s.head := by unfold noteForeign; split <;> rfl
@[simp] theorem noteForeign_tail (p : PinId) (s : State) : (noteForeign p s).tail = s.tail := by unfold noteForeign; split <;> rfl
@[simp] theorem noteForeign_buf (p : PinId) (s : State) : (noteForeign p s).buf = s.buf := by unfold noteForeign; split <;> rfl
@[simp] theorem noteForeign_rowOut (p : PinId) (s : State) : (noteForeign p s).rowOut = s.rowOut := by unfold noteForeign; split <;> rfl
@[simp] theorem noteForeign_pins (p : PinId) (s : State) : (noteForeign p s).pins = s.pins := by unfold noteForeign; split <;> rfl
@[simp] theorem noteForeign_lines (p : PinId) (s : State) : (noteForeign p s).lines = s.lines := by unfold noteForeign; split <;> rfl
@[simp] theorem noteForeign_ms (p : PinId) (s : State) : (noteForeign p s).ms = s.ms := by unfold noteForeign; split <;> rfl
@[simp] theorem noteForeign_pressed (p : PinId) (s : State) : (noteForeign p s).pressed = s.pressed := by unfold noteForeign; split <;> rfl
@[simp] theorem noteForeign_resp (p : PinId) (s : State) : (noteForeign p s).resp = s.resp := by unfold noteForeign; split <;> rfl
@[simp] theorem noteForeign_delay (p : PinId) (s : State) : (noteForeign p s).delay = s.delay := by unfold noteForeign; split <;> rfl
@[simp] theorem noteForeign_mainDelay (p : PinId) (s : State) : (noteForeign p s).mainDelay = s.mainDelay := by unfold noteForeign; split <;> rfl
@[simp] theorem noteForeign_issuer (p : PinId) (s : State) : (noteForeign p s).issuer = s.issuer := by unfold noteForeign; split <;> rfl
@[simp] theorem noteForeign_producer (p : PinId) (s : State) : (noteForeign p s).producer = s.producer := by unfold noteForeign; split <;> rfl
@[simp] theorem noteForeign_consumer (p : PinId) (s : State) : (noteForeign p s).consumer = s.consumer := by unfold noteForeign; split <;> rfl
@[simp] theorem noteForeign_sched (p : PinId) (s : State) : (noteForeign p s).sched = s.sched := by unfold noteForeign; split <;> rfl

@[simp] theorem armLine_cfg (e : Edge) (p : PinId) (s : State) : (armLine e p s).cfg = s.cfg := by simp [armLine]
@[simp] theorem armLine_active (e : Edge) (p : PinId) (s : State) : (armLine e p s).active = s.active := by simp [armLine]
@[simp] theorem armLine_inited (e : Edge) (p : PinId) (s : State) : (armLine e p s).inited = s.inited := by simp [armLine]
@[simp] theorem armLine_phase (e : Edge) (p : PinId) (s : State) : (armLine e p s).phase = s.phase := by simp [armLine]
@[simp] theorem armLine_cnt (e : Edge) (p : PinId) (s : State) : (armLine e p s).cnt = s.cnt := by simp [armLine]
@[simp] theorem armLine_trig (e : Edge) (p : PinId) (s : State) : (armLine e p s).trig = s.trig := by simp [armLine]
@[simp] theorem armLine_hstep (e : Edge) (p : PinId) (s : State) : (armLine e p s).hstep = s.hstep := by simp [armLine]
@[simp] theorem armLine_hkey (e : Edge) (p : PinId) (s : State) : (armLine e p s).hkey = s.hkey := by simp [armLine]
@[simp] theorem armLine_rbValid (e : Edge) (p : PinId) (s : State) : (armLine e p s).rbValid = s.rbValid := by simp [armLine]
@[simp] theorem armLine_rbCap (e : Edge) (p : PinId) (s : State) : (armLine e p s).rbCap = s.rbCap := by simp [armLine]
@[simp] theorem armLine_head (e : Edge) (p : PinId) (s : State) : (armLine e p s).head = s.head := by simp [armLine]
@[simp] theorem armLine_tail (e : Edge) (p : PinId) (s : State) : (armLine e p s).tail = s.tail := by simp [armLine]
@[simp] theorem armLine_buf (e : Edge) (p : PinId) (s : State) : (armLine e p s).buf = s.buf := by simp [armLine]
@[simp] theorem armLine_rowOut (e : Edge) (p : PinId) (s : State) : (armLine e p s).rowOut = s.rowOut := by simp [armLine]
@[simp] theorem armLine_pins (e : Edge) (p : PinId) (s : State) : (armLine e p s).pins = s.pins := by simp [armLine]
@[simp] theorem armLine_ms (e : Edge) (p : PinId) (s : State) : (armLine e p s).ms = s.ms := by simp [armLine]
@[simp] theorem armLine_pressed (e : Edge) (p : PinId) (s : State) : (armLine e p s).pressed = s.pressed := by simp [armLine]
@[simp] theorem armLine_resp (e : Edge) (p : PinId) (s : State) : (armLine e p s).resp = s.resp := by simp [armLine]
@[simp] theorem armLine_delay (e : Edge) (p : PinId) (s : State) : (armLine e p s).delay = s.delay := by simp [armLine]
@[simp] theorem armLine_mainDelay (e : Edge) (p : PinId) (s : State) : (armLine e p s).mainDelay = s.mainDelay := by simp [armLine]
@[simp] theorem armLine_issuer (e : Edge) (p : PinId) (s : State) : (armLine e p s).issuer = s.issuer := by simp [armLine]
@[simp] theorem armLine_producer (e : Edge) (p : PinId) (s : State) : (armLine e p s).producer = s.producer := by simp [armLine]
@[simp] theorem armLine_consumer (e : Edge) (p : PinId) (s : State) : (armLine e p s).consumer = s.consumer := by simp [armLine]
@[simp] theorem armLine_sched (e : Edge) (p : PinId) (s : State) : (armLine e p s).sched = s.sched := by simp [armLine]

/-! ## Pins -/

@[simp] theorem configPin_cfg (p : PinId) (d : Dir) (q : Pull) (s : State) : (configPin p d q s).cfg = s.cfg := rfl
@[simp] theorem configPin_active (p : PinId) (d : Dir) (q : Pull) (s : State) : (configPin p d q s).active = s.active := rfl
@[simp] theorem configPin_inited (p : PinId) (d : Dir) (q : Pull) (s : State) : (configPin p d q s).inited = s.inited := rfl
@[simp] theorem configPin_phase (p : PinId) (d : Dir) (q : Pull) (s : State) : (configPin p d q s).phase = s.phase := rfl
@[simp] theorem configPin_cnt (p : PinId) (d : Dir) (q : Pull) (s : State) : (configPin p d q s).cnt = s.cnt := rfl
@[simp] theorem configPin_trig (p : PinId) (d : Dir) (q : Pull) (s : State) : (configPin p d q s).trig = s.trig := rfl
@[simp] theorem configPin_hstep (p : PinId) (d : Dir) (q : Pull) (s : State) : (configPin p d q s).hstep = s.hstep := rfl
@[simp] theorem configPin_hkey (p : PinId) (d : Dir) (q : Pull) (s : State) : (configPin p d q s).hkey = s.hkey := rfl
@[simp] theorem configPin_rbValid (p : PinId) (d : Dir) (q : Pull) (s : State) : (configPin p d q s).rbValid = s.rbValid := rfl
@[simp] theorem configPin_rbCap (p : PinId) (d : Dir) (q : Pull) (s : State) : (configPin p d q s).rbCap = s.rbCap := rfl
@[simp] theorem configPin_head (p : PinId) (d : Dir) (q : Pull) (s : State) : (configPin p d q s).head = s.head := rfl
@[simp] theorem configPin_tail (p : PinId) (d : Dir) (q : Pull) (s : State) : (configPin p d q s).tail = s.tail := rfl
@[simp] theorem configPin_buf (p : PinId) (d : Dir) (q : Pull) (s : State) : (configPin p d q s).buf = s.buf := rfl
@[simp] theorem configPin_rowOut (p : PinId) (d : Dir) (q : Pull) (s : State) : (configPin p d q s).rowOut = s.rowOut := rfl
@[simp] theorem configPin_lines (p : PinId) (d : Dir) (q : Pull) (s : State) : (configPin p d q s).lines = s.lines := rfl
@[simp] theorem configPin_ms (p : PinId) (d : Dir) (q : Pull) (s : State) : (configPin p d q s).ms = s.ms := rfl
@[simp] theorem configPin_pressed (p : PinId) (d : Dir) (q : Pull) (s : State) : (configPin p d q s).pressed = s.pressed := rfl
@[simp] theorem configPin_resp (p : PinId) (d : Dir) (q : Pull) (s : State) : (configPin p d q s).resp = s.resp := rfl
@[simp] theorem configPin_delay (p : PinId) (d : Dir) (q : Pull) (s : State) : (configPin p d q s).delay = s.delay := rfl
@[simp] theorem configPin_mainDelay (p : PinId) (d : Dir) (q : Pull) (s : State) : (configPin p d q s).mainDelay = s.mainDelay := rfl
@[simp] theorem configPin_issuer (p : PinId) (d : Dir) (q : Pull) (s : State) : (configPin p d q s).issuer = s.issuer := rfl
@[simp] theorem configPin_draws (p : PinId) (d : Dir) (q : Pull) (s : State) : (configPin p d q s).draws = s.draws := rfl
@[simp] theorem configPin_producer (p : PinId) (d : Dir) (q : Pull) (s : State) : (configPin p d q s).producer = s.producer := rfl
@[simp] theorem configPin_consumer (p : PinId) (d : Dir) (q : Pull) (s : State) : (configPin p d q s).consumer = s.consumer := rfl
@[simp] theorem configPin_sched (p : PinId) (d : Dir) (q : Pull) (s : State) : (configPin p d q s).sched = s.sched := rfl

@[simp] theorem drivePin_cfg (b : Bit) (p : PinId) (s : State) : (drivePin b p s).cfg = s.cfg := by unfold drivePin; split <;> rfl
@[simp] theorem drivePin_active (b : Bit) (p : PinId) (s : State) : (drivePin b p s).active = s.active := by unfold drivePin; split <;> rfl
@[simp] theorem drivePin_inited (b : Bit) (p : PinId) (s : State) : (drivePin b p s).inited = s.inited := by unfold drivePin; split <;> rfl
@[simp] theorem drivePin_phase (b : Bit) (p : PinId) (s : State) : (drivePin b p s).phase = s.phase := by unfold drivePin; split <;> rfl
@[simp] theorem drivePin_cnt (b : Bit) (p : PinId) (s : State) : (drivePin b p s).cnt = s.cnt := by unfold drivePin; split <;> rfl
@[simp] theorem drivePin_trig (b : Bit) (p : PinId) (s : State) : (drivePin b p s).trig = s.trig := by unfold drivePin; split <;> rfl
@[simp] theorem drivePin_hstep (b : Bit) (p : PinId) (s : State) : (drivePin b p s).hstep = s.hstep := by unfold drivePin; split <;> rfl
@[simp] theorem drivePin_hkey (b : Bit) (p : PinId) (s : State) : (drivePin b p s).hkey = s.hkey := by unfold drivePin; split <;> rfl
@[simp] theorem drivePin_rbValid (b : Bit) (p : PinId) (s : State) : (drivePin b p s).rbValid = s.rbValid := by unfold drivePin; split <;> rfl
@[simp] theorem drivePin_rbCap (b : Bit) (p : PinId) (s : State) : (drivePin b p s).rbCap = s.rbCap := by unfold drivePin; split <;> rfl
@[simp] theorem drivePin_head (b : Bit) (p : PinId) (s : State) : (drivePin b p s).head = s.head := by unfold drivePin; split <;> rfl
@[simp] theorem drivePin_tail (b : Bit) (p : PinId) (s : State) : (drivePin b p s).tail = s.tail := by unfold drivePin; split <;> rfl
@[simp] theorem drivePin_buf (b : Bit) (p : PinId) (s : State) : (drivePin b p s).buf = s.buf := by unfold drivePin; split <;> rfl
@[simp] theorem drivePin_pins (b : Bit) (p : PinId) (s : State) : (drivePin b p s).pins = s.pins := by unfold drivePin; split <;> rfl
@[simp] theorem drivePin_ms (b : Bit) (p : PinId) (s : State) : (drivePin b p s).ms = s.ms := by unfold drivePin; split <;> rfl
@[simp] theorem drivePin_pressed (b : Bit) (p : PinId) (s : State) : (drivePin b p s).pressed = s.pressed := by unfold drivePin; split <;> rfl
@[simp] theorem drivePin_resp (b : Bit) (p : PinId) (s : State) : (drivePin b p s).resp = s.resp := by unfold drivePin; split <;> rfl
@[simp] theorem drivePin_delay (b : Bit) (p : PinId) (s : State) : (drivePin b p s).delay = s.delay := by unfold drivePin; split <;> rfl
@[simp] theorem drivePin_mainDelay (b : Bit) (p : PinId) (s : State) : (drivePin b p s).mainDelay = s.mainDelay := by unfold drivePin; split <;> rfl
@[simp] theorem drivePin_issuer (b : Bit) (p : PinId) (s : State) : (drivePin b p s).issuer = s.issuer := by unfold drivePin; split <;> rfl
@[simp] theorem drivePin_producer (b : Bit) (p : PinId) (s : State) : (drivePin b p s).producer = s.producer := by unfold drivePin; split <;> rfl
@[simp] theorem drivePin_consumer (b : Bit) (p : PinId) (s : State) : (drivePin b p s).consumer = s.consumer := by unfold drivePin; split <;> rfl
@[simp] theorem drivePin_sched (b : Bit) (p : PinId) (s : State) : (drivePin b p s).sched = s.sched := by unfold drivePin; split <;> rfl

@[simp] theorem driveRow_cfg (b : Bit) (r : Nat) (s : State) : (driveRow b r s).cfg = s.cfg := by unfold driveRow; split <;> simp
@[simp] theorem driveRow_active (b : Bit) (r : Nat) (s : State) : (driveRow b r s).active = s.active := by unfold driveRow; split <;> simp
@[simp] theorem driveRow_inited (b : Bit) (r : Nat) (s : State) : (driveRow b r s).inited = s.inited := by unfold driveRow; split <;> simp
@[simp] theorem driveRow_phase (b : Bit) (r : Nat) (s : State) : (driveRow b r s).phase = s.phase := by unfold driveRow; split <;> simp
@[simp] theorem driveRow_cnt (b : Bit) (r : Nat) (s : State) : (driveRow b r s).cnt = s.cnt := by unfold driveRow; split <;> simp
@[simp] theorem driveRow_trig (b : Bit) (r : Nat) (s : State) : (driveRow b r s).trig = s.trig := by unfold driveRow; split <;> simp
@[simp] theorem driveRow_hstep (b : Bit) (r : Nat) (s : State) : (driveRow b r s).hstep = s.hstep := by unfold driveRow; split <;> simp
@[simp] theorem driveRow_hkey (b : Bit) (r : Nat) (s : State) : (driveRow b r s).hkey = s.hkey := by unfold driveRow; split <;> simp
@[simp] theorem driveRow_rbValid (b : Bit) (r : Nat) (s : State) : (driveRow b r s).rbValid = s.rbValid := by unfold driveRow; split <;> simp
@[simp] theorem driveRow_rbCap (b : Bit) (r : Nat) (s : State) : (driveRow b r s).rbCap = s.rbCap := by unfold driveRow; split <;> simp
@[simp] theorem driveRow_head (b : Bit) (r : Nat) (s : State) : (driveRow b r s).head = s.head := by unfold driveRow; split <;> simp
@[simp] theorem driveRow_tail (b : Bit) (r : Nat) (s : State) : (driveRow b r s).tail = s.tail := by unfold driveRow; split <;> simp
@[simp] theorem driveRow_buf (b : Bit) (r : Nat) (s : State) : (driveRow b r s).buf = s.buf := by unfold driveRow; split <;> simp
@[simp] theorem driveRow_pins (b : Bit) (r : Nat) (s : State) : (driveRow b r s).pins = s.pins := by unfold driveRow; split <;> simp
@[simp] theorem driveRow_ms (b : Bit) (r : Nat) (s : State) : (driveRow b r s).ms = s.ms := by unfold driveRow; split <;> simp
@[simp] theorem driveRow_pressed (b : Bit) (r : Nat) (s : State) : (driveRow b r s).pressed = s.pressed := by unfold driveRow; split <;> simp
@[simp] theorem driveRow_resp (b : Bit) (r : Nat) (s : State) : (driveRow b r s).resp = s.resp := by unfold driveRow; split <;> simp
@[simp] theorem driveRow_delay (b : Bit) (r : Nat) (s : State) : (driveRow b r s).delay = s.delay := by unfold driveRow; split <;> simp
@[simp] theorem driveRow_mainDelay (b : Bit) (r : Nat) (s : State) : (driveRow b r s).mainDelay = s.mainDelay := by unfold driveRow; split <;> simp
@[simp] theorem driveRow_issuer (b : Bit) (r : Nat) (s : State) : (driveRow b r s).issuer = s.issuer := by unfold driveRow; split <;> simp
@[simp] theorem driveRow_producer (b : Bit) (r : Nat) (s : State) : (driveRow b r s).producer = s.producer := by unfold driveRow; split <;> simp
@[simp] theorem driveRow_consumer (b : Bit) (r : Nat) (s : State) : (driveRow b r s).consumer = s.consumer := by unfold driveRow; split <;> simp
@[simp] theorem driveRow_sched (b : Bit) (r : Nat) (s : State) : (driveRow b r s).sched = s.sched := by unfold driveRow; split <;> simp

/-! ## Ring, keys, port -/

@[simp] theorem dropOldest_cfg (s : State) : (dropOldest s).cfg = s.cfg := by unfold dropOldest; split <;> rfl
@[simp] theorem dropOldest_active (s : State) : (dropOldest s).active = s.active := by unfold dropOldest; split <;> rfl
@[simp] theorem dropOldest_inited (s : State) : (dropOldest s).inited = s.inited := by unfold dropOldest; split <;> rfl
@[simp] theorem dropOldest_phase (s : State) : (dropOldest s).phase = s.phase := by unfold dropOldest; split <;> rfl
@[simp] theorem dropOldest_cnt (s : State) : (dropOldest s).cnt = s.cnt := by unfold dropOldest; split <;> rfl
@[simp] theorem dropOldest_trig (s : State) : (dropOldest s).trig = s.trig := by unfold dropOldest; split <;> rfl
@[simp] theorem dropOldest_hstep (s : State) : (dropOldest s).hstep = s.hstep := by unfold dropOldest; split <;> rfl
@[simp] theorem dropOldest_hkey (s : State) : (dropOldest s).hkey = s.hkey := by unfold dropOldest; split <;> rfl
@[simp] theorem dropOldest_rbValid (s : State) : (dropOldest s).rbValid = s.rbValid := by unfold dropOldest; split <;> rfl
@[simp] theorem dropOldest_rbCap (s : State) : (dropOldest s).rbCap = s.rbCap := by unfold dropOldest; split <;> rfl
@[simp] theorem dropOldest_head (s : State) : (dropOldest s).head = s.head := by unfold dropOldest; split <;> rfl
@[simp] theorem dropOldest_buf (s : State) : (dropOldest s).buf = s.buf := by unfold dropOldest; split <;> rfl
@[simp] theorem dropOldest_rowOut (s : State) : (dropOldest s).rowOut = s.rowOut := by unfold dropOldest; split <;> rfl
@[simp] theorem dropOldest_pins (s : State) : (dropOldest s).pins = s.pins := by unfold dropOldest; split <;> rfl
@[simp] theorem dropOldest_lines (s : State) : (dropOldest s).lines = s.lines := by unfold dropOldest; split <;> rfl
@[simp] theorem dropOldest_ms (s : State) : (dropOldest s).ms = s.ms := by unfold dropOldest; split <;> rfl
@[simp] theorem dropOldest_pressed (s : State) : (dropOldest s).pressed = s.pressed := by unfold dropOldest; split <;> rfl
@[simp] theorem dropOldest_resp (s : State) : (dropOldest s).resp = s.resp := by unfold dropOldest; split <;> rfl
@[simp] theorem dropOldest_delay (s : State) : (dropOldest s).delay = s.delay := by unfold dropOldest; split <;> rfl
@[simp] theorem dropOldest_mainDelay (s : State) : (dropOldest s).mainDelay = s.mainDelay := by unfold dropOldest; split <;> rfl
@[simp] theorem dropOldest_issuer (s : State) : (dropOldest s).issuer = s.issuer := by unfold dropOldest; split <;> rfl
@[simp] theorem dropOldest_marks (s : State) : (dropOldest s).marks = s.marks := by unfold dropOldest; split <;> rfl
@[simp] theorem dropOldest_draws (s : State) : (dropOldest s).draws = s.draws := by unfold dropOldest; split <;> rfl
@[simp] theorem dropOldest_producer (s : State) : (dropOldest s).producer = s.producer := by unfold dropOldest; split <;> rfl
@[simp] theorem dropOldest_consumer (s : State) : (dropOldest s).consumer = s.consumer := by unfold dropOldest; split <;> rfl
@[simp] theorem dropOldest_sched (s : State) : (dropOldest s).sched = s.sched := by unfold dropOldest; split <;> rfl

@[simp] theorem ringFlush_cfg (s : State) : (ringFlush s).cfg = s.cfg := rfl
@[simp] theorem ringFlush_active (s : State) : (ringFlush s).active = s.active := rfl
@[simp] theorem ringFlush_inited (s : State) : (ringFlush s).inited = s.inited := rfl
@[simp] theorem ringFlush_phase (s : State) : (ringFlush s).phase = s.phase := rfl
@[simp] theorem ringFlush_cnt (s : State) : (ringFlush s).cnt = s.cnt := rfl
@[simp] theorem ringFlush_trig (s : State) : (ringFlush s).trig = s.trig := rfl
@[simp] theorem ringFlush_hstep (s : State) : (ringFlush s).hstep = s.hstep := rfl
@[simp] theorem ringFlush_hkey (s : State) : (ringFlush s).hkey = s.hkey := rfl
@[simp] theorem ringFlush_rbValid (s : State) : (ringFlush s).rbValid = s.rbValid := rfl
@[simp] theorem ringFlush_rbCap (s : State) : (ringFlush s).rbCap = s.rbCap := rfl
@[simp] theorem ringFlush_buf (s : State) : (ringFlush s).buf = s.buf := rfl
@[simp] theorem ringFlush_rowOut (s : State) : (ringFlush s).rowOut = s.rowOut := rfl
@[simp] theorem ringFlush_pins (s : State) : (ringFlush s).pins = s.pins := rfl
@[simp] theorem ringFlush_lines (s : State) : (ringFlush s).lines = s.lines := rfl
@[simp] theorem ringFlush_ms (s : State) : (ringFlush s).ms = s.ms := rfl
@[simp] theorem ringFlush_pressed (s : State) : (ringFlush s).pressed = s.pressed := rfl
@[simp] theorem ringFlush_resp (s : State) : (ringFlush s).resp = s.resp := rfl
@[simp] theorem ringFlush_delay (s : State) : (ringFlush s).delay = s.delay := rfl
@[simp] theorem ringFlush_mainDelay (s : State) : (ringFlush s).mainDelay = s.mainDelay := rfl
@[simp] theorem ringFlush_issuer (s : State) : (ringFlush s).issuer = s.issuer := rfl
@[simp] theorem ringFlush_marks (s : State) : (ringFlush s).marks = s.marks := rfl
@[simp] theorem ringFlush_draws (s : State) : (ringFlush s).draws = s.draws := rfl
@[simp] theorem ringFlush_producer (s : State) : (ringFlush s).producer = s.producer := rfl
@[simp] theorem ringFlush_consumer (s : State) : (ringFlush s).consumer = s.consumer := rfl
@[simp] theorem ringFlush_sched (s : State) : (ringFlush s).sched = s.sched := rfl

@[simp] theorem resetScanState_cfg (s : State) : (resetScanState s).cfg = s.cfg := rfl
@[simp] theorem resetScanState_active (s : State) : (resetScanState s).active = s.active := rfl
@[simp] theorem resetScanState_inited (s : State) : (resetScanState s).inited = s.inited := rfl
@[simp] theorem resetScanState_rbValid (s : State) : (resetScanState s).rbValid = s.rbValid := rfl
@[simp] theorem resetScanState_rbCap (s : State) : (resetScanState s).rbCap = s.rbCap := rfl
@[simp] theorem resetScanState_head (s : State) : (resetScanState s).head = s.head := rfl
@[simp] theorem resetScanState_tail (s : State) : (resetScanState s).tail = s.tail := rfl
@[simp] theorem resetScanState_buf (s : State) : (resetScanState s).buf = s.buf := rfl
@[simp] theorem resetScanState_rowOut (s : State) : (resetScanState s).rowOut = s.rowOut := rfl
@[simp] theorem resetScanState_pins (s : State) : (resetScanState s).pins = s.pins := rfl
@[simp] theorem resetScanState_lines (s : State) : (resetScanState s).lines = s.lines := rfl
@[simp] theorem resetScanState_ms (s : State) : (resetScanState s).ms = s.ms := rfl
@[simp] theorem resetScanState_pressed (s : State) : (resetScanState s).pressed = s.pressed := rfl
@[simp] theorem resetScanState_resp (s : State) : (resetScanState s).resp = s.resp := rfl
@[simp] theorem resetScanState_delay (s : State) : (resetScanState s).delay = s.delay := rfl
@[simp] theorem resetScanState_mainDelay (s : State) : (resetScanState s).mainDelay = s.mainDelay := rfl
@[simp] theorem resetScanState_issuer (s : State) : (resetScanState s).issuer = s.issuer := rfl
@[simp] theorem resetScanState_marks (s : State) : (resetScanState s).marks = s.marks := rfl
@[simp] theorem resetScanState_draws (s : State) : (resetScanState s).draws = s.draws := rfl
@[simp] theorem resetScanState_producer (s : State) : (resetScanState s).producer = s.producer := rfl
@[simp] theorem resetScanState_consumer (s : State) : (resetScanState s).consumer = s.consumer := rfl
@[simp] theorem resetScanState_sched (s : State) : (resetScanState s).sched = s.sched := rfl

@[simp] theorem enterHandler_cfg (s : State) : (enterHandler s).cfg = s.cfg := rfl
@[simp] theorem enterHandler_active (s : State) : (enterHandler s).active = s.active := rfl
@[simp] theorem enterHandler_inited (s : State) : (enterHandler s).inited = s.inited := rfl
@[simp] theorem enterHandler_phase (s : State) : (enterHandler s).phase = s.phase := rfl
@[simp] theorem enterHandler_cnt (s : State) : (enterHandler s).cnt = s.cnt := rfl
@[simp] theorem enterHandler_hkey (s : State) : (enterHandler s).hkey = s.hkey := rfl
@[simp] theorem enterHandler_rbValid (s : State) : (enterHandler s).rbValid = s.rbValid := rfl
@[simp] theorem enterHandler_rbCap (s : State) : (enterHandler s).rbCap = s.rbCap := rfl
@[simp] theorem enterHandler_head (s : State) : (enterHandler s).head = s.head := rfl
@[simp] theorem enterHandler_tail (s : State) : (enterHandler s).tail = s.tail := rfl
@[simp] theorem enterHandler_buf (s : State) : (enterHandler s).buf = s.buf := rfl
@[simp] theorem enterHandler_rowOut (s : State) : (enterHandler s).rowOut = s.rowOut := rfl
@[simp] theorem enterHandler_pins (s : State) : (enterHandler s).pins = s.pins := rfl
@[simp] theorem enterHandler_lines (s : State) : (enterHandler s).lines = s.lines := rfl
@[simp] theorem enterHandler_ms (s : State) : (enterHandler s).ms = s.ms := rfl
@[simp] theorem enterHandler_pressed (s : State) : (enterHandler s).pressed = s.pressed := rfl
@[simp] theorem enterHandler_delay (s : State) : (enterHandler s).delay = s.delay := rfl
@[simp] theorem enterHandler_mainDelay (s : State) : (enterHandler s).mainDelay = s.mainDelay := rfl
@[simp] theorem enterHandler_issuer (s : State) : (enterHandler s).issuer = s.issuer := rfl
@[simp] theorem enterHandler_marks (s : State) : (enterHandler s).marks = s.marks := rfl
@[simp] theorem enterHandler_draws (s : State) : (enterHandler s).draws = s.draws := rfl
@[simp] theorem enterHandler_producer (s : State) : (enterHandler s).producer = s.producer := rfl
@[simp] theorem enterHandler_consumer (s : State) : (enterHandler s).consumer = s.consumer := rfl
@[simp] theorem enterHandler_sched (s : State) : (enterHandler s).sched = s.sched := rfl

@[simp] theorem setPressed_cfg (l : List Key) (s : State) : (setPressed l s).cfg = s.cfg := rfl
@[simp] theorem setPressed_active (l : List Key) (s : State) : (setPressed l s).active = s.active := rfl
@[simp] theorem setPressed_inited (l : List Key) (s : State) : (setPressed l s).inited = s.inited := rfl
@[simp] theorem setPressed_phase (l : List Key) (s : State) : (setPressed l s).phase = s.phase := rfl
@[simp] theorem setPressed_cnt (l : List Key) (s : State) : (setPressed l s).cnt = s.cnt := rfl
@[simp] theorem setPressed_trig (l : List Key) (s : State) : (setPressed l s).trig = s.trig := rfl
@[simp] theorem setPressed_hstep (l : List Key) (s : State) : (setPressed l s).hstep = s.hstep := rfl
@[simp] theorem setPressed_hkey (l : List Key) (s : State) : (setPressed l s).hkey = s.hkey := rfl
@[simp] theorem setPressed_rbValid (l : List Key) (s : State) : (setPressed l s).rbValid = s.rbValid := rfl
@[simp] theorem setPressed_rbCap (l : List Key) (s : State) : (setPressed l s).rbCap = s.rbCap := rfl
@[simp] theorem setPressed_head (l : List Key) (s : State) : (setPressed l s).head = s.head := rfl
@[simp] theorem setPressed_tail (l : List Key) (s : State) : (setPressed l s).tail = s.tail := rfl
@[simp] theorem setPressed_buf (l : List Key) (s : State) : (setPressed l s).buf = s.buf := rfl
@[simp] theorem setPressed_rowOut (l : List Key) (s : State) : (setPressed l s).rowOut = s.rowOut := rfl
@[simp] theorem setPressed_pins (l : List Key) (s : State) : (setPressed l s).pins = s.pins := rfl
@[simp] theorem setPressed_ms (l : List Key) (s : State) : (setPressed l s).ms = s.ms := rfl
@[simp] theorem setPressed_resp (l : List Key) (s : State) : (setPressed l s).resp = s.resp := rfl
@[simp] theorem setPressed_delay (l : List Key) (s : State) : (setPressed l s).delay = s.delay := rfl
@[simp] theorem setPressed_mainDelay (l : List Key) (s : State) : (setPressed l s).mainDelay = s.mainDelay := rfl
@[simp] theorem setPressed_issuer (l : List Key) (s : State) : (setPressed l s).issuer = s.issuer := rfl
@[simp] theorem setPressed_producer (l : List Key) (s : State) : (setPressed l s).producer = s.producer := rfl
@[simp] theorem setPressed_consumer (l : List Key) (s : State) : (setPressed l s).consumer = s.consumer := rfl
@[simp] theorem setPressed_sched (l : List Key) (s : State) : (setPressed l s).sched = s.sched := rfl

@[simp] theorem makeReady_cfg (c : Context) (w : CmdWord) (s : State) : (makeReady c w s).cfg = s.cfg := by cases c <;> rfl
@[simp] theorem makeReady_active (c : Context) (w : CmdWord) (s : State) : (makeReady c w s).active = s.active := by cases c <;> rfl
@[simp] theorem makeReady_inited (c : Context) (w : CmdWord) (s : State) : (makeReady c w s).inited = s.inited := by cases c <;> rfl
@[simp] theorem makeReady_phase (c : Context) (w : CmdWord) (s : State) : (makeReady c w s).phase = s.phase := by cases c <;> rfl
@[simp] theorem makeReady_cnt (c : Context) (w : CmdWord) (s : State) : (makeReady c w s).cnt = s.cnt := by cases c <;> rfl
@[simp] theorem makeReady_trig (c : Context) (w : CmdWord) (s : State) : (makeReady c w s).trig = s.trig := by cases c <;> rfl
@[simp] theorem makeReady_hstep (c : Context) (w : CmdWord) (s : State) : (makeReady c w s).hstep = s.hstep := by cases c <;> rfl
@[simp] theorem makeReady_hkey (c : Context) (w : CmdWord) (s : State) : (makeReady c w s).hkey = s.hkey := by cases c <;> rfl
@[simp] theorem makeReady_rbValid (c : Context) (w : CmdWord) (s : State) : (makeReady c w s).rbValid = s.rbValid := by cases c <;> rfl
@[simp] theorem makeReady_rbCap (c : Context) (w : CmdWord) (s : State) : (makeReady c w s).rbCap = s.rbCap := by cases c <;> rfl
@[simp] theorem makeReady_head (c : Context) (w : CmdWord) (s : State) : (makeReady c w s).head = s.head := by cases c <;> rfl
@[simp] theorem makeReady_tail (c : Context) (w : CmdWord) (s : State) : (makeReady c w s).tail = s.tail := by cases c <;> rfl
@[simp] theorem makeReady_buf (c : Context) (w : CmdWord) (s : State) : (makeReady c w s).buf = s.buf := by cases c <;> rfl
@[simp] theorem makeReady_rowOut (c : Context) (w : CmdWord) (s : State) : (makeReady c w s).rowOut = s.rowOut := by cases c <;> rfl
@[simp] theorem makeReady_pins (c : Context) (w : CmdWord) (s : State) : (makeReady c w s).pins = s.pins := by cases c <;> rfl
@[simp] theorem makeReady_lines (c : Context) (w : CmdWord) (s : State) : (makeReady c w s).lines = s.lines := by cases c <;> rfl
@[simp] theorem makeReady_ms (c : Context) (w : CmdWord) (s : State) : (makeReady c w s).ms = s.ms := by cases c <;> rfl
@[simp] theorem makeReady_pressed (c : Context) (w : CmdWord) (s : State) : (makeReady c w s).pressed = s.pressed := by cases c <;> rfl
@[simp] theorem makeReady_resp (c : Context) (w : CmdWord) (s : State) : (makeReady c w s).resp = s.resp := by cases c <;> rfl
@[simp] theorem makeReady_delay (c : Context) (w : CmdWord) (s : State) : (makeReady c w s).delay = s.delay := by cases c <;> rfl
@[simp] theorem makeReady_mainDelay (c : Context) (w : CmdWord) (s : State) : (makeReady c w s).mainDelay = s.mainDelay := by cases c <;> rfl
@[simp] theorem makeReady_issuer (c : Context) (w : CmdWord) (s : State) : (makeReady c w s).issuer = s.issuer := by cases c <;> rfl
@[simp] theorem makeReady_marks (c : Context) (w : CmdWord) (s : State) : (makeReady c w s).marks = s.marks := by cases c <;> rfl
@[simp] theorem makeReady_draws (c : Context) (w : CmdWord) (s : State) : (makeReady c w s).draws = s.draws := by cases c <;> rfl
@[simp] theorem makeReady_sched (c : Context) (w : CmdWord) (s : State) : (makeReady c w s).sched = s.sched := by cases c <;> rfl

/-! ## Delays and the clock -/

@[simp] theorem holdDelay_cfg (c : Context) (d : Delay) (s : State) : (holdDelay c d s).cfg = s.cfg := by cases c <;> rfl
@[simp] theorem holdDelay_active (c : Context) (d : Delay) (s : State) : (holdDelay c d s).active = s.active := by cases c <;> rfl
@[simp] theorem holdDelay_inited (c : Context) (d : Delay) (s : State) : (holdDelay c d s).inited = s.inited := by cases c <;> rfl
@[simp] theorem holdDelay_phase (c : Context) (d : Delay) (s : State) : (holdDelay c d s).phase = s.phase := by cases c <;> rfl
@[simp] theorem holdDelay_cnt (c : Context) (d : Delay) (s : State) : (holdDelay c d s).cnt = s.cnt := by cases c <;> rfl
@[simp] theorem holdDelay_trig (c : Context) (d : Delay) (s : State) : (holdDelay c d s).trig = s.trig := by cases c <;> rfl
@[simp] theorem holdDelay_hstep (c : Context) (d : Delay) (s : State) : (holdDelay c d s).hstep = s.hstep := by cases c <;> rfl
@[simp] theorem holdDelay_hkey (c : Context) (d : Delay) (s : State) : (holdDelay c d s).hkey = s.hkey := by cases c <;> rfl
@[simp] theorem holdDelay_rbValid (c : Context) (d : Delay) (s : State) : (holdDelay c d s).rbValid = s.rbValid := by cases c <;> rfl
@[simp] theorem holdDelay_rbCap (c : Context) (d : Delay) (s : State) : (holdDelay c d s).rbCap = s.rbCap := by cases c <;> rfl
@[simp] theorem holdDelay_head (c : Context) (d : Delay) (s : State) : (holdDelay c d s).head = s.head := by cases c <;> rfl
@[simp] theorem holdDelay_tail (c : Context) (d : Delay) (s : State) : (holdDelay c d s).tail = s.tail := by cases c <;> rfl
@[simp] theorem holdDelay_buf (c : Context) (d : Delay) (s : State) : (holdDelay c d s).buf = s.buf := by cases c <;> rfl
@[simp] theorem holdDelay_rowOut (c : Context) (d : Delay) (s : State) : (holdDelay c d s).rowOut = s.rowOut := by cases c <;> rfl
@[simp] theorem holdDelay_pins (c : Context) (d : Delay) (s : State) : (holdDelay c d s).pins = s.pins := by cases c <;> rfl
@[simp] theorem holdDelay_lines (c : Context) (d : Delay) (s : State) : (holdDelay c d s).lines = s.lines := by cases c <;> rfl
@[simp] theorem holdDelay_ms (c : Context) (d : Delay) (s : State) : (holdDelay c d s).ms = s.ms := by cases c <;> rfl
@[simp] theorem holdDelay_pressed (c : Context) (d : Delay) (s : State) : (holdDelay c d s).pressed = s.pressed := by cases c <;> rfl
@[simp] theorem holdDelay_issuer (c : Context) (d : Delay) (s : State) : (holdDelay c d s).issuer = s.issuer := by cases c <;> rfl
@[simp] theorem holdDelay_marks (c : Context) (d : Delay) (s : State) : (holdDelay c d s).marks = s.marks := by cases c <;> rfl
@[simp] theorem holdDelay_draws (c : Context) (d : Delay) (s : State) : (holdDelay c d s).draws = s.draws := by cases c <;> rfl
@[simp] theorem holdDelay_producer (c : Context) (d : Delay) (s : State) : (holdDelay c d s).producer = s.producer := by cases c <;> rfl
@[simp] theorem holdDelay_consumer (c : Context) (d : Delay) (s : State) : (holdDelay c d s).consumer = s.consumer := by cases c <;> rfl
@[simp] theorem holdDelay_sched (c : Context) (d : Delay) (s : State) : (holdDelay c d s).sched = s.sched := by cases c <;> rfl
@[simp] theorem holdDelay_resp (c : Context) (d : Delay) (s : State) : (holdDelay c d s).resp = none := by cases c <;> rfl
@[simp] theorem holdDelay_delay (c : Context) (d : Delay) (s : State) :
    (holdDelay c d s).delay = if c = .producer then some d else s.delay := by cases c <;> rfl
@[simp] theorem holdDelay_mainDelay (c : Context) (d : Delay) (s : State) :
    (holdDelay c d s).mainDelay = if c = .consumer then some d else s.mainDelay := by cases c <;> rfl

@[simp] theorem advanceClock_cfg (d : Nat) (s : State) : (advanceClock d s).cfg = s.cfg := rfl
@[simp] theorem advanceClock_active (d : Nat) (s : State) : (advanceClock d s).active = s.active := rfl
@[simp] theorem advanceClock_inited (d : Nat) (s : State) : (advanceClock d s).inited = s.inited := rfl
@[simp] theorem advanceClock_phase (d : Nat) (s : State) : (advanceClock d s).phase = s.phase := rfl
@[simp] theorem advanceClock_cnt (d : Nat) (s : State) : (advanceClock d s).cnt = s.cnt := rfl
@[simp] theorem advanceClock_trig (d : Nat) (s : State) : (advanceClock d s).trig = s.trig := rfl
@[simp] theorem advanceClock_hstep (d : Nat) (s : State) : (advanceClock d s).hstep = s.hstep := rfl
@[simp] theorem advanceClock_hkey (d : Nat) (s : State) : (advanceClock d s).hkey = s.hkey := rfl
@[simp] theorem advanceClock_rbValid (d : Nat) (s : State) : (advanceClock d s).rbValid = s.rbValid := rfl
@[simp] theorem advanceClock_rbCap (d : Nat) (s : State) : (advanceClock d s).rbCap = s.rbCap := rfl
@[simp] theorem advanceClock_head (d : Nat) (s : State) : (advanceClock d s).head = s.head := rfl
@[simp] theorem advanceClock_tail (d : Nat) (s : State) : (advanceClock d s).tail = s.tail := rfl
@[simp] theorem advanceClock_buf (d : Nat) (s : State) : (advanceClock d s).buf = s.buf := rfl
@[simp] theorem advanceClock_rowOut (d : Nat) (s : State) : (advanceClock d s).rowOut = s.rowOut := rfl
@[simp] theorem advanceClock_pins (d : Nat) (s : State) : (advanceClock d s).pins = s.pins := rfl
@[simp] theorem advanceClock_lines (d : Nat) (s : State) : (advanceClock d s).lines = s.lines := rfl
@[simp] theorem advanceClock_pressed (d : Nat) (s : State) : (advanceClock d s).pressed = s.pressed := rfl
@[simp] theorem advanceClock_issuer (d : Nat) (s : State) : (advanceClock d s).issuer = s.issuer := rfl
@[simp] theorem advanceClock_draws (d : Nat) (s : State) : (advanceClock d s).draws = s.draws := rfl
@[simp] theorem advanceClock_producer (d : Nat) (s : State) : (advanceClock d s).producer = s.producer := rfl
@[simp] theorem advanceClock_consumer (d : Nat) (s : State) : (advanceClock d s).consumer = s.consumer := rfl
@[simp] theorem advanceClock_sched (d : Nat) (s : State) : (advanceClock d s).sched = s.sched := rfl
@[simp] theorem advanceClock_resp (d : Nat) (s : State) : (advanceClock d s).resp = s.resp := rfl
@[simp] theorem advanceClock_delay (d : Nat) (s : State) : (advanceClock d s).delay = s.delay := rfl
@[simp] theorem advanceClock_mainDelay (d : Nat) (s : State) : (advanceClock d s).mainDelay = s.mainDelay := rfl
@[simp] theorem advanceClock_ms (d : Nat) (s : State) : (advanceClock d s).ms = (s.ms + d) % 2 ^ s.cfg.msW := rfl

end Machine
end Sys2Proof
end

