-- ==== Sys2Proof/Laws/Scan.lean ====
section
/-! SUPPORT. The scan's frame: driving rows and scanning change nothing but the row levels, the interrupt lines and the model's own draws and marks. -/

namespace Sys2Proof
namespace Machine

/-- `t` differs from `s` at most in the row levels, the interrupt lines, the draws and the marks. -/
def ScanFrame (s t : State) : Prop :=
  t = { s with rowOut := t.rowOut, lines := t.lines, draws := t.draws, marks := t.marks }

theorem ScanFrame.refl (s : State) : ScanFrame s s := rfl

theorem ScanFrame.trans {s t u : State} (h : ScanFrame s t) (k : ScanFrame t u) : ScanFrame s u := by
  unfold ScanFrame at *
  rw [k, h]

theorem drivePin_frame (b : Bit) (p : PinId) (s : State) : ScanFrame s (drivePin b p s) := by
  unfold drivePin
  split <;> rfl

theorem driveRow_frame (b : Bit) (r : Nat) (s : State) : ScanFrame s (driveRow b r s) := by
  unfold driveRow
  split
  · exact drivePin_frame b _ s
  · rfl

theorem foldl_driveRow_frame (b : Bit) (l : List Nat) (s : State) :
    ScanFrame s (l.foldl (fun t r => driveRow b r t) s) := by
  induction l generalizing s with
  | nil => rfl
  | cons r l ih => exact (driveRow_frame b r s).trans (ih _)

theorem driveRows_frame (b : Bit) (s : State) : ScanFrame s (driveRows b s) := foldl_driveRow_frame b _ s

theorem coreScanFrom_frame (l : List Nat) (s : State) : ScanFrame s (coreScanFrom l s).1 := by
  induction l generalizing s with
  | nil => rfl
  | cons r l ih =>
    unfold coreScanFrom
    simp only
    split
    · exact (driveRow_frame false r s).trans (driveRow_frame true r _)
    · exact ((driveRow_frame false r s).trans (driveRow_frame true r _)).trans (ih _)

theorem coreScan_frame (s : State) : ScanFrame s (coreScan s).1 := coreScanFrom_frame _ s

/-- A scan changes nothing but row levels, lines, draws and marks (41 R125, R129). -/
theorem scan_frame (s : State) : ScanFrame s (scan s).1 := by
  unfold scan
  split
  · exact coreScan_frame s
  · exact ((driveRows_frame true s).trans (coreScan_frame _)).trans (driveRows_frame false _)

@[simp] theorem driveRows_cfg (b : Bit) (s : State) : (driveRows b s).cfg = s.cfg := by rw [driveRows_frame b s]
@[simp] theorem driveRows_active (b : Bit) (s : State) : (driveRows b s).active = s.active := by rw [driveRows_frame b s]
@[simp] theorem driveRows_inited (b : Bit) (s : State) : (driveRows b s).inited = s.inited := by rw [driveRows_frame b s]
@[simp] theorem driveRows_phase (b : Bit) (s : State) : (driveRows b s).phase = s.phase := by rw [driveRows_frame b s]
@[simp] theorem driveRows_cnt (b : Bit) (s : State) : (driveRows b s).cnt = s.cnt := by rw [driveRows_frame b s]
@[simp] theorem driveRows_trig (b : Bit) (s : State) : (driveRows b s).trig = s.trig := by rw [driveRows_frame b s]
@[simp] theorem driveRows_hstep (b : Bit) (s : State) : (driveRows b s).hstep = s.hstep := by rw [driveRows_frame b s]
@[simp] theorem driveRows_hkey (b : Bit) (s : State) : (driveRows b s).hkey = s.hkey := by rw [driveRows_frame b s]
@[simp] theorem driveRows_rbValid (b : Bit) (s : State) : (driveRows b s).rbValid = s.rbValid := by rw [driveRows_frame b s]
@[simp] theorem driveRows_rbCap (b : Bit) (s : State) : (driveRows b s).rbCap = s.rbCap := by rw [driveRows_frame b s]
@[simp] theorem driveRows_head (b : Bit) (s : State) : (driveRows b s).head = s.head := by rw [driveRows_frame b s]
@[simp] theorem driveRows_tail (b : Bit) (s : State) : (driveRows b s).tail = s.tail := by rw [driveRows_frame b s]
@[simp] theorem driveRows_buf (b : Bit) (s : State) : (driveRows b s).buf = s.buf := by rw [driveRows_frame b s]
@[simp] theorem driveRows_pins (b : Bit) (s : State) : (driveRows b s).pins = s.pins := by rw [driveRows_frame b s]
@[simp] theorem driveRows_ms (b : Bit) (s : State) : (driveRows b s).ms = s.ms := by rw [driveRows_frame b s]
@[simp] theorem driveRows_pressed (b : Bit) (s : State) : (driveRows b s).pressed = s.pressed := by rw [driveRows_frame b s]
@[simp] theorem driveRows_resp (b : Bit) (s : State) : (driveRows b s).resp = s.resp := by rw [driveRows_frame b s]
@[simp] theorem driveRows_delay (b : Bit) (s : State) : (driveRows b s).delay = s.delay := by rw [driveRows_frame b s]
@[simp] theorem driveRows_mainDelay (b : Bit) (s : State) : (driveRows b s).mainDelay = s.mainDelay := by rw [driveRows_frame b s]
@[simp] theorem driveRows_issuer (b : Bit) (s : State) : (driveRows b s).issuer = s.issuer := by rw [driveRows_frame b s]
@[simp] theorem driveRows_producer (b : Bit) (s : State) : (driveRows b s).producer = s.producer := by rw [driveRows_frame b s]
@[simp] theorem driveRows_consumer (b : Bit) (s : State) : (driveRows b s).consumer = s.consumer := by rw [driveRows_frame b s]
@[simp] theorem driveRows_sched (b : Bit) (s : State) : (driveRows b s).sched = s.sched := by rw [driveRows_frame b s]

@[simp] theorem coreScan_cfg (s : State) : ((coreScan s).1).cfg = s.cfg := by rw [coreScan_frame s]
@[simp] theorem coreScan_active (s : State) : ((coreScan s).1).active = s.active := by rw [coreScan_frame s]
@[simp] theorem coreScan_inited (s : State) : ((coreScan s).1).inited = s.inited := by rw [coreScan_frame s]
@[simp] theorem coreScan_phase (s : State) : ((coreScan s).1).phase = s.phase := by rw [coreScan_frame s]
@[simp] theorem coreScan_cnt (s : State) : ((coreScan s).1).cnt = s.cnt := by rw [coreScan_frame s]
@[simp] theorem coreScan_trig (s : State) : ((coreScan s).1).trig = s.trig := by rw [coreScan_frame s]
@[simp] theorem coreScan_hstep (s : State) : ((coreScan s).1).hstep = s.hstep := by rw [coreScan_frame s]
@[simp] theorem coreScan_hkey (s : State) : ((coreScan s).1).hkey = s.hkey := by rw [coreScan_frame s]
@[simp] theorem coreScan_rbValid (s : State) : ((coreScan s).1).rbValid = s.rbValid := by rw [coreScan_frame s]
@[simp] theorem coreScan_rbCap (s : State) : ((coreScan s).1).rbCap = s.rbCap := by rw [coreScan_frame s]
@[simp] theorem coreScan_head (s : State) : ((coreScan s).1).head = s.head := by rw [coreScan_frame s]
@[simp] theorem coreScan_tail (s : State) : ((coreScan s).1).tail = s.tail := by rw [coreScan_frame s]
@[simp] theorem coreScan_buf (s : State) : ((coreScan s).1).buf = s.buf := by rw [coreScan_frame s]
@[simp] theorem coreScan_pins (s : State) : ((coreScan s).1).pins = s.pins := by rw [coreScan_frame s]
@[simp] theorem coreScan_ms (s : State) : ((coreScan s).1).ms = s.ms := by rw [coreScan_frame s]
@[simp] theorem coreScan_pressed (s : State) : ((coreScan s).1).pressed = s.pressed := by rw [coreScan_frame s]
@[simp] theorem coreScan_resp (s : State) : ((coreScan s).1).resp = s.resp := by rw [coreScan_frame s]
@[simp] theorem coreScan_delay (s : State) : ((coreScan s).1).delay = s.delay := by rw [coreScan_frame s]
@[simp] theorem coreScan_mainDelay (s : State) : ((coreScan s).1).mainDelay = s.mainDelay := by rw [coreScan_frame s]
@[simp] theorem coreScan_issuer (s : State) : ((coreScan s).1).issuer = s.issuer := by rw [coreScan_frame s]
@[simp] theorem coreScan_producer (s : State) : ((coreScan s).1).producer = s.producer := by rw [coreScan_frame s]
@[simp] theorem coreScan_consumer (s : State) : ((coreScan s).1).consumer = s.consumer := by rw [coreScan_frame s]
@[simp] theorem coreScan_sched (s : State) : ((coreScan s).1).sched = s.sched := by rw [coreScan_frame s]

@[simp] theorem scan_cfg (s : State) : ((scan s).1).cfg = s.cfg := by rw [scan_frame s]
@[simp] theorem scan_active (s : State) : ((scan s).1).active = s.active := by rw [scan_frame s]
@[simp] theorem scan_inited (s : State) : ((scan s).1).inited = s.inited := by rw [scan_frame s]
@[simp] theorem scan_phase (s : State) : ((scan s).1).phase = s.phase := by rw [scan_frame s]
@[simp] theorem scan_cnt (s : State) : ((scan s).1).cnt = s.cnt := by rw [scan_frame s]
@[simp] theorem scan_trig (s : State) : ((scan s).1).trig = s.trig := by rw [scan_frame s]
@[simp] theorem scan_hstep (s : State) : ((scan s).1).hstep = s.hstep := by rw [scan_frame s]
@[simp] theorem scan_hkey (s : State) : ((scan s).1).hkey = s.hkey := by rw [scan_frame s]
@[simp] theorem scan_rbValid (s : State) : ((scan s).1).rbValid = s.rbValid := by rw [scan_frame s]
@[simp] theorem scan_rbCap (s : State) : ((scan s).1).rbCap = s.rbCap := by rw [scan_frame s]
@[simp] theorem scan_head (s : State) : ((scan s).1).head = s.head := by rw [scan_frame s]
@[simp] theorem scan_tail (s : State) : ((scan s).1).tail = s.tail := by rw [scan_frame s]
@[simp] theorem scan_buf (s : State) : ((scan s).1).buf = s.buf := by rw [scan_frame s]
@[simp] theorem scan_pins (s : State) : ((scan s).1).pins = s.pins := by rw [scan_frame s]
@[simp] theorem scan_ms (s : State) : ((scan s).1).ms = s.ms := by rw [scan_frame s]
@[simp] theorem scan_pressed (s : State) : ((scan s).1).pressed = s.pressed := by rw [scan_frame s]
@[simp] theorem scan_resp (s : State) : ((scan s).1).resp = s.resp := by rw [scan_frame s]
@[simp] theorem scan_delay (s : State) : ((scan s).1).delay = s.delay := by rw [scan_frame s]
@[simp] theorem scan_mainDelay (s : State) : ((scan s).1).mainDelay = s.mainDelay := by rw [scan_frame s]
@[simp] theorem scan_issuer (s : State) : ((scan s).1).issuer = s.issuer := by rw [scan_frame s]
@[simp] theorem scan_producer (s : State) : ((scan s).1).producer = s.producer := by rw [scan_frame s]
@[simp] theorem scan_consumer (s : State) : ((scan s).1).consumer = s.consumer := by rw [scan_frame s]
@[simp] theorem scan_sched (s : State) : ((scan s).1).sched = s.sched := by rw [scan_frame s]

end Machine
end Sys2Proof
end

