-- ==== Sys2Proof/Laws/Outcome.lean ====
section
/-! SUPPORT. How a result is taken apart: answers, sequencing, and the shared operations that can fault. -/

namespace Sys2Proof
namespace Machine

@[simp] theorem andThen_next {α β : Type} (a : α) (f : α → Result β) : Result.andThen (.next a) f = f a := rfl

@[simp] theorem andThen_fault {α β : Type} (r : Fault) (f : α → Result β) :
    Result.andThen (.fault r) f = .fault r := rfl

@[simp] theorem andThen_refused {α β : Type} (r : Refusal) (f : α → Result β) :
    Result.andThen (.refused r) f = .refused r := rfl

/-- A sequence answers exactly when both parts do. -/
theorem andThen_eq_next {α β : Type} {x : Result α} {f : α → Result β} {b : β} :
    Result.andThen x f = .next b ↔ ∃ a, x = .next a ∧ f a = .next b := by
  cases x with
  | next a => simp
  | fault r => simp
  | refused r => simp

/-- An answer always gives a next state: the response on the port and noted in the marks. -/
theorem answer_eq_next {p : State × Resp} {t : State} :
    answer p = .next t ↔ t = { p.1 with resp := some p.2, marks := p.1.marks.note p.2 } := by
  simp [answer, eq_comm]

/-- `OK` leaves no mark. -/
theorem answerOk_eq_next {s t : State} : answerOk s = .next t ↔ t = { s with resp := some (.ok 0) } := by
  simp [answerOk, answer, Marks.note, eq_comm]

/-- A ring load answers the byte at an existing, written slot, and only then. -/
theorem ringLoad_eq_next {s : State} {i : Nat} {b : Byte} :
    s.ringLoad i = .next b ↔ i < s.cfg.rbSlots ∧ s.buf.read i = some b := by
  unfold State.ringLoad State.memRead
  split
  · rename_i h
    split <;> simp_all
  · simp_all

/-- A ring store answers the written memory when the slot exists, and only then. -/
theorem ringStore_eq_next {s t : State} {i : Nat} {b : Byte} :
    s.ringStore i b = .next t ↔ i < s.cfg.rbSlots ∧ t = { s with buf := s.buf.write i b } := by
  unfold State.ringStore
  split <;> simp_all [eq_comm]

/-- Everything `RB.WR` can do: refuse the byte, or drop the oldest if full, store, and advance `head`. -/
theorem ringWrite_eq_next {b : Byte} {s : State} {p : State × Resp} :
    ringWrite b s = .next p ↔
      (s.rbValid = false ∧ p = (s, .rejected)) ∨
      (s.rbValid = true ∧ s.head < s.cfg.rbSlots ∧
        p = ({ dropOldest s with buf := s.buf.write s.head b, head := s.next s.head }, .ok 0)) := by
  unfold ringWrite
  cases h : s.rbValid with
  | false => simp [eq_comm]
  | true =>
    simp only [if_true, andThen_eq_next, ringStore_eq_next]
    simp [eq_comm, Host.Outcome.next.injEq]

/-- Everything `RB.RD` can do: find the ring empty, or take the byte at `tail` and advance. -/
theorem ringRead_eq_next {s : State} {p : State × Resp} :
    ringRead s = .next p ↔
      (s.ringEmpty = true ∧ p = (s, .noValue)) ∨
      (s.ringEmpty = false ∧ s.tail < s.cfg.rbSlots ∧ ∃ v, s.buf.read s.tail = some v ∧
        p = ({ s with tail := s.next s.tail }, .ok (v.setWidth 32))) := by
  unfold ringRead
  cases h : s.ringEmpty with
  | true => simp [eq_comm]
  | false =>
    simp only [Bool.false_eq_true, if_false, andThen_eq_next, ringLoad_eq_next]
    simp [eq_comm, and_assoc]

/-- Everything reporting a key can do: its symbol is written to the ring, the response discarded. -/
theorem reportKey_eq_next {k : Key} {s t : State} :
    reportKey k s = .next t ↔ ∃ b r, s.symbol k = some b ∧ ringWrite b s = .next (t, r) := by
  unfold reportKey
  cases h : s.symbol k with
  | none => simp
  | some b =>
    simp only [andThen_eq_next]
    constructor
    · rintro ⟨⟨u, r⟩, hu, he⟩
      simp only [Host.Outcome.next.injEq] at he
      subst he
      exact ⟨b, r, rfl, hu⟩
    · rintro ⟨b', r, hb, hw⟩
      cases hb
      exact ⟨_, hw, rfl⟩

/-- No time has passed at the instant a delay takes its `t0`. -/
@[simp] theorem elapsed_self (c : Config) (t : Nat) : c.elapsed t t = 0 := by
  simp [Config.elapsed]

/-- A delay is over exactly when at least its milliseconds have passed (46 R217). -/
theorem delayOver_iff {s : State} {d : Delay} : s.delayOver d = true ↔ d.m ≤ s.cfg.elapsed d.t0 s.ms := by
  simp [State.delayOver]

/-- Everything that can follow the start of a delay. -/
theorem startDelay_eq (c : Context) (m : Nat) (done : State → Result State) (s : State) :
    startDelay c m done s = if m = 0 then done s else .next (holdDelay c ⟨s.ms, m⟩ s) := by
  unfold startDelay State.delayOver
  simp

end Machine
end Sys2Proof
end

