-- ==== Sys2Proof/Laws/Lines.lean ====
section
/-! SUPPORT. What the line operations and the edge latch do to one line. -/

namespace Sys2Proof
namespace Machine

theorem setLine_line (s : State) (n m : Fin 16) (l : LineReg) :
    (s.setLine n l).line m = if m = n then l else (s.line m) := by
  unfold State.setLine State.line
  simp only [Vector.get_eq_getElem, Vector.getElem_set]
  by_cases h : m = n
  · subst h; simp
  · have : ¬ (n : Nat) = m := fun e => h (Fin.ext e.symm)
    simp [h, this]

/-- The edge latch, line by line (45 R190). -/
@[simp] theorem edgeLatch_line (s : State) (n : Fin 16) : (edgeLatch s).line n = s.latched n := by
  simp [edgeLatch, State.line, Vector.get_eq_getElem]

theorem latched_noEdge {s : State} {n : Fin 16} (h : (s.line n).edge = .noEdge) : s.latched n = (s.line n) := by
  unfold State.latched
  simp only [h, if_true]

theorem latched_edge {s : State} {n : Fin 16} (h : (s.line n).edge ≠ .noEdge) :
    s.latched n = { s.line n with
      pend := (s.line n).pend || ((s.line n).edge.hit (s.line n).last (s.level ⟨(s.line n).port, BitVec.ofFin n⟩) &&
        ((s.line n).en || Config.latchDraw s.draws n))
      last := s.level ⟨(s.line n).port, BitVec.ofFin n⟩ } := by
  unfold State.latched
  simp only [h, if_false]

@[simp] theorem latched_port (s : State) (n : Fin 16) : (s.latched n).port = (s.line n).port := by
  unfold State.latched; dsimp only; split <;> rfl
@[simp] theorem latched_edge' (s : State) (n : Fin 16) : (s.latched n).edge = (s.line n).edge := by
  unfold State.latched; dsimp only; split <;> rfl
@[simp] theorem latched_en (s : State) (n : Fin 16) : (s.latched n).en = (s.line n).en := by
  unfold State.latched; dsimp only; split <;> rfl

/-- The edge latch never clears a pending flag: it is sticky (45 R190). -/
theorem latched_pend {s : State} {n : Fin 16} (h : (s.line n).pend = true) : (s.latched n).pend = true := by
  unfold State.latched; dsimp only; split <;> simp [h]

theorem enableLine_line (b : Bit) (p : PinId) (s : State) (n : Fin 16) :
    (enableLine b p s).line n = if n = p.line then { s.line n with en := b } else (s.line n) := by
  unfold enableLine
  rw [setLine_line]
  split
  · rename_i h; rw [h]
  · rfl

theorem clearLine_line (p : PinId) (s : State) (n : Fin 16) :
    (clearLine p s).line n = if n = p.line then { s.line n with pend := false } else (s.line n) := by
  unfold clearLine
  rw [setLine_line]
  split
  · rename_i h; rw [h]
  · rfl

@[simp] theorem noteForeign_line (p : PinId) (s : State) (n : Fin 16) : (noteForeign p s).line n = (s.line n) := by
  unfold noteForeign; split <;> rfl

theorem armLine_line (e : Edge) (p : PinId) (s : State) (n : Fin 16) :
    (armLine e p s).line n = if n = p.line then ⟨p.port, e, true, false, s.level p⟩ else (s.line n) := by
  unfold armLine
  rw [noteForeign_line, setLine_line]

/-! ## Over every column -/

/-- Folding one-line updates over pins: each line of a listed pin is updated (an idempotent update), the others stay. -/
theorem foldl_enable_line (b : Bit) (l : List PinId) (s : State) (n : Fin 16) :
    (l.foldl (fun t p => enableLine b p t) s).line n =
      if l.any (fun p => p.line == n) then { s.line n with en := b } else (s.line n) := by
  induction l generalizing s with
  | nil => simp
  | cons p l ih =>
    rw [List.foldl_cons, ih, enableLine_line]
    by_cases h : p.line = n
    · subst h; simp
    · have h' : ¬ n = p.line := fun e => h e.symm
      have hb : (p.line == n) = false := by simpa using h
      simp [h', hb]

theorem foldl_clear_line (l : List PinId) (s : State) (n : Fin 16) :
    (l.foldl (fun t p => clearLine p t) s).line n =
      if l.any (fun p => p.line == n) then { s.line n with pend := false } else (s.line n) := by
  induction l generalizing s with
  | nil => simp
  | cons p l ih =>
    rw [List.foldl_cons, ih, clearLine_line]
    by_cases h : p.line = n
    · subst h; simp
    · have h' : ¬ n = p.line := fun e => h e.symm
      have hb : (p.line == n) = false := by simpa using h
      simp [h', hb]

/-- Enabling or disabling every column line (43 R161, R166). -/
theorem eachCol_enable_line (b : Bit) (s : State) (n : Fin 16) :
    (eachCol (enableLine b) s).line n =
      if s.cfg.isColLine n then { s.line n with en := b } else (s.line n) :=
  foldl_enable_line b s.cfg.colPin s n

/-- Clearing every column line (43 R165). -/
theorem eachCol_clear_line (s : State) (n : Fin 16) :
    (eachCol clearLine s).line n =
      if s.cfg.isColLine n then { s.line n with pend := false } else (s.line n) :=
  foldl_clear_line s.cfg.colPin s n

/-- `t` differs from `s` at most in the interrupt lines. -/
def LinesFrame (s t : State) : Prop := t = { s with lines := t.lines }

theorem foldl_linesFrame {f : PinId → State → State} (h : ∀ p s, LinesFrame s (f p s)) (l : List PinId) (s : State) :
    LinesFrame s (l.foldl (fun t p => f p t) s) := by
  induction l generalizing s with
  | nil => rfl
  | cons p l ih =>
    have h1 := h p s
    have h2 := ih (f p s)
    rw [List.foldl_cons]
    unfold LinesFrame at *
    rw [h2, h1]

theorem eachCol_enable_frame (b : Bit) (s : State) : LinesFrame s (eachCol (enableLine b) s) :=
  foldl_linesFrame (f := enableLine b) (fun _ _ => rfl) _ s

theorem eachCol_clear_frame (s : State) : LinesFrame s (eachCol clearLine s) :=
  foldl_linesFrame (f := clearLine) (fun _ _ => rfl) _ s

/-! ## Vector requests -/

/-- A line is in its own vector's group and in no other (45 R192). -/
theorem mem_group {n : Fin 16} {v : Nat} : n ∈ group v ↔ vectorOf n = v := by
  simp [group]

/-- `vreq[v]` is the OR over the group of `pend AND en` (45 R193). -/
theorem vreq_iff (s : State) (v : Nat) :
    s.vreq v = true ↔ ∃ n : Fin 16, vectorOf n = v ∧ (s.line n).pend = true ∧ (s.line n).en = true := by
  unfold State.vreq
  simp only [List.any_eq_true, mem_group, Bool.and_eq_true]

/-- Bit `n` of the mask is `f n`. -/
theorem maskOf_bit (f : Fin 16 → Bool) (n : Fin 16) : (maskOf f).getLsbD n.val = f n := by
  have key : ∀ (l : List (Fin 16)) (m : BitVec 16),
      (l.foldl (fun m k => if f k then m ||| BitVec.twoPow 16 k.val else m) m).getLsbD n.val
        = (m.getLsbD n.val || (l.contains n && f n)) := by
    intro l
    induction l with
    | nil => intro m; simp
    | cons k l ih =>
      intro m
      rw [List.foldl_cons, ih]
      by_cases hk : k = n
      · subst hk
        cases hf : f k <;> simp
      · have hv : ¬ n.val = k.val := fun e => hk (Fin.ext e.symm)
        have hn : ¬ n = k := fun e => hk e.symm
        cases hf : f k <;> simp [hv, hn]
  unfold maskOf
  rw [key]
  simp

/-- `trig` is zero at `H0` exactly when no column line is pending (43 R160). -/
theorem pendingCols_eq_zero (s : State) :
    s.pendingCols = 0 ↔ ∀ n : Fin 16, s.cfg.isColLine n = true → (s.line n).pend = false := by
  unfold State.pendingCols
  constructor
  · intro h n hn
    have := maskOf_bit (fun n => s.cfg.isColLine n && (s.line n).pend) n
    rw [h] at this
    simpa [hn] using this.symm
  · intro h
    apply BitVec.eq_of_getLsbD_eq
    intro i hi
    have := maskOf_bit (fun n => s.cfg.isColLine n && (s.line n).pend) ⟨i, hi⟩
    simp only at this
    rw [this]
    cases hc : s.cfg.isColLine ⟨i, hi⟩ with
    | false => simp
    | true => simp [h _ hc]

end Machine
end Sys2Proof
end

