-- ==== Sys2Proof/Laws/Memory.lean ====
section
/-! SUPPORT. The laws of the ring's memory: a read after a write, and the canonical form. -/

namespace Sys2Proof
namespace Machine
namespace Memory

@[simp] theorem read_nil (i : Nat) : Memory.read [] i = none := rfl

/-- A slot reads what was last written to it. -/
theorem read_write_same (m : Memory) (i : Nat) (b : Byte) : Memory.read (Memory.write m i b) i = some b := by
  induction m with
  | nil => simp [write, read]
  | cons e m ih =>
    obtain ⟨a, c⟩ := e
    unfold write
    split
    · simp [read]
    · split
      · simp [read]
      · rename_i h; simp [read, h, ih]

/-- A write leaves every other slot alone. -/
theorem read_write_other (m : Memory) {i j : Nat} (b : Byte) (h : j ≠ i) :
    Memory.read (Memory.write m i b) j = Memory.read m j := by
  induction m with
  | nil => simp [write, read, h]
  | cons e m ih =>
    obtain ⟨a, c⟩ := e
    unfold write
    split
    · simp [read, h]
    · split
      · rename_i h2; subst h2; simp [read, h]
      · simp [read, ih]

/-- Both cases of a read after a write. -/
theorem read_write (m : Memory) (i j : Nat) (b : Byte) :
    Memory.read (Memory.write m i b) j = if j = i then some b else Memory.read m j := by
  split
  · rename_i h; subst h; exact read_write_same m j b
  · rename_i h; exact read_write_other m b h

theorem risingFrom_write {m : Memory} {lo i : Nat} (b : Byte) (h : Memory.risingFrom lo m = true) (hi : lo ≤ i) :
    Memory.risingFrom lo (Memory.write m i b) = true := by
  induction m generalizing lo with
  | nil => simp [write, risingFrom, hi]
  | cons e m ih =>
    obtain ⟨a, c⟩ := e
    simp only [risingFrom, Bool.and_eq_true, decide_eq_true_eq] at h
    unfold write
    split
    · rename_i hlt; simp only [risingFrom, Bool.and_eq_true, decide_eq_true_eq]; exact ⟨hi, by omega, h.2⟩
    · split
      · rename_i heq; subst heq; simp [risingFrom, h.2, hi]
      · simp only [risingFrom, Bool.and_eq_true, decide_eq_true_eq]
        exact ⟨h.1, ih h.2 (by omega)⟩

/-- A write keeps the canonical form. -/
theorem write_wf {m : Memory} (h : m.wf = true) (i : Nat) (b : Byte) : Memory.wf (Memory.write m i b) = true :=
  risingFrom_write b h (Nat.zero_le i)

theorem read_below {m : Memory} {lo i : Nat} (h : Memory.risingFrom lo m = true) (hi : i < lo) : Memory.read m i = none := by
  induction m generalizing lo with
  | nil => rfl
  | cons e m ih =>
    obtain ⟨a, c⟩ := e
    simp only [risingFrom, Bool.and_eq_true, decide_eq_true_eq] at h
    have : i ≠ a := by omega
    simp [read, this, ih h.2 (by omega)]

/-- Canonical memories that read alike are equal. -/
theorem ext_read {m n : Memory} {lo : Nat} (hm : Memory.risingFrom lo m = true) (hn : Memory.risingFrom lo n = true)
    (h : ∀ i, Memory.read m i = Memory.read n i) : m = n := by
  induction m generalizing n lo with
  | nil =>
    cases n with
    | nil => rfl
    | cons e n => have := h e.1; simp [read] at this
  | cons e m ih =>
    obtain ⟨a, c⟩ := e
    simp only [risingFrom, Bool.and_eq_true, decide_eq_true_eq] at hm
    cases n with
    | nil => have := h a; simp [read] at this
    | cons f n =>
      obtain ⟨b, d⟩ := f
      simp only [risingFrom, Bool.and_eq_true, decide_eq_true_eq] at hn
      have hab : a = b := by
        rcases Nat.lt_trichotomy a b with hlt | heq | hgt
        · have := h a
          have hne : a ≠ b := by omega
          simp [read, hne, read_below hn.2 (by omega : a < b + 1)] at this
        · exact heq
        · have := h b
          have hne : b ≠ a := by omega
          simp [read, hne, read_below hm.2 (by omega : b < a + 1)] at this
      subst hab
      have hc : c = d := by simpa [read] using h a
      subst hc
      congr 1
      refine ih hm.2 hn.2 fun i => ?_
      by_cases hi : i = a
      · subst hi; rw [read_below hm.2 (by omega), read_below hn.2 (by omega)]
      · simpa [read, hi] using h i

end Memory
end Machine
end Sys2Proof
end

