-- ==== Sys2Proof/Laws/Ring.lean ====
section
/-! SUPPORT. The ring as a queue: the count, the stored bytes, and what a write, a read, an initialisation and a flush make of them. -/

namespace Sys2Proof
namespace Machine

/-! ## Indices -/

theorem next_lt {s : State} (h : 1 ≤ s.rbCap) (i : Nat) : s.next i < s.rbCap := Nat.mod_lt _ h

/-- The two cases of the count of a ring whose indices are in range (20_memory R65). -/
theorem ringCount_cases {s : State} (hv : s.rbValid = true) (hh : s.head < s.rbCap) (ht : s.tail < s.rbCap) :
    s.ringCount = if s.tail ≤ s.head then s.head - s.tail else s.head + s.rbCap - s.tail := by
  unfold State.ringCount
  rw [if_pos hv]
  split
  · have : s.head + s.rbCap - s.tail = (s.head - s.tail) + s.rbCap := by omega
    rw [this, Nat.add_mod_right, Nat.mod_eq_of_lt (by omega)]
  · exact Nat.mod_eq_of_lt (by omega)

/-- `next` without the remainder. -/
theorem next_cases {s : State} {i : Nat} (h : i < s.rbCap) : s.next i = if i + 1 = s.rbCap then 0 else i + 1 := by
  unfold State.next
  split
  · rename_i e; rw [e]; exact Nat.mod_self _
  · exact Nat.mod_eq_of_lt (by omega)

theorem ringCount_lt {s : State} (hv : s.rbValid = true) (hh : s.head < s.rbCap) (ht : s.tail < s.rbCap) :
    s.ringCount < s.rbCap := by
  rw [ringCount_cases hv hh ht]
  split <;> omega

/-- Empty is `head = tail` (10_state R29). -/
theorem ringCount_eq_zero {s : State} (hv : s.rbValid = true) (hh : s.head < s.rbCap) (ht : s.tail < s.rbCap) :
    s.ringCount = 0 ↔ s.head = s.tail := by
  rw [ringCount_cases hv hh ht]
  split <;> omega

/-- Full is a count of `C - 1` (10_state R29, 40 R105). -/
theorem ringCount_full {s : State} (hv : s.rbValid = true) (hh : s.head < s.rbCap) (ht : s.tail < s.rbCap) :
    s.ringCount + 1 = s.rbCap ↔ s.next s.head = s.tail := by
  rw [ringCount_cases hv hh ht, next_cases hh]
  split <;> split <;> omega

/-- The slot of the `i`-th stored byte, without the remainder. -/
theorem slot_cases {s : State} {i : Nat} (ht : s.tail < s.rbCap) (hi : i < s.rbCap) :
    (s.tail + i) % s.rbCap = if s.tail + i < s.rbCap then s.tail + i else s.tail + i - s.rbCap := by
  split
  · rename_i h; exact Nat.mod_eq_of_lt h
  · rw [Nat.mod_eq_sub_mod (by omega)]
    exact Nat.mod_eq_of_lt (by omega)

/-- The slot after the last stored byte is `head`. -/
theorem slot_count {s : State} (hv : s.rbValid = true) (hh : s.head < s.rbCap) (ht : s.tail < s.rbCap) :
    (s.tail + s.ringCount) % s.rbCap = s.head := by
  rw [slot_cases ht (ringCount_lt hv hh ht), ringCount_cases hv hh ht]
  split <;> split <;> omega

/-- No stored byte is in the slot at `head`. -/
theorem slot_ne_head {s : State} (hv : s.rbValid = true) (hh : s.head < s.rbCap) (ht : s.tail < s.rbCap) {i : Nat}
    (hi : i < s.ringCount) : (s.tail + i) % s.rbCap ≠ s.head := by
  have hc := ringCount_lt hv hh ht
  rw [slot_cases ht (by omega)]
  rw [ringCount_cases hv hh ht] at hi hc
  split at hi <;> split <;> omega

/-! ## The stored bytes, slot by slot -/

/-- The stored bytes are determined by their number and their values, oldest first. -/
theorem contents_eq {s : State} {l : List Byte} (hn : s.ringCount = l.length)
    (hb : ∀ i, i < l.length → s.buf.read ((s.tail + i) % s.rbCap) = l[i]?) : s.contents = l := by
  unfold State.contents
  rw [hn]
  have key : ∀ (n : Nat), n ≤ l.length →
      (List.range n).filterMap (fun i => s.buf.read ((s.tail + i) % s.rbCap)) = l.take n := by
    intro n
    induction n with
    | zero => simp
    | succ n ih =>
      intro h
      rw [List.range_succ, List.filterMap_append, ih (by omega)]
      have hx := hb n (by omega)
      rw [List.getElem?_eq_getElem (by omega)] at hx
      simp only [List.filterMap_cons, List.filterMap_nil, hx]
      rw [List.take_succ_eq_append_getElem (by omega)]
  rw [key _ (Nat.le_refl _), List.take_length]

/-- The number of stored bytes is the count, and the `i`-th byte is the one in its slot. -/
theorem contents_spec {s : State} (hb : ∀ i, i < s.ringCount → (s.buf.read ((s.tail + i) % s.rbCap)).isSome = true) :
    s.contents.length = s.ringCount ∧
      ∀ i, i < s.ringCount → s.buf.read ((s.tail + i) % s.rbCap) = s.contents[i]? := by
  have hex : ∃ l : List Byte, l.length = s.ringCount ∧
      ∀ i, i < s.ringCount → s.buf.read ((s.tail + i) % s.rbCap) = l[i]? := by
    refine ⟨List.ofFn fun i : Fin s.ringCount => (s.buf.read ((s.tail + i) % s.rbCap)).get (hb i i.2), by simp, ?_⟩
    intro i hi
    simp [hi]
  obtain ⟨l, hl, he⟩ := hex
  have : s.contents = l := contents_eq hl.symm (by rw [hl]; exact he)
  rw [this]
  exact ⟨hl, he⟩

/-! ## The ring operations on states that meet the invariants -/

/-- The ring's invariants and its contents depend only on the ring's registers, its bytes and the storage. -/
theorem RingOk.congr {s t : State} (h : RingOk s) (hc : t.cfg = s.cfg) (hv : t.rbValid = s.rbValid) (hp : t.rbCap = s.rbCap)
    (hh : t.head = s.head) (ht : t.tail = s.tail) (hb : t.buf = s.buf) : RingOk t := by
  have hcount : t.ringCount = s.ringCount := by unfold State.ringCount; rw [hv, hp, hh, ht]
  exact ⟨by rw [hv, hp, hc]; exact h.cap, by rw [hv, hp, hh, ht]; exact h.index,
    by rw [hv, hcount, hb, ht, hp]; exact h.bytes⟩

theorem contents_congr {s t : State} (hv : t.rbValid = s.rbValid) (hp : t.rbCap = s.rbCap)
    (hh : t.head = s.head) (ht : t.tail = s.tail) (hb : t.buf = s.buf) : t.contents = s.contents := by
  unfold State.contents State.ringCount
  rw [hv, hp, hh, ht, hb]

/-- A ring that is not valid meets the invariants. -/
theorem RingOk.invalid {s : State} (h : s.rbValid = false) : RingOk s :=
  ⟨by simp [h], by simp [h], by simp [h]⟩

/-- An empty ring holds nothing. -/
theorem contents_empty {s : State} (h : s.ringCount = 0) : s.contents = [] := by
  unfold State.contents
  simp [h]

/-- A valid ring with `head = tail` in range meets the invariants (40 R100, R104). -/
theorem RingOk.empty {s : State} (hc : 1 ≤ s.rbCap) (hs : s.rbCap ≤ s.cfg.rbSlots) (hh : s.head < s.rbCap)
    (he : s.head = s.tail) : RingOk s := by
  refine ⟨fun _ => ⟨hc, hs⟩, fun _ => ⟨hh, he ▸ hh⟩, fun hv i hi => ?_⟩
  have : s.ringCount = 0 := (ringCount_eq_zero hv hh (he ▸ hh)).mpr he
  omega

/-- Dropping the oldest byte of a full ring removes the first stored byte. -/
theorem dropOldest_spec {s : State} (h : RingOk s) (hv : s.rbValid = true) (hf : s.next s.head = s.tail)
    (h2 : 2 ≤ s.rbCap) :
    (dropOldest s).ringCount + 1 = s.ringCount ∧ (dropOldest s).tail = s.next s.tail := by
  obtain ⟨hh, ht⟩ := h.index hv
  have e : (dropOldest s).tail = s.next s.tail := by unfold dropOldest; rw [if_pos hf]
  refine ⟨?_, e⟩
  have hv' : (dropOldest s).rbValid = true := by simpa using hv
  have ht' : (dropOldest s).tail < (dropOldest s).rbCap := by
    rw [e, dropOldest_rbCap]; exact next_lt (by omega) _
  have hh' : (dropOldest s).head < (dropOldest s).rbCap := by simpa using hh
  rw [ringCount_cases hv' hh' ht', ringCount_cases hv hh ht, e, dropOldest_head, dropOldest_rbCap, next_cases ht]
  rw [next_cases hh] at hf
  split at hf <;> split <;> split <;> split <;> omega

theorem dropOldest_ring {s : State} (h : RingOk s) (hv : s.rbValid = true) (hf : s.next s.head = s.tail)
    (h2 : 2 ≤ s.rbCap) : RingOk (dropOldest s) ∧ (dropOldest s).contents = s.contents.tail := by
  obtain ⟨hn, htl⟩ := dropOldest_spec h hv hf h2
  obtain ⟨hh, ht⟩ := h.index hv
  obtain ⟨hlen, hval⟩ := contents_spec (h.bytes hv)
  have hslot : ∀ i, (dropOldest s).buf.read (((dropOldest s).tail + i) % (dropOldest s).rbCap)
      = s.buf.read ((s.tail + (i + 1)) % s.rbCap) := by
    intro i
    rw [htl, dropOldest_rbCap, dropOldest_buf]
    unfold State.next
    rw [Nat.mod_add_mod]
    congr 2
    omega
  refine ⟨⟨by simpa using h.cap, fun _ => ⟨by simpa using hh, ?_⟩, fun _ i hi => ?_⟩, contents_eq ?_ ?_⟩
  · rw [htl, dropOldest_rbCap]; exact next_lt (by omega) _
  · rw [hslot]; exact h.bytes hv (i + 1) (by omega)
  · rw [List.length_tail]; omega
  · intro i hi
    rw [List.length_tail] at hi
    rw [hslot, hval (i + 1) (by omega), List.getElem?_tail]

/-- Storing at `head` and advancing it appends a byte to a ring that is not full. -/
theorem push_ring {s : State} {b : Byte} (h : RingOk s) (hv : s.rbValid = true) (hf : s.ringCount + 1 < s.rbCap) :
    RingOk { s with buf := s.buf.write s.head b, head := s.next s.head } ∧
      ({ s with buf := s.buf.write s.head b, head := s.next s.head } : State).contents = s.contents ++ [b] := by
  obtain ⟨hh, ht⟩ := h.index hv
  obtain ⟨hlen, hval⟩ := contents_spec (h.bytes hv)
  set t : State := { s with buf := s.buf.write s.head b, head := s.next s.head } with htdef
  have htv : t.rbValid = true := hv
  have hth : t.head < t.rbCap := next_lt (by omega : 1 ≤ s.rbCap) _
  have htt : t.tail < t.rbCap := ht
  have hcount : t.ringCount = s.ringCount + 1 := by
    have hnf : s.next s.head ≠ s.tail := fun e => by have := (ringCount_full hv hh ht).mpr e; omega
    rw [ringCount_cases htv hth htt, ringCount_cases hv hh ht]
    simp only [htdef]
    rw [next_cases hh] at *
    split at hnf <;> split <;> split <;> split <;> omega
  have hread : ∀ i, i < s.ringCount + 1 →
      t.buf.read ((t.tail + i) % t.rbCap) = (s.contents ++ [b])[i]? := by
    intro i hi
    simp only [htdef, Memory.read_write]
    by_cases he : i < s.ringCount
    · rw [if_neg (slot_ne_head hv hh ht he), hval i he, List.getElem?_append_left (by omega)]
    · have : i = s.ringCount := by omega
      subst this
      rw [if_pos (slot_count hv hh ht), ← hlen, List.getElem?_append_right (by omega)]
      simp
  have hl : (s.contents ++ [b]).length = s.ringCount + 1 := by simp [hlen]
  refine ⟨⟨h.cap, fun _ => ⟨hth, htt⟩, fun _ i hi => ?_⟩, contents_eq (by rw [hcount, hl]) (by rw [hl]; exact hread)⟩
  rw [hread i (by omega), List.getElem?_eq_getElem (by omega)]
  rfl

/-- What `RB.WR` makes of a valid ring: the queue with the byte appended and its oldest bytes dropped beyond `C - 1` (40 R101, R107). -/
theorem write_ring {s : State} {b : Byte} (h : RingOk s) (hv : s.rbValid = true) :
    RingOk { dropOldest s with buf := s.buf.write s.head b, head := s.next s.head } ∧
      ({ dropOldest s with buf := s.buf.write s.head b, head := s.next s.head } : State).contents
        = lastBytes (s.rbCap - 1) (s.contents ++ [b]) := by
  obtain ⟨hh, ht⟩ := h.index hv
  obtain ⟨hc1, hcs⟩ := h.cap hv
  obtain ⟨hlen, -⟩ := contents_spec (h.bytes hv)
  by_cases h1 : s.rbCap = 1
  · have e0 : s.next s.head = 0 := by rw [next_cases hh, if_pos (by omega)]
    have et : (dropOldest s).tail = 0 := by
      unfold dropOldest
      rw [if_pos (by omega)]
      show s.next s.tail = 0
      rw [next_cases ht, if_pos (by omega)]
    have hok : RingOk { dropOldest s with buf := s.buf.write s.head b, head := s.next s.head } :=
      RingOk.empty (by simp; omega) (by simpa using hcs) (by simp; omega) (by simp [e0, et])
    refine ⟨hok, ?_⟩
    have hz : lastBytes (s.rbCap - 1) (s.contents ++ [b]) = [] := by
      unfold lastBytes
      rw [List.drop_eq_nil_of_le (by omega)]
    rw [hz]
    refine contents_empty ((ringCount_eq_zero (by simpa using hv) (by simp; omega) ?_).mpr ?_)
    · simp [et]; omega
    · simp [e0, et]
  · by_cases hf : s.next s.head = s.tail
    · obtain ⟨hd, hcd⟩ := dropOldest_ring h hv hf (by omega)
      obtain ⟨hn, -⟩ := dropOldest_spec h hv hf (by omega)
      have hfull := (ringCount_full hv hh ht).mpr hf
      have hp := push_ring (b := b) hd (by simpa using hv) (by rw [dropOldest_rbCap]; omega)
      have hnx : (dropOldest s).next s.head = s.next s.head := by unfold State.next; rw [dropOldest_rbCap]
      simp only [dropOldest_buf, dropOldest_head, hnx] at hp
      refine ⟨hp.1, hp.2.trans ?_⟩
      rw [hcd]
      unfold lastBytes
      have hl : (s.contents ++ [b]).length - (s.rbCap - 1) = 1 := by simp [hlen]; omega
      rw [hl]
      cases hcon : s.contents with
      | nil => rw [hcon] at hlen; simp at hlen; omega
      | cons x xs => simp
    · have hd : dropOldest s = s := by unfold dropOldest; rw [if_neg hf]
      have hnf : ¬ s.ringCount + 1 = s.rbCap := fun e => hf ((ringCount_full hv hh ht).mp e)
      have hlt := ringCount_lt hv hh ht
      have hp := push_ring (b := b) h hv (by omega)
      rw [hd]
      refine ⟨hp.1, hp.2.trans ?_⟩
      unfold lastBytes
      have hl : (s.contents ++ [b]).length - (s.rbCap - 1) = 0 := by simp [hlen]; omega
      rw [hl, List.drop_zero]

/-- What taking the oldest byte makes of a ring that is not empty (40 R102). -/
theorem read_ring {s : State} (h : RingOk s) (hv : s.rbValid = true) (hne : s.head ≠ s.tail) :
    ∃ v vs, s.buf.read s.tail = some v ∧ s.contents = v :: vs ∧
      RingOk { s with tail := s.next s.tail } ∧ ({ s with tail := s.next s.tail } : State).contents = vs := by
  obtain ⟨hh, ht⟩ := h.index hv
  obtain ⟨hc1, hcs⟩ := h.cap hv
  obtain ⟨hlen, hval⟩ := contents_spec (h.bytes hv)
  have hpos : 0 < s.ringCount := by
    rcases Nat.eq_zero_or_pos s.ringCount with e | e
    · exact absurd ((ringCount_eq_zero hv hh ht).mp e) hne
    · exact e
  set t : State := { s with tail := s.next s.tail } with htdef
  have htt : t.tail < t.rbCap := next_lt hc1 _
  have hcount : t.ringCount + 1 = s.ringCount := by
    rw [ringCount_cases (s := t) hv hh htt, ringCount_cases hv hh ht]
    simp only [htdef]
    rw [next_cases ht]
    split <;> split <;> split <;> omega
  have hslot : ∀ i, t.buf.read ((t.tail + i) % t.rbCap) = s.buf.read ((s.tail + (i + 1)) % s.rbCap) := by
    intro i
    simp only [htdef]
    unfold State.next
    rw [Nat.mod_add_mod]
    congr 2
    omega
  cases hcon : s.contents with
  | nil => rw [hcon] at hlen; simp at hlen; omega
  | cons v vs =>
    rw [hcon] at hlen hval
    simp only [List.length_cons] at hlen
    refine ⟨v, vs, ?_, rfl, ⟨h.cap, fun _ => ⟨hh, htt⟩, fun _ i hi => ?_⟩, contents_eq (by omega) ?_⟩
    · have := hval 0 hpos
      rwa [Nat.add_zero, Nat.mod_eq_of_lt ht, List.getElem?_cons_zero] at this
    · rw [hslot]; exact h.bytes hv (i + 1) (by omega)
    · intro i hi
      rw [hslot, hval (i + 1) (by omega), List.getElem?_cons_succ]

end Machine
end Sys2Proof
end

