-- ==== Sys2Proof/Laws/Pins.lean ====
section
/-! SUPPORT. Row levels, pin levels, the registers of pins, and what driving a row does to them. -/

namespace Sys2Proof
namespace Machine

/-! ## Row levels -/

/-- Looking a key up in a zip finds the value that stands at the key's place. -/
theorem lookup_zip {ps : List PinId} {vs : List Bit} {r : Nat} {p : PinId} (hnd : ps.Nodup)
    (hp : ps[r]? = some p) : (ps.zip vs).lookup p = vs[r]? := by
  induction ps generalizing vs r with
  | nil => simp at hp
  | cons q ps ih =>
    cases vs with
    | nil => simp
    | cons v vs =>
      obtain ⟨hq, hnd⟩ := List.nodup_cons.mp hnd
      cases r with
      | zero =>
        simp only [List.getElem?_cons_zero, Option.some.injEq] at hp
        subst hp
        simp
      | succ r =>
        simp only [List.getElem?_cons_succ] at hp
        have hne : p ≠ q := fun e => hq (e ▸ List.mem_of_getElem? hp)
        have hb : (p == q) = false := by simpa using hne
        simp only [List.zip_cons_cons, List.lookup_cons, hb, List.getElem?_cons_succ]
        exact ih hnd hp

theorem lookup_zip_none {ps : List PinId} {vs : List Bit} {p : PinId} (h : p ∉ ps) :
    (ps.zip vs).lookup p = none := by
  induction ps generalizing vs with
  | nil => simp
  | cons q ps ih =>
    cases vs with
    | nil => simp
    | cons v vs =>
      simp only [List.mem_cons, not_or] at h
      have hb : (p == q) = false := by simpa using h.1
      simp only [List.zip_cons_cons, List.lookup_cons, hb]
      exact ih h.2

theorem isRow_iff {c : Config} {p : PinId} : c.isRow p = true ↔ p ∈ c.rowPin := by
  simp [Config.isRow]

theorem isCol_iff {c : Config} {p : PinId} : c.isCol p = true ↔ p ∈ c.colPin := by
  simp [Config.isCol]

/-- The clauses of `CfgValid()` (42 R141). -/
theorem valid_iff {c : Config} : c.valid = true ↔
    c.cfgPresent = true ∧ 1 ≤ c.nRows ∧ 1 ≤ c.nCols ∧ c.nRows * c.nCols ≤ 255 ∧ c.nRows * c.nCols ≤ c.rbSlots ∧
    (c.rowPin ++ c.colPin).Nodup ∧
    (c.variant = .interrupt → c.nCols ≤ 16 ∧ (c.colPin.map PinId.line).Nodup) := by
  unfold Config.valid
  cases hv : c.variant <;> simp [and_assoc]

theorem valid_rows_nodup {c : Config} (h : c.valid = true) : c.rowPin.Nodup :=
  (List.nodup_append.mp (valid_iff.mp h).2.2.2.2.2.1).1

theorem valid_cols_nodup {c : Config} (h : c.valid = true) : c.colPin.Nodup :=
  (List.nodup_append.mp (valid_iff.mp h).2.2.2.2.2.1).2.1

theorem valid_col_not_row {c : Config} (h : c.valid = true) {p : PinId} (hp : p ∈ c.colPin) : p ∉ c.rowPin :=
  fun hr => (List.nodup_append.mp (valid_iff.mp h).2.2.2.2.2.1).2.2 p hr p hp rfl

/-- The level of a row pin is its row's (41 R124). -/
theorem level_row {s : State} (hnd : s.cfg.rowPin.Nodup) {r : Nat} {p : PinId} {b : Bit}
    (hp : s.cfg.rowPin[r]? = some p) (hb : s.rowOut[r]? = some b) : s.level p = b := by
  unfold State.level State.rowLevel
  rw [lookup_zip hnd hp, hb]

/-- The level of a column pin that is no row pin (41 R124). -/
theorem level_col {s : State} {p : PinId} (hc : p ∈ s.cfg.colPin) (hr : p ∉ s.cfg.rowPin) :
    s.level p = !s.pulledLow p := by
  unfold State.level State.rowLevel
  rw [lookup_zip_none hr]
  simp only [isCol_iff.mpr hc, if_true]

/-- A column is pulled low by a closed key of it whose row is low (41 R124). -/
theorem pulledLow_iff {s : State} (hnd : s.cfg.colPin.Nodup) {c : Nat} {p : PinId} (hp : s.cfg.colPin[c]? = some p) :
    s.pulledLow p = true ↔ ∃ r, (r, c) ∈ s.pressed ∧ s.rowOut[r]? = some false := by
  unfold State.pulledLow
  simp only [List.any_eq_true, Bool.and_eq_true, beq_iff_eq]
  constructor
  · rintro ⟨⟨r, c'⟩, hm, hc, ho⟩
    have : c' = c := by
      have hlt : c' < s.cfg.colPin.length := (List.getElem?_eq_some_iff.mp hc).1
      exact (List.getElem?_inj hlt hnd).mp (hc.trans hp.symm)
    subst this
    exact ⟨r, hm, ho⟩
  · rintro ⟨r, hm, ho⟩
    exact ⟨(r, c), hm, hp, ho⟩

/-- Whether a row or column pin's level can differ between two states: only through rows, keys and configuration. -/
theorem level_congr {s t : State} {p : PinId} (hc : t.cfg = s.cfg) (hr : t.rowOut = s.rowOut) (hp : t.pressed = s.pressed)
    (hl : s.cfg.nRows ≤ s.rowOut.length) (hm : s.cfg.isMatrix p = true) : t.level p = s.level p := by
  have hrow : t.rowLevel p = s.rowLevel p := by unfold State.rowLevel; rw [hc, hr]
  have hpull : t.pulledLow p = s.pulledLow p := by unfold State.pulledLow; rw [hc, hr, hp]
  unfold State.level
  rw [hrow, hpull, hc]
  cases h : s.rowLevel p with
  | some b => rfl
  | none =>
    have hcol : s.cfg.isCol p = true := by
      cases hcc : s.cfg.isCol p with
      | true => rfl
      | false =>
        exfalso
        have hrw : p ∈ s.cfg.rowPin := by
          simpa [Config.isMatrix, hcc, isRow_iff] using hm
        unfold State.rowLevel at h
        rw [List.lookup_eq_none_iff] at h
        obtain ⟨r, hr', he⟩ := List.getElem_of_mem hrw
        have hlt : r < s.rowOut.length := Nat.lt_of_lt_of_le hr' hl
        have := h (p, s.rowOut[r]) (by
          rw [List.mem_iff_getElem]
          exact ⟨r, by simp [hr', hlt], by simp [he]⟩)
        simp at this
    simp only [hcol, if_true]

/-! ## Driving rows -/

theorem drivePin_rowOut (b : Bit) (p : PinId) (s : State) (h : s.cfg.isRow p = true) :
    (drivePin b p s).rowOut = List.zipWith (fun q v => if q = p then b else v) s.cfg.rowPin s.rowOut := by
  unfold drivePin
  simp [h]

theorem zipWith_drive {ps : List PinId} {vs : List Bit} {r : Nat} {p : PinId} (b : Bit) (hnd : ps.Nodup)
    (hl : vs.length = ps.length) (hp : ps[r]? = some p) :
    List.zipWith (fun q v => if q = p then b else v) ps vs = vs.set r b := by
  apply List.ext_getElem?
  intro i
  rw [List.getElem?_zipWith, List.getElem?_set]
  have hr : r < ps.length := (List.getElem?_eq_some_iff.mp hp).1
  by_cases hi : i < ps.length
  · have hi' : i < vs.length := hl ▸ hi
    rw [List.getElem?_eq_getElem hi, List.getElem?_eq_getElem hi']
    by_cases he : r = i
    · subst he
      have : ps[r] = p := by
        rw [List.getElem?_eq_getElem hi] at hp; exact Option.some.inj hp
      simp [this, hi']
    · have hne : ps[i] ≠ p := by
        intro e
        apply he
        have : ps[i]? = ps[r]? := by rw [hp, List.getElem?_eq_getElem hi, e]
        exact ((List.getElem?_inj hi hnd).mp this).symm
      simp [hne, he]
  · have h1 : ps[i]? = none := List.getElem?_eq_none (by omega)
    have h2 : vs[i]? = none := List.getElem?_eq_none (by omega)
    have he : ¬ r = i := by omega
    simp [h1, h2, he]

/-- Driving row `r` sets its level and no other row's (41 R121, R122). -/
theorem driveRow_rowOut {s : State} (b : Bit) {r : Nat} (hnd : s.cfg.rowPin.Nodup)
    (hl : s.rowOut.length = s.cfg.nRows) (hr : r < s.cfg.nRows) :
    (driveRow b r s).rowOut = s.rowOut.set r b := by
  have hp : s.cfg.rowPin[r]? = some (s.cfg.rowPin[r]'hr) := List.getElem?_eq_getElem hr
  unfold driveRow
  rw [hp]
  simp only
  rw [drivePin_rowOut _ _ _ (isRow_iff.mpr (List.getElem_mem hr))]
  exact zipWith_drive b hnd hl hp

/-- There is one level for each row, before and after. -/
theorem drivePin_rows {s : State} (b : Bit) (p : PinId) (hl : s.rowOut.length = s.cfg.nRows) :
    (drivePin b p s).rowOut.length = s.cfg.nRows := by
  unfold drivePin
  split
  · simp only [edgeLatch_rowOut, markPinUse_rowOut, List.length_zipWith, hl]
    exact Nat.min_self _
  · exact hl

theorem driveRow_rows {s : State} (b : Bit) (r : Nat) (hl : s.rowOut.length = s.cfg.nRows) :
    (driveRow b r s).rowOut.length = s.cfg.nRows := by
  unfold driveRow
  split
  · exact drivePin_rows b _ hl
  · exact hl

theorem foldl_driveRow_rowOut {b : Bit} (l : List Nat) {s : State} (hnd : s.cfg.rowPin.Nodup)
    (hl : s.rowOut.length = s.cfg.nRows) (hb : ∀ r ∈ l, r < s.cfg.nRows) :
    (l.foldl (fun t r => driveRow b r t) s).rowOut = l.foldl (fun o r => o.set r b) s.rowOut := by
  induction l generalizing s with
  | nil => rfl
  | cons r l ih =>
    have hr : r < s.cfg.nRows := hb r (by simp)
    rw [List.foldl_cons, List.foldl_cons, ih (by simpa using hnd) (by simpa using driveRow_rows b r hl)
      (by simpa using fun x hx => hb x (by simp [hx])), driveRow_rowOut b hnd hl hr]

theorem foldl_set_range (b : Bit) (o : List Bit) (n : Nat) (h : n ≤ o.length) :
    (List.range n).foldl (fun o r => o.set r b) o = List.replicate n b ++ o.drop n := by
  induction n with
  | zero => simp
  | succ n ih =>
    rw [List.range_succ, List.foldl_append, ih (by omega)]
    apply List.ext_getElem?
    intro i
    simp only [List.foldl_cons, List.foldl_nil, List.getElem?_set, List.getElem?_append, List.getElem?_replicate,
      List.length_append, List.length_replicate, List.length_drop, List.getElem?_drop]
    by_cases h1 : n = i
    · subst h1; simp; omega
    · by_cases h2 : i < n
      · have : i < n + 1 := by omega
        simp [h1, h2, this]
      · have : ¬ i < n + 1 := by omega
        have e : n + 1 + (i - (n + 1)) = n + (i - n) := by omega
        simp [h1, h2, this, e]

/-- Driving every row leaves every row at that level (41 R129). -/
theorem driveRows_rowOut {s : State} (b : Bit) (hnd : s.cfg.rowPin.Nodup) (hl : s.rowOut.length = s.cfg.nRows) :
    (driveRows b s).rowOut = List.replicate s.cfg.nRows b := by
  unfold driveRows
  rw [foldl_driveRow_rowOut _ hnd hl (by simp), foldl_set_range b _ _ (by omega)]
  have : List.drop s.cfg.nRows s.rowOut = [] := List.drop_eq_nil_of_le (by omega)
  rw [this, List.append_nil]

/-! ## The registers of pins -/

theorem pinIndex_inj {p q : PinId} (h : p.index = q.index) : p = q := by
  obtain ⟨pp, pn⟩ := p
  obtain ⟨qp, qn⟩ := q
  have hb : pp ++ pn = qp ++ qn := BitVec.toFin_inj.mp h
  have h1 := congrArg (fun x : BitVec 8 => x.extractLsb' 4 4) hb
  have h2 := congrArg (fun x : BitVec 8 => x.extractLsb' 0 4) hb
  simp only [BitVec.extractLsb'_append_eq_left, BitVec.extractLsb'_append_eq_right] at h1 h2
  rw [h1, h2]

theorem configPin_pin (p : PinId) (d : Dir) (q : Pull) (s : State) (i : Fin 256) :
    (configPin p d q s).pin i = if i = p.index then ⟨d, q⟩ else s.pin i := by
  unfold configPin markPinUse State.pin
  simp only [Vector.get_eq_getElem, Vector.getElem_set]
  by_cases h : i = p.index
  · subst h; simp
  · have : ¬ (p.index : Nat) = i := fun e => h (Fin.ext e.symm)
    simp [h, this]

theorem foldl_config_pin (d : Dir) (q : Pull) (l : List PinId) (s : State) (i : Fin 256) :
    (l.foldl (fun t p => configPin p d q t) s).pin i = if l.any (fun p => p.index == i) then ⟨d, q⟩ else s.pin i := by
  induction l generalizing s with
  | nil => simp
  | cons p l ih =>
    rw [List.foldl_cons, ih, configPin_pin]
    by_cases h : p.index = i
    · subst h; simp
    · have h' : ¬ i = p.index := fun e => h e.symm
      have hb : (p.index == i) = false := by simpa using h
      simp [h', hb]

end Machine
end Sys2Proof
end

