-- ==== Sys2Proof/Laws/ScanResult.lean ====
section
/-! SUPPORT. What a scan finds: with one row low the sampled column is the first pressed key of that row, and the scan visits the rows in order. -/

namespace Sys2Proof
namespace Machine

/-- With row `r` the only low row, the first low column is the first column with a closed key in row `r` (41 R124, R125). -/
theorem sample_spec {s : State} (hv : s.cfg.valid = true) {r : Nat} (hr : s.rowOut[r]? = some false)
    (ho : ∀ r', s.rowOut[r']? = some false → r' = r) :
    s.sample = (List.range s.cfg.nCols).find? fun c => s.pressed.contains (r, c) := by
  unfold State.sample
  refine List.find?_congr ?_
  intro c hc
  have hc' : c < s.cfg.colPin.length := List.mem_range.mp hc
  have hp : s.cfg.colPin[c]? = some s.cfg.colPin[c] := List.getElem?_eq_getElem hc'
  have hm : s.cfg.colPin[c] ∈ s.cfg.colPin := List.getElem_mem hc'
  unfold State.colLow
  rw [hp]
  simp only
  rw [level_col hm (valid_col_not_row hv hm), Bool.not_not]
  rw [Bool.eq_iff_iff, pulledLow_iff (valid_cols_nodup hv) hp, List.contains_iff_mem]
  constructor
  · rintro ⟨r', hm', ho'⟩
    rw [ho r' ho'] at hm'
    exact hm'
  · intro h
    exact ⟨r, h, hr⟩

theorem replicate_set_set (n r : Nat) : ((List.replicate n true).set r false).set r true = List.replicate n true := by
  rw [List.set_set]
  apply List.ext_getElem?
  intro i
  rw [List.getElem?_set]
  split
  · rename_i h; subst h
    simp only [List.length_replicate, List.getElem?_replicate]
  · rfl

theorem replicate_set_low {n r : Nat} (hr : r < n) : ((List.replicate n true).set r false)[r]? = some false := by
  simp [hr]

theorem replicate_set_only {n r r' : Nat} (h : ((List.replicate n true).set r false)[r']? = some false) : r' = r := by
  rw [List.getElem?_set] at h
  split at h
  · rename_i e; exact e.symm
  · simp [List.getElem?_replicate] at h

/-- A row scanned from all rows high: it is low while it is sampled, and all rows are high again afterwards (41 R125). -/
theorem scanned_row {s : State} (hnd : s.cfg.rowPin.Nodup) (hh : s.rowOut = List.replicate s.cfg.nRows true) {r : Nat}
    (hr : r < s.cfg.nRows) :
    (driveRow false r s).rowOut = (List.replicate s.cfg.nRows true).set r false ∧
      (driveRow true r (driveRow false r s)).rowOut = List.replicate s.cfg.nRows true := by
  have hl : s.rowOut.length = s.cfg.nRows := by rw [hh]; simp
  have h1 : (driveRow false r s).rowOut = (List.replicate s.cfg.nRows true).set r false := by
    rw [driveRow_rowOut false hnd hl hr, hh]
  refine ⟨h1, ?_⟩
  rw [driveRow_rowOut true (by simpa using hnd) (by simpa using driveRow_rows false r hl) (by simpa using hr), h1]
  exact replicate_set_set _ _

/-- The scan over a list of rows finds the first pressed key in their order and leaves every row high (41 R125). -/
theorem coreScanFrom_spec (l : List Nat) {s : State} (hv : s.cfg.valid = true)
    (hh : s.rowOut = List.replicate s.cfg.nRows true) (hl : ∀ r ∈ l, r < s.cfg.nRows) :
    (coreScanFrom l s).2 =
        (l.flatMap fun r => (List.range s.cfg.nCols).map fun c => ((r, c) : Key)).find? (fun k => s.pressed.contains k) ∧
      (coreScanFrom l s).1.rowOut = List.replicate s.cfg.nRows true := by
  induction l generalizing s with
  | nil => exact ⟨rfl, hh⟩
  | cons r l ih =>
    have hr : r < s.cfg.nRows := hl r (by simp)
    obtain ⟨h1, h2⟩ := scanned_row (valid_rows_nodup hv) hh hr
    have hs := sample_spec (s := driveRow false r s) (by simpa using hv) (r := r)
      (by rw [h1]; exact replicate_set_low hr) (by rw [h1]; exact fun r' h => replicate_set_only h)
    simp only [driveRow_cfg, driveRow_pressed] at hs
    have hfind : ((List.range s.cfg.nCols).map fun c => ((r, c) : Key)).find? (fun k => s.pressed.contains k)
        = ((List.range s.cfg.nCols).find? fun c => s.pressed.contains (r, c)).map fun c => (r, c) := by
      rw [List.find?_map]
      rfl
    unfold coreScanFrom
    simp only [List.flatMap_cons, List.find?_append, hfind, hs]
    cases hc : (List.range s.cfg.nCols).find? fun c => s.pressed.contains (r, c) with
    | some c => exact ⟨rfl, h2⟩
    | none =>
      have := ih (s := driveRow true r (driveRow false r s)) (by simpa using hv) (by simpa using h2)
        (by simpa using fun x hx => hl x (by simp [hx]))
      simpa using this

/-- The edge latch may only set flags and follow levels: a line keeps its pin, edge and enable through driven rows (45 R190). -/
theorem LinesKept.refl (s : State) : LinesKept s s := ⟨fun _ => rfl, fun _ => rfl, fun _ => rfl, fun _ h => h⟩

theorem LinesKept.trans {s t u : State} (h : LinesKept s t) (k : LinesKept t u) : LinesKept s u :=
  ⟨fun n => (k.port n).trans (h.port n), fun n => (k.edge n).trans (h.edge n), fun n => (k.en n).trans (h.en n),
    fun n e => k.pend n (h.pend n e)⟩

theorem edgeLatch_kept (s : State) : LinesKept s (edgeLatch s) :=
  ⟨by simp, by simp, by simp, fun n h => by rw [edgeLatch_line]; exact latched_pend h⟩

theorem drivePin_kept (b : Bit) (p : PinId) (s : State) : LinesKept s (drivePin b p s) := by
  unfold drivePin
  split
  · have h := edgeLatch_kept (markPinUse ((s.pin p.index).dir != .output)
      { s with rowOut := List.zipWith (fun q v => if q = p then b else v) s.cfg.rowPin s.rowOut })
    exact ⟨h.port, h.edge, h.en, h.pend⟩
  · exact LinesKept.refl s

theorem driveRow_kept (b : Bit) (r : Nat) (s : State) : LinesKept s (driveRow b r s) := by
  unfold driveRow
  split
  · exact drivePin_kept b _ s
  · exact LinesKept.refl s

theorem driveRows_kept (b : Bit) (s : State) : LinesKept s (driveRows b s) := by
  unfold driveRows
  generalize List.range s.cfg.nRows = l
  induction l generalizing s with
  | nil => exact LinesKept.refl s
  | cons r l ih => exact (driveRow_kept b r s).trans (ih _)

theorem coreScanFrom_kept (l : List Nat) (s : State) : LinesKept s (coreScanFrom l s).1 := by
  induction l generalizing s with
  | nil => exact LinesKept.refl s
  | cons r l ih =>
    unfold coreScanFrom
    simp only
    split
    · exact (driveRow_kept false r s).trans (driveRow_kept true r _)
    · exact ((driveRow_kept false r s).trans (driveRow_kept true r _)).trans (ih _)

theorem scan_kept (s : State) : LinesKept s (scan s).1 := by
  unfold scan
  split
  · exact coreScanFrom_kept _ s
  · exact ((driveRows_kept true s).trans (coreScanFrom_kept _ _)).trans (driveRows_kept false _)

/-- There is one level for each row, before and after a scan. -/
theorem coreScanFrom_rows (l : List Nat) {s : State} (hl : s.rowOut.length = s.cfg.nRows) :
    (coreScanFrom l s).1.rowOut.length = s.cfg.nRows := by
  induction l generalizing s with
  | nil => exact hl
  | cons r l ih =>
    have h1 : (driveRow false r s).rowOut.length = (driveRow false r s).cfg.nRows := by
      simpa using driveRow_rows false r hl
    have h2 := driveRow_rows true r h1
    unfold coreScanFrom
    simp only
    split
    · simpa using h2
    · have := ih (s := driveRow true r (driveRow false r s)) (by simpa using h2)
      simpa using this

theorem driveRows_rows {s : State} (b : Bit) (hl : s.rowOut.length = s.cfg.nRows) :
    (driveRows b s).rowOut.length = s.cfg.nRows := by
  unfold driveRows
  generalize List.range s.cfg.nRows = l
  induction l generalizing s with
  | nil => exact hl
  | cons r l ih =>
    have h1 : (driveRow b r s).rowOut.length = (driveRow b r s).cfg.nRows := by simpa using driveRow_rows b r hl
    simpa using ih h1

theorem scan_rows {s : State} (hl : s.rowOut.length = s.cfg.nRows) : (scan s).1.rowOut.length = s.cfg.nRows := by
  unfold scan
  split
  · exact coreScanFrom_rows _ hl
  · have h1 : (driveRows true s).rowOut.length = (driveRows true s).cfg.nRows := by simpa using driveRows_rows true hl
    have h2 := coreScanFrom_rows (List.range (driveRows true s).cfg.nRows) h1
    have h3 := driveRows_rows false (s := (coreScan (driveRows true s)).1)
      (by rw [coreScan_cfg]; exact h2)
    simpa using h3

end Machine
end Sys2Proof
end

