-- ==== Sys2Proof/Laws/Run.lean ====
section
/-! SUPPORT. The shared operations keep the invariant of a run, and what a scan, a report and a debounce tick do to a state that meets it. -/

namespace Sys2Proof
namespace Machine

/-- The invariant reads these fields only. -/
theorem RunOk.congr {s t : State} (h : RunOk s) (hcfg : t.cfg = s.cfg) (hbuf : t.buf = s.buf)
    (hrows : t.rowOut.length = s.rowOut.length) (hrv : t.rbValid = s.rbValid) (hrc : t.rbCap = s.rbCap)
    (hh : t.head = s.head) (ht : t.tail = s.tail) (hp : t.pressed = s.pressed) (ha : t.active = s.active)
    (hi : t.inited = s.inited) (hk : t.hkey = s.hkey) (hph : t.phase = s.phase) (hc : t.cnt = s.cnt)
    (hs : t.hstep = s.hstep) (htr : t.trig = s.trig) (hd : t.delay = s.delay)
    (hm : t.ms = s.ms) (hmd : t.mainDelay = s.mainDelay) : RunOk t where
  memory := by rw [hbuf]; exact h.memory
  rows := by rw [hrows, hcfg]; exact h.rows
  keymap := by rw [hcfg]; exact h.keymap
  ring := h.ring.congr hcfg hrv hrc hh ht hbuf
  keys := by rw [hcfg, hp]; exact h.keys
  active := by rw [ha, hi, hcfg]; exact h.active
  hkey := by rw [hk, hcfg]; exact h.hkey
  width := by rw [hcfg]; exact h.width
  clock := by rw [hm, hd, hmd, hcfg]; exact h.clock
  counting := by rw [hph, hc, hcfg]; exact h.counting
  count := by rw [hc, hcfg]; exact h.count
  poll := by rw [hcfg, hs, hk, htr]; exact h.poll
  irq := by rw [hcfg, hph, hc]; exact h.irq
  carried := by rw [hk, hs]; exact h.carried
  waiting := by rw [hd, hs]; exact h.waiting

/-- A state that differs in the ring only meets the invariant when its ring does. -/
theorem RunOk.ofRing {s t : State} (h : RunOk s) (hr : RingOk t) (hm : t.buf.wf = true)
    (e : t = { s with buf := t.buf, head := t.head, tail := t.tail, rbValid := t.rbValid, rbCap := t.rbCap }) :
    RunOk t := by
  rw [e] at hr hm ⊢
  exact { memory := hm, rows := h.rows, keymap := h.keymap, ring := hr, keys := h.keys, active := h.active,
          hkey := h.hkey, width := h.width, clock := h.clock, counting := h.counting, count := h.count, poll := h.poll, irq := h.irq,
          carried := h.carried, waiting := h.waiting }

theorem RunOk.answer {s t : State} {r : Resp} (h : RunOk s) (e : Machine.answer (s, r) = .next t) : RunOk t := by
  rw [answer_eq_next] at e
  subst e
  refine h.congr ?_ ?_ ?_ ?_ ?_ ?_ ?_ ?_ ?_ ?_ ?_ ?_ ?_ ?_ ?_ ?_ ?_ ?_ <;> rfl

/-! ## The ring -/

/-- What `RB.WR` can make of a ring that meets its invariants: only the bytes and the indices change (40 R101). -/
theorem ringWrite_frame {s : State} {b : Byte} {p : State × Resp} (h : RingOk s) (hm : s.buf.wf = true)
    (e : ringWrite b s = .next p) :
    RingOk p.1 ∧ p.1.buf.wf = true ∧ p.1 = { s with buf := p.1.buf, head := p.1.head, tail := p.1.tail } := by
  rw [ringWrite_eq_next] at e
  rcases e with ⟨-, rfl⟩ | ⟨hv, -, rfl⟩
  · exact ⟨h, hm, rfl⟩
  · refine ⟨(write_ring h hv).1, Memory.write_wf hm _ _, ?_⟩
    unfold dropOldest
    split <;> rfl

theorem RunOk.ringWrite {s : State} {b : Byte} {p : State × Resp} (h : RunOk s)
    (e : Machine.ringWrite b s = .next p) : RunOk p.1 := by
  obtain ⟨hr, hm, hf⟩ := ringWrite_frame h.ring h.memory e
  exact h.ofRing hr hm (by rw [hf])

theorem RunOk.ringRead {s : State} {p : State × Resp} (h : RunOk s) (e : Machine.ringRead s = .next p) : RunOk p.1 := by
  rw [ringRead_eq_next] at e
  rcases e with ⟨-, rfl⟩ | ⟨he, -, v, -, rfl⟩
  · exact h
  · simp only [State.ringEmpty, Bool.or_eq_false_iff, Bool.not_eq_false', beq_eq_false_iff_ne] at he
    obtain ⟨-, -, -, -, hk, -⟩ := read_ring h.ring he.1 he.2
    exact h.ofRing hk h.memory rfl

theorem RunOk.ringInit {s : State} (c : Nat) (h : RunOk s) : RunOk (Machine.ringInit c s).1 := by
  unfold Machine.ringInit
  split
  · exact h.ofRing (RingOk.invalid rfl) h.memory rfl
  · rename_i hc
    refine h.ofRing (RingOk.empty ?_ ?_ ?_ rfl) h.memory rfl <;> simp <;> omega

theorem RunOk.ringFlush {s : State} (h : RunOk s) : RunOk (Machine.ringFlush s) := by
  refine h.ofRing ?_ h.memory rfl
  cases hv : s.rbValid with
  | false => exact RingOk.invalid hv
  | true =>
    exact RingOk.empty (h.ring.cap hv).1 (h.ring.cap hv).2
      (show 0 < s.rbCap by have := (h.ring.cap hv).1; omega) rfl

/-! ## Pins, lines, the scan -/

theorem RunOk.edgeLatch {s : State} (h : RunOk s) : RunOk (Machine.edgeLatch s) := by
  refine h.congr ?_ ?_ ?_ ?_ ?_ ?_ ?_ ?_ ?_ ?_ ?_ ?_ ?_ ?_ ?_ ?_ ?_ ?_ <;> simp

theorem RunOk.drivePin {s : State} (b : Bit) (p : PinId) (h : RunOk s) : RunOk (Machine.drivePin b p s) := by
  refine h.congr ?_ ?_ ?_ ?_ ?_ ?_ ?_ ?_ ?_ ?_ ?_ ?_ ?_ ?_ ?_ ?_ ?_ ?_ <;> try simp
  rw [drivePin_rows b p h.rows, h.rows]

theorem RunOk.driveRows {s : State} (b : Bit) (h : RunOk s) : RunOk (Machine.driveRows b s) := by
  refine h.congr ?_ ?_ ?_ ?_ ?_ ?_ ?_ ?_ ?_ ?_ ?_ ?_ ?_ ?_ ?_ ?_ ?_ ?_ <;> try simp
  rw [driveRows_rows b h.rows, h.rows]

theorem RunOk.scan {s : State} (h : RunOk s) : RunOk (Machine.scan s).1 := by
  refine h.congr ?_ ?_ ?_ ?_ ?_ ?_ ?_ ?_ ?_ ?_ ?_ ?_ ?_ ?_ ?_ ?_ ?_ ?_ <;> try simp
  rw [scan_rows h.rows, h.rows]

theorem RunOk.configPin {s : State} (p : PinId) (d : Dir) (q : Pull) (h : RunOk s) : RunOk (Machine.configPin p d q s) := by
  refine h.congr ?_ ?_ ?_ ?_ ?_ ?_ ?_ ?_ ?_ ?_ ?_ ?_ ?_ ?_ ?_ ?_ ?_ ?_ <;> simp

theorem RunOk.armLine {s : State} (e : Edge) (p : PinId) (h : RunOk s) : RunOk (Machine.armLine e p s) := by
  refine h.congr ?_ ?_ ?_ ?_ ?_ ?_ ?_ ?_ ?_ ?_ ?_ ?_ ?_ ?_ ?_ ?_ ?_ ?_ <;> simp

theorem RunOk.enableLine {s : State} (b : Bit) (p : PinId) (h : RunOk s) : RunOk (Machine.enableLine b p s) := by
  refine h.congr ?_ ?_ ?_ ?_ ?_ ?_ ?_ ?_ ?_ ?_ ?_ ?_ ?_ ?_ ?_ ?_ ?_ ?_ <;> simp

theorem RunOk.clearLine {s : State} (p : PinId) (h : RunOk s) : RunOk (Machine.clearLine p s) := by
  refine h.congr ?_ ?_ ?_ ?_ ?_ ?_ ?_ ?_ ?_ ?_ ?_ ?_ ?_ ?_ ?_ ?_ ?_ ?_ <;> simp

theorem RunOk.noteForeign {s : State} (p : PinId) (h : RunOk s) : RunOk (Machine.noteForeign p s) := by
  refine h.congr ?_ ?_ ?_ ?_ ?_ ?_ ?_ ?_ ?_ ?_ ?_ ?_ ?_ ?_ ?_ ?_ ?_ ?_ <;> simp

/-- What one operation keeps, the same operation over a list of pins keeps. -/
theorem foldl_keeps {P : State → Prop} {f : PinId → State → State} (hf : ∀ p s, P s → P (f p s)) (l : List PinId)
    {s : State} (h : P s) : P (l.foldl (fun t p => f p t) s) := by
  induction l generalizing s with
  | nil => exact h
  | cons p l ih => exact ih (hf p s h)

/-- A field that one operation leaves alone, the same operation over a list of pins leaves alone. -/
theorem foldl_field {α : Type} (g : State → α) {f : PinId → State → State} (hf : ∀ p s, g (f p s) = g s) (l : List PinId)
    (s : State) : g (l.foldl (fun t p => f p t) s) = g s := by
  induction l generalizing s with
  | nil => rfl
  | cons p l ih => exact (ih _).trans (hf p s)

/-! ## Keys -/

theorem mem_keys {c : Config} {k : Key} : k ∈ c.keys ↔ c.hasKey k = true := by
  unfold Config.keys Config.hasKey
  simp only [List.mem_flatMap, List.mem_range, List.mem_map, Bool.and_eq_true, decide_eq_true_eq]
  constructor
  · rintro ⟨r, hr, c, hc, rfl⟩
    exact ⟨hr, hc⟩
  · rintro ⟨a, b⟩
    exact ⟨k.1, a, k.2, b, rfl⟩

theorem keyLt_asymm {a b : Key} (h : keyLt a b = true) : keyLt b a = false := by
  obtain ⟨a1, a2⟩ := a
  obtain ⟨b1, b2⟩ := b
  simp only [keyLt, Bool.or_eq_true, Bool.and_eq_true, decide_eq_true_eq, beq_iff_eq, Bool.or_eq_false_iff,
    Bool.and_eq_false_iff, decide_eq_false_iff_not, beq_eq_false_iff_ne, ne_eq] at *
  omega

/-- The keys of the matrix rise (41 R125). -/
theorem keys_sorted (c : Config) : c.keys.Pairwise (fun a b => keyLt a b = true) := by
  unfold Config.keys
  rw [List.pairwise_flatMap]
  constructor
  · intro r _
    rw [List.pairwise_map]
    exact List.Pairwise.imp (fun {a b} h => by simp [keyLt, h]) List.pairwise_lt_range
  · refine List.Pairwise.imp ?_ List.pairwise_lt_range
    intro a b h x hx y hy
    simp only [List.mem_map] at hx hy
    obtain ⟨_, _, rfl⟩ := hx
    obtain ⟨_, _, rfl⟩ := hy
    simp [keyLt, h]

/-- The first element of a rising list that meets a condition is the least. -/
theorem find_least {l : List Key} (hl : l.Pairwise (fun a b => keyLt a b = true)) {p : Key → Bool} {k : Key}
    (h : l.find? p = some k) : ∀ k' ∈ l, p k' = true → keyLt k' k = false := by
  induction l with
  | nil => simp at h
  | cons a l ih =>
    rw [List.pairwise_cons] at hl
    intro k' hk' hp
    rw [List.find?_cons] at h
    split at h
    · cases h
      rcases List.mem_cons.mp hk' with rfl | hm
      · simp [keyLt]
      · exact keyLt_asymm (hl.1 _ hm)
    · rename_i hpa
      rcases List.mem_cons.mp hk' with rfl | hm
      · rw [hp] at hpa; cases hpa
      · exact ih hl.2 h k' hm hp

theorem firstPressed_none {s : State} (h : KeysOk s.cfg s.pressed) : s.firstPressed = none ↔ s.pressed = [] := by
  unfold State.firstPressed
  rw [List.find?_eq_none]
  constructor
  · intro hn
    cases hp : s.pressed with
    | nil => rfl
    | cons k l =>
      have hm : k ∈ s.pressed := by rw [hp]; simp
      have := hn k (mem_keys.mpr (h.2 k hm))
      simp [hp] at this
  · intro hn k _
    simp [hn]

/-- The key a scan of a matrix with closed keys finds is the least of them (41 R125, R127). -/
theorem firstPressed_least {s : State} (h : KeysOk s.cfg s.pressed) {k : Key} (hk : s.firstPressed = some k) :
    k ∈ s.pressed ∧ ∀ k' ∈ s.pressed, keyLt k' k = false :=
  ⟨by have := List.find?_some hk; simpa using this,
    fun k' hm => find_least (keys_sorted _) hk k' (mem_keys.mpr (h.2 k' hm)) (by simpa using hm)⟩

/-- A key that a scan finds is a key of the matrix. -/
theorem scan_hasKey {s : State} {k : Key} (h : (scan s).2 = some k) : s.cfg.hasKey k = true := by
  have core : ∀ (l : List Nat) (s : State), (∀ r ∈ l, r < s.cfg.nRows) → (coreScanFrom l s).2 = some k →
      s.cfg.hasKey k = true := by
    intro l
    induction l with
    | nil => intro s _ h; simp [coreScanFrom] at h
    | cons r l ih =>
      intro s hl h
      unfold coreScanFrom at h
      simp only at h
      split at h
      · rename_i c hc
        cases h
        have : c ∈ List.range (driveRow false r s).cfg.nCols := List.mem_of_find?_eq_some hc
        simp [Config.hasKey, hl r (by simp)]
        simpa using this
      · have := ih _ (by simpa using fun x hx => hl x (by simp [hx])) h
        simpa using this
  unfold scan at h
  split at h
  · exact core _ _ (by simp) h
  · simpa using core _ _ (by simp) h

/-- `Scan()` from rows at rest returns the least pressed key and leaves the rows at rest (41 R129). -/
theorem scan_rest {s : State} (hv : s.cfg.valid = true) (hl : s.rowOut.length = s.cfg.nRows)
    (hh : s.rowOut = List.replicate s.cfg.nRows s.cfg.rowRest) :
    (scan s).2 = s.firstPressed ∧ (scan s).1.rowOut = s.rowOut := by
  have hnd := valid_rows_nodup hv
  unfold scan
  split
  · rename_i hr
    rw [hr] at hh
    obtain ⟨ha, hb⟩ := coreScanFrom_spec (List.range s.cfg.nRows) hv hh (by simp)
    exact ⟨ha, hb.trans hh.symm⟩
  · rename_i hr
    have hr : s.cfg.rowRest = false := by simpa using hr
    rw [hr] at hh
    have h1 := driveRows_rowOut true hnd hl
    obtain ⟨ha, hb⟩ := coreScanFrom_spec (s := driveRows true s) (List.range s.cfg.nRows) (by simpa using hv)
      (by simpa using h1) (by simp)
    have hc : (coreScan (driveRows true s)).1.rowOut = List.replicate s.cfg.nRows true := by
      simpa [coreScan] using hb
    constructor
    · refine Eq.trans ?_ (ha.trans ?_)
      · simp [coreScan]
      · simp [State.firstPressed, Config.keys]
    · show (driveRows false (coreScan (driveRows true s)).1).rowOut = _
      rw [driveRows_rowOut false (by simpa using hnd) (by rw [hc]; simp)]
      simp [hh]

/-! ## Reporting a key -/

/-- A key of the matrix has a symbol (41 R128). -/
theorem symbol_some {s : State} {k : Key} (h : RunOk s) (hk : s.cfg.hasKey k = true) :
    ∃ b, s.symbol k = some b ∧ s.memRead (.keymap (k.1 * s.cfg.nCols + k.2)) = some b := by
  have hk' := hk
  simp only [Config.hasKey, Bool.and_eq_true, decide_eq_true_eq] at hk
  have hlt : k.1 * s.cfg.nCols + k.2 < s.cfg.keymap.length := by
    rw [h.keymap]
    have : (k.1 + 1) * s.cfg.nCols ≤ s.cfg.nRows * s.cfg.nCols := Nat.mul_le_mul_right _ hk.1
    rw [Nat.add_mul] at this
    omega
  have hm : s.memRead (.keymap (k.1 * s.cfg.nCols + k.2)) = some s.cfg.keymap[k.1 * s.cfg.nCols + k.2] :=
    List.getElem?_eq_getElem hlt
  refine ⟨_, ?_, hm⟩
  unfold State.symbol
  rw [if_pos hk']
  exact hm

/-- Reporting a key writes its symbol into a valid ring (42 R145, 43 R164). -/
theorem reportKey_spec {s : State} {k : Key} (h : RunOk s) (hv : s.rbValid = true) (hk : s.cfg.hasKey k = true) :
    ∃ b, s.memRead (.keymap (k.1 * s.cfg.nCols + k.2)) = some b ∧
      reportKey k s = .next { dropOldest s with buf := s.buf.write s.head b, head := s.next s.head } := by
  obtain ⟨b, hb, hm⟩ := symbol_some h hk
  refine ⟨b, hm, reportKey_eq_next.mpr ⟨b, .ok 0, hb, ringWrite_eq_next.mpr (.inr ⟨hv, ?_, rfl⟩)⟩⟩
  have := (h.ring.index hv).1
  have := (h.ring.cap hv).2
  omega

theorem dropOldest_tail (s : State) :
    (dropOldest s).tail = if (s.head + 1) % s.rbCap = s.tail then (s.tail + 1) % s.rbCap else s.tail := by
  unfold dropOldest State.next
  split <;> rfl

/-- A report changes the ring's bytes and indices only. -/
theorem reportKey_frame {s t : State} {k : Key} (e : reportKey k s = .next t) :
    t = { s with buf := t.buf, head := t.head, tail := t.tail } := by
  rw [reportKey_eq_next] at e
  obtain ⟨b, r, -, e⟩ := e
  rw [ringWrite_eq_next] at e
  rcases e with ⟨-, e⟩ | ⟨-, -, e⟩
  · cases e; rfl
  · cases e
    unfold dropOldest
    split <;> rfl

/-- The increment of `cnt` never wraps while it counts (10_state R24). -/
theorem RunOk.cnt_fits {s : State} (h : RunOk s) (hp : s.phase = .debounce) : s.cnt + 1 < 2 ^ s.cfg.cntW := by
  have h5 : 2 ^ 5 ≤ 2 ^ s.cfg.cntW := Nat.pow_le_pow_right (by omega) h.width.1
  have := h.width.2
  have := h.counting hp
  omega

/-- The confirming tick: the count reaches the threshold, the symbol is written, the phase is `PRESSED` (42 R145). -/
theorem tickDebounce_confirms {s : State} {k : Key} (h : RunOk s) (hv : s.rbValid = true) (hk : s.cfg.hasKey k = true)
    (hn : s.cnt + 1 < 2 ^ s.cfg.cntW) (hth : s.cfg.debounceThreshold ≤ s.cnt + 1) :
    ∃ b, s.memRead (.keymap (k.1 * s.cfg.nCols + k.2)) = some b ∧
      tickDebounce (some k) s = .next { dropOldest s with
        buf := s.buf.write s.head b, head := s.next s.head, cnt := s.cnt + 1, phase := .pressed } := by
  obtain ⟨b, hb, hm⟩ := symbol_some h hk
  refine ⟨b, hm, ?_⟩
  unfold tickDebounce
  simp only [Nat.mod_eq_of_lt hn]
  rw [if_pos hth, andThen_eq_next]
  refine ⟨{ dropOldest s with buf := s.buf.write s.head b, head := s.next s.head, cnt := s.cnt + 1 }, ?_, rfl⟩
  refine reportKey_eq_next.mpr ⟨b, .ok 0, hb, ringWrite_eq_next.mpr (.inr ⟨hv, ?_, ?_⟩)⟩
  · have := (h.ring.index hv).1
    have := (h.ring.cap hv).2
    show s.head < s.cfg.rbSlots
    omega
  · unfold dropOldest State.next
    split <;> simp_all

/-- A tick's phase rule changes the phase, the count and the ring's bytes and indices only (42 R144, R145, R146). -/
theorem tickPhase_frame {s t : State} {k : Option Key} (e : tickPhase k s = .next t) :
    t = { s with phase := t.phase, cnt := t.cnt, buf := t.buf, head := t.head, tail := t.tail } := by
  unfold tickPhase at e
  split at e
  · cases e
    unfold tickIdle
    split <;> rfl
  · unfold tickDebounce at e
    split at e
    · simp only at e
      split at e
      · rw [andThen_eq_next] at e
        obtain ⟨u, hu, e⟩ := e
        cases e
        have hf := reportKey_frame hu
        rw [hf]
      · cases e; rfl
    · cases e; rfl
  · cases e
    unfold tickPressed
    split <;> rfl

/-! ## The queue that a ring is, seen through reads -/

/-- A ring whose registers and bytes are as `RB.WR b` leaves them holds the queue that drops its oldest byte (40 R101, R107). -/
theorem contents_written {s t : State} {b : Byte} (h : RingOk s) (hv : s.rbValid = true) (hrv : t.rbValid = s.rbValid)
    (hrc : t.rbCap = s.rbCap) (hh : t.head = (s.head + 1) % s.rbCap)
    (ht : t.tail = if (s.head + 1) % s.rbCap = s.tail then (s.tail + 1) % s.rbCap else s.tail)
    (hnew : t.memRead (.ring s.head) = some b) (hold : ∀ a, a ≠ .ring s.head → t.memRead a = s.memRead a) :
    t.contents = lastBytes (s.rbCap - 1) (s.contents ++ [b]) := by
  rw [← (write_ring (b := b) h hv).2]
  have hrd : ∀ i, t.buf.read i = (s.buf.write s.head b).read i := by
    intro i
    rw [Memory.read_write]
    split
    · rename_i e; subst e; exact hnew
    · rename_i e; exact hold (.ring i) (by intro e'; cases e'; exact e rfl)
  unfold State.contents State.ringCount
  simp only [hrv, hrc, hh, ht, hrd, dropOldest_rbValid, dropOldest_rbCap, dropOldest_tail, State.next]

/-- A ring whose registers and bytes are unchanged holds the same queue. -/
theorem contents_same {s t : State} (h : RingSame s t) (k : BytesSame s t) : t.contents = s.contents := by
  have hrd : ∀ i, t.buf.read i = s.buf.read i := fun i => k (.ring i)
  unfold State.contents State.ringCount
  simp only [h.rbValid, h.rbCap, h.head, h.tail, hrd]

theorem BytesSame.of {s t : State} (hb : t.buf = s.buf) (hc : t.cfg = s.cfg) : BytesSame s t := by
  intro a
  cases a <;> simp [State.memRead, hb, hc]

end Machine
end Sys2Proof
end

