-- ==== Sys2Proof/Laws/Boot.lean ====
section
/-! SUPPORT. What binding the pins, arming the column lines and a whole `KP.INIT` do. -/

namespace Sys2Proof
namespace Machine

theorem isColLine_of_mem {c : Config} {p : PinId} (h : p ∈ c.colPin) : c.isColLine p.line = true := by
  unfold Config.isColLine
  rw [List.any_eq_true]
  exact ⟨p, h, by simp⟩

theorem any_index {l : List PinId} {p : PinId} : (l.any fun q => q.index == p.index) = true ↔ p ∈ l := by
  rw [List.any_eq_true]
  constructor
  · rintro ⟨q, hq, e⟩
    have e' := pinIndex_inj (p := q) (q := p) (by simpa using e)
    rw [← e']
    exact hq
  · intro h
    exact ⟨p, h, by simp⟩

/-- `t` differs from `s` at most in the registers of pins and the marks. -/
def PinsFrame (s t : State) : Prop := t = { s with pins := t.pins, marks := t.marks }

theorem PinsFrame.trans {s t u : State} (h : PinsFrame s t) (k : PinsFrame t u) : PinsFrame s u := by
  unfold PinsFrame at *
  rw [k, h]

theorem foldl_config_frame (d : Dir) (q : Pull) (l : List PinId) (s : State) :
    PinsFrame s (l.foldl (fun t p => configPin p d q t) s) := by
  induction l generalizing s with
  | nil => rfl
  | cons p l ih => exact PinsFrame.trans (t := configPin p d q s) rfl (ih _)

theorem bindPins_frame (s : State) : PinsFrame s (bindPins s) :=
  (foldl_config_frame _ _ _ s).trans (foldl_config_frame _ _ _ _)

theorem bindPins_cfg (s : State) : (bindPins s).cfg = s.cfg := by
  have h := bindPins_frame s
  unfold PinsFrame at h
  rw [h]

/-- Binding the pins: columns Input/Up, rows Output/None, every other pin as before (42 R140). -/
theorem bindPins_pin (s : State) (i : Fin 256) :
    (bindPins s).pin i =
      if s.cfg.colPin.any fun p => p.index == i then ⟨.input, .up⟩
      else if s.cfg.rowPin.any fun p => p.index == i then ⟨.output, .noPull⟩ else s.pin i := by
  have hc : ∀ (d : Dir) (q : Pull) (l : List PinId) (s : State),
      (l.foldl (fun t p => configPin p d q t) s).cfg = s.cfg :=
    fun d q l s => foldl_field (·.cfg) (f := fun p => configPin p d q) (by simp) l s
  unfold bindPins eachCol eachRow
  rw [foldl_config_pin, foldl_config_pin, hc]

/-- Arming lines with distinct numbers: each listed pin's line watches it for the falling edge, enabled and not pending; the others are as before (45 R186). -/
theorem foldl_arm_line (l : List PinId) (s : State) (hnd : (l.map PinId.line).Nodup) (n : Fin 16) :
    (∀ p ∈ l, p.line = n → ∃ u : State, u.cfg = s.cfg ∧ u.rowOut = s.rowOut ∧ u.pressed = s.pressed ∧
      (l.foldl (fun t p => armLine .falling p t) s).line n = ⟨p.port, .falling, true, false, u.level p⟩) ∧
    ((∀ p ∈ l, p.line ≠ n) → (l.foldl (fun t p => armLine .falling p t) s).line n = s.line n) := by
  induction l generalizing s with
  | nil => simp
  | cons q l ih =>
    simp only [List.map_cons, List.nodup_cons] at hnd
    obtain ⟨i1, i2⟩ := ih (armLine .falling q s) hnd.2
    refine ⟨fun p hp hn => ?_, fun h => ?_⟩
    · rcases List.mem_cons.mp hp with rfl | hp'
      · refine ⟨s, rfl, rfl, rfl, ?_⟩
        rw [List.foldl_cons, i2, armLine_line, if_pos hn.symm]
        intro r hr e
        exact hnd.1 (by rw [hn, ← e]; exact List.mem_map_of_mem hr)
      · obtain ⟨u, hc, hr, hp, e⟩ := i1 p hp' hn
        exact ⟨u, by simpa using hc, by simpa using hr, by simpa using hp, e⟩
    · rw [List.foldl_cons, i2 (fun r hr => h r (by simp [hr])), armLine_line, if_neg (fun e => h q (by simp) e.symm)]

/-- Arming changes lines, marks and the number of the next draw only. -/
theorem foldl_arm_frame (l : List PinId) (s : State) :
    l.foldl (fun t p => armLine .falling p t) s = { s with
      lines := (l.foldl (fun t p => armLine .falling p t) s).lines
      marks := (l.foldl (fun t p => armLine .falling p t) s).marks
      draws := (l.foldl (fun t p => armLine .falling p t) s).draws } := by
  induction l generalizing s with
  | nil => rfl
  | cons p l ih =>
    rw [List.foldl_cons, ih]
    unfold armLine noteForeign
    split <;> rfl

theorem armColumns_frame (s : State) :
    armColumns s = { s with
      lines := (armColumns s).lines, marks := (armColumns s).marks, draws := (armColumns s).draws } := by
  unfold armColumns
  split
  · rfl
  · exact foldl_arm_frame _ _

/-- The ring of a valid configuration: `RB.INIT(N_ROWS * N_COLS)` does not fail (42 R140, R141). -/
theorem ringInit_valid {s : State} (hv : s.cfg.valid = true) :
    (ringInit (s.cfg.nRows * s.cfg.nCols) s).1 =
      { s with rbCap := s.cfg.nRows * s.cfg.nCols, head := 0, tail := 0, rbValid := true } := by
  unfold ringInit
  rw [if_neg]
  obtain ⟨_, h1, h2, _, h3, _⟩ := valid_iff.mp hv
  have : 1 ≤ s.cfg.nRows * s.cfg.nCols := Nat.mul_pos h1 h2
  omega

/-- Everything outside the keypad, the ring, the pins and the lines is as it was before `KP.INIT`. -/
theorem bringUp_outside (s : State) :
    OutsideSame s (bringUp s) ∧ (bringUp s).buf = s.buf ∧ (bringUp s).inited = s.inited ∧ DelaysSame s (bringUp s) := by
  unfold bringUp
  dsimp only
  have bf := bindPins_frame s
  unfold PinsFrame at bf
  generalize bindPins s = b at *
  have df : ScanFrame b (driveRows s.cfg.rowRest b) := driveRows_frame _ _
  generalize driveRows s.cfg.rowRest b = d at *
  unfold ScanFrame at df
  have rf : (ringInit (s.cfg.nRows * s.cfg.nCols) d).1 = { d with
      rbValid := (ringInit (s.cfg.nRows * s.cfg.nCols) d).1.rbValid
      rbCap := (ringInit (s.cfg.nRows * s.cfg.nCols) d).1.rbCap
      head := (ringInit (s.cfg.nRows * s.cfg.nCols) d).1.head
      tail := (ringInit (s.cfg.nRows * s.cfg.nCols) d).1.tail } := by
    unfold ringInit
    split <;> rfl
  generalize (ringInit (s.cfg.nRows * s.cfg.nCols) d).1 = u at *
  have af := armColumns_frame (resetScanState u)
  generalize armColumns (resetScanState u) = x at *
  refine ⟨⟨?_, ?_, ?_, ?_, ?_, ?_, ?_⟩, ?_, ?_, ?_, ?_⟩ <;>
    ((try simp only); rw [af]; simp only [resetScanState]; rw [rf]; simp only; rw [df]; simp only; rw [bf])

end Machine
end Sys2Proof
end

