-- ==== Sys2Proof/Laws/Decode.lean ====
section
/-! SUPPORT. The fields of an assembled command word. -/

namespace Sys2Proof

theorem unitField_assemble (u f : BitVec 4) (a : Byte) : unitField (assemble u f a) = u := by
  unfold unitField assemble
  ext i hi
  simp only [BitVec.getElem_extractLsb', BitVec.getLsbD_append]
  have h1 : ¬ 12 + i < 8 := by omega
  have h2 : ¬ 12 + i - 8 < 4 := by omega
  have h3 : 12 + i - 8 - 4 = i := by omega
  simp [h1, h2, h3, BitVec.getLsbD_eq_getElem hi]

theorem fnField_assemble (u f : BitVec 4) (a : Byte) : fnField (assemble u f a) = f := by
  unfold fnField assemble
  ext i hi
  simp only [BitVec.getElem_extractLsb', BitVec.getLsbD_append]
  have h1 : ¬ 8 + i < 8 := by omega
  have h2 : 8 + i - 8 = i := by omega
  simp [hi]

theorem immField_assemble (u f : BitVec 4) (a : Byte) : immField (assemble u f a) = a := by
  unfold immField assemble
  exact BitVec.extractLsb'_append_eq_right

theorem hiField_eq (w : CmdWord) : hiField w = (immField w).extractLsb' 4 4 := by
  unfold hiField immField
  ext i hi
  simp

theorem loField_eq (w : CmdWord) : loField w = (immField w).extractLsb' 0 4 := by
  unfold loField immField
  ext i hi
  simp

theorem pinField_assemble (u f : BitVec 4) (p : PinId) : pinField (assemble u f p.byte) = p := by
  obtain ⟨a, b⟩ := p
  unfold pinField
  rw [hiField_eq, loField_eq, immField_assemble]
  unfold PinId.byte
  rw [BitVec.extractLsb'_append_eq_left, BitVec.extractLsb'_append_eq_right]

/-- The function field of `IO.CFG` (30_encoding R80 format G). -/
theorem cfgFn_dir (d : Dir) (q : Pull) : Dir.ofBit ((cfgFn d q).getLsbD 2) = d := by
  cases d <;> cases q <;> rfl

theorem cfgFn_pull (d : Dir) (q : Pull) : Pull.ofBits ((cfgFn d q).extractLsb' 0 2) = some q := by
  cases d <;> cases q <;> rfl

theorem cfgFn_lt (d : Dir) (q : Pull) : (cfgFn d q).toNat < 8 := by
  cases d <;> cases q <;> decide

/-- The `pull` and `dir` bits lie in the function field. -/
theorem pullBits_eq (w : CmdWord) : w.extractLsb' 8 2 = (fnField w).extractLsb' 0 2 := by
  unfold fnField
  ext i hi
  have : i < 4 := by omega
  simp [this]

theorem dirBit_eq (w : CmdWord) : w.getLsbD 10 = (fnField w).getLsbD 2 := by
  unfold fnField
  simp

/-- A word is assembled from its fields. -/
theorem assemble_fields (w : CmdWord) : assemble (unitField w) (fnField w) (immField w) = w := by
  unfold assemble unitField fnField immField
  ext i hi
  simp only [BitVec.getElem_append, BitVec.getElem_extractLsb']
  split
  · simp [BitVec.getLsbD_eq_getElem hi]
  · split
    · have : 8 + (i - 8) = i := by omega
      rw [this]; exact BitVec.getLsbD_eq_getElem hi
    · have : 12 + (i - 8 - 4) = i := by omega
      rw [this]; exact BitVec.getLsbD_eq_getElem hi

/-- Decoding depends on the fields only: the decoder of unit `u` reads an assembled word. -/
theorem decodeWord_assemble (u f : BitVec 4) (a : Byte) : decodeWord (assemble u f a) =
    match u.toNat with
    | 1 => decodeRb (assemble u f a)
    | 2 => decodeKp (assemble u f a)
    | 3 => decodeIl (assemble u f a)
    | 4 => decodeIo (assemble u f a)
    | 5 => decodeTm (assemble u f a)
    | _ => .error .reservedUnit := by
  unfold decodeWord
  rw [unitField_assemble]
  try rfl

end Sys2Proof
end

