-- ==== Sys2Proof/Laws/Step.lean ====
section
/-! SUPPORT. Everything one step can do: the moves of the schedule, the cases of KDB's own move, and which word it takes from the port. -/

namespace Sys2Proof
namespace Machine

/-- With a move at its head, the schedule makes that move. -/
theorem step_of_sched {s : State} {m : Move} {ms : List Move} (h : s.sched = m :: ms) :
    step s = move m { s with sched := ms } := by
  unfold step advance
  rw [h]

/-- When KDB moves, the step is its move on the state without that move on the schedule. -/
theorem step_of_kdbMoves {s : State} (h : s.kdbMoves = true) : step s = kdbMove { s with sched := s.sched.tail } := by
  unfold step advance
  unfold State.kdbMoves at h
  split at h
  · rename_i e
    rw [e, List.tail_nil]
    exact congrArg kdbMove (by rw [← e])
  · rename_i ms e
    rw [e]
    rfl
  · cases h

/-- Either KDB moves, or the step is another agent's move, which always gives a next state. -/
theorem step_cases (s : State) :
    (s.kdbMoves = true ∧ step s = kdbMove { s with sched := s.sched.tail }) ∨
    (∃ e ms, s.sched = .env e :: ms ∧ step s = .next (envStep e { s with sched := ms })) ∨
    (∃ c w ms, s.sched = .ready c w :: ms ∧ step s = .next (makeReady c w { s with sched := ms })) ∨
    (∃ ms, s.sched = .serve :: ms ∧ step s = .next (serve { s with sched := ms })) := by
  cases hk : s.kdbMoves with
  | true => exact .inl ⟨rfl, step_of_kdbMoves hk⟩
  | false =>
    refine .inr ?_
    cases hs : s.sched with
    | nil => simp [State.kdbMoves, hs] at hk
    | cons m ms =>
      have e := step_of_sched hs
      cases m with
      | kdb => simp [State.kdbMoves, hs] at hk
      | env v => exact .inl ⟨v, ms, rfl, e⟩
      | ready c w => exact .inr (.inl ⟨c, w, ms, rfl, e⟩)
      | serve => exact .inr (.inr ⟨ms, rfl, e⟩)

/-- The word KDB takes next: the producer's first, else the main loop's first if it waits in no delay (20_memory R69, 46 R217). -/
theorem fetch_eq_some {s t : State} {w : CmdWord} :
    s.fetch = some (w, t) ↔
      (∃ ws, s.producer = w :: ws ∧ t = { s with producer := ws, issuer := .producer }) ∨
      (s.producer = [] ∧ s.mainDelay = none ∧
        ∃ ws, s.consumer = w :: ws ∧ t = { s with consumer := ws, issuer := .consumer }) := by
  unfold State.fetch
  split <;> rename_i h1 h2 <;> simp_all [eq_comm]

/-- Taking a word changes the queue it stood in and whose operation runs, and nothing else. -/
theorem fetch_frame {s t : State} {w : CmdWord} (h : s.fetch = some (w, t)) :
    t = { s with producer := t.producer, consumer := t.consumer, issuer := t.issuer } := by
  rcases fetch_eq_some.mp h with ⟨ws, -, rfl⟩ | ⟨-, -, ws, -, rfl⟩ <;> rfl

/-- Everything KDB's own move can do. -/
theorem kdbMove_cases (s : State) :
    (∃ d, s.delay = some d ∧ s.delayOver d = false ∧ kdbMove s = .next s) ∨
    (∃ d, s.delay = some d ∧ s.delayOver d = true ∧ kdbMove s = endDelay s) ∨
    (s.delay = none ∧ s.hstep ≠ .h0 ∧ kdbMove s = microStep s) ∨
    (s.delay = none ∧ s.hstep = .h0 ∧ ∃ w t, s.fetch = some (w, t) ∧ kdbMove s = runWord w t) ∨
    (s.delay = none ∧ s.hstep = .h0 ∧ s.fetch = none ∧ kdbMove s = idleMove s) := by
  unfold kdbMove
  cases hd : s.delay with
  | some d =>
    cases ho : s.delayOver d with
    | false => exact .inl ⟨d, rfl, ho, by simp [ho]⟩
    | true => exact .inr (.inl ⟨d, rfl, ho, by simp [ho]⟩)
  | none =>
    by_cases hh : s.hstep = .h0
    · have hi : s.inHandler = false := by simp [State.inHandler, hh]
      cases hf : s.fetch with
      | some p => exact .inr (.inr (.inr (.inl ⟨rfl, hh, p.1, p.2, rfl, by simp [hi]⟩)))
      | none => exact .inr (.inr (.inr (.inr ⟨rfl, hh, rfl, by simp [hi]⟩)))
    · have hi : s.inHandler = true := by simp [State.inHandler, hh]
      exact .inr (.inr (.inl ⟨rfl, hh, by simp [hi]⟩))

/-- KDB's move when no word can be taken: nothing, or the main loop's delay is over and answers `OK` (46 R217). -/
theorem idleMove_cases (s : State) :
    idleMove s = .next s ∨
    ∃ d, s.mainDelay = some d ∧ s.delayOver d = true ∧
      idleMove s = .next { s with mainDelay := none, resp := some (.ok 0) } := by
  unfold idleMove
  cases hd : s.mainDelay with
  | none => exact .inl rfl
  | some d =>
    cases ho : s.delayOver d with
    | false => exact .inl (by simp [ho])
    | true => exact .inr ⟨d, rfl, ho, by simp [ho, endMainDelay, answerOk_eq_next]⟩

end Machine
end Sys2Proof
end

