-- ==== Sys2Proof/Tests/Slice0.lean ====
section
/-! SUPPORT. The model's own tests, with expected results from 95_test_vectors and 30_encoding, and for every statement with hypotheses a witness that meets them. -/

namespace Sys2Proof
namespace Tests

open Sys2Proof.Machine

/-! ## Helpers -/

/-- A result is a next state with the property. -/
def nextWith (x : Result State) (p : State → Bool) : Bool :=
  match x with
  | .next t => p t
  | _ => false

/-- The next state of a result, or the state itself. -/
def orElse (s : State) (x : Result State) : State :=
  match x with
  | .next t => t
  | _ => s

/-- The state after one operation. -/
def did (i : Instr) (s : State) : State := orElse s (exec i s)

/-- The state before any operation, of the reference configuration in a variant (95_test_vectors section 1). -/
def fresh (v : Variant) : State := State.resetWith (Config.reference v)

/-- The state after `KP.INIT`. -/
def boot (v : Variant) : State := did .kpInit (fresh v)

/-- A ring of capacity `c` at the given indices, its slots holding the bytes. -/
def ring (c h t : Nat) (bytes : List Byte) : State :=
  { fresh .poll with rbValid := true, rbCap := c, head := h, tail := t, buf := (List.range bytes.length).zip bytes }

/-- A key closes in the Interrupt variant: (1,2), column pin PB9 (V-KI1). -/
def rung : State := setPressed [(1, 2)] (boot .interrupt)

/-- The handler entered for it, at `H1`. -/
def entered : State := did (.kpIrq 5) rung

/-- The handler after one micro-step more. -/
def micro (s : State) : State := orElse s (microStep s)

/-- At `H2`, the lines disabled. -/
def atH2 : State := micro entered
/-- At `H3`, the delay over. -/
def atH3 : State := { atH2 with hstep := .h3, ms := 5 }
/-- At `H4`, the key (1,2) scanned. -/
def atH4 : State := micro atH3
/-- At `H5`, its symbol reported. -/
def atH5 : State := micro atH4
/-- At `H6`, the flags cleared. -/
def atH6 : State := micro atH5

/-- The poll machine with key (2,1) closed, in a phase with a count. -/
def ticking (p : Phase) (n : Nat) : State := { setPressed [(2, 1)] (boot .poll) with phase := p, cnt := n }

/-! ## Well-formedness: the one check, and a term it refuses -/

theorem test_wf_refuses_vector7 : (Instr.kpIrq 7).wf = false := by decide
theorem test_wf_accepts_vector6 : (Instr.kpIrq 6).wf = true := by decide
theorem test_illformed_does_not_decode : decode (encode (.kpIrq 7)) = none := by decide

/-! ## Decoding: the words of V-EN1 -/

theorem test_decode_rb : decode 0x1010 = some (.rbInit 16) ∧ decode 0x1138 = some (.rbWr 0x38) ∧ decode 0x1200 = some .rbRd ∧
    decode 0x1300 = some .rbCnt ∧ decode 0x1400 = some .rbFlush := by decide
theorem test_decode_kp : decode 0x2000 = some .kpInit ∧ decode 0x2100 = some .kpTick ∧ decode 0x2200 = some (.kpIrq 0) ∧
    decode 0x2206 = some (.kpIrq 6) ∧ decode 0x2300 = some .kpRdkey := by decide
theorem test_decode_il : decode 0x3119 = some (.ilArmf ⟨1, 9⟩) ∧ decode 0x3219 = some (.ilArmr ⟨1, 9⟩) ∧
    decode 0x34FF = some (.ilDis ⟨15, 15⟩) ∧ decode 0x3500 = some (.ilEn ⟨0, 0⟩) ∧
    decode 0x3619 = some (.ilClr ⟨1, 9⟩) := by decide
theorem test_decode_io : decode 0x4000 = some (.ioCfg ⟨0, 0⟩ .input .noPull) ∧ decode 0x4115 = some (.ioCfg ⟨1, 5⟩ .input .up) ∧
    decode 0x4615 = some (.ioCfg ⟨1, 5⟩ .output .down) ∧ decode 0x4801 = some (.ioSet ⟨0, 1⟩) ∧
    decode 0x4901 = some (.ioRst ⟨0, 1⟩) ∧ decode 0x4A15 = some (.ioRd ⟨1, 5⟩) := by decide
theorem test_decode_tm : decode 0x5000 = some .tmNow ∧ decode 0x51FF = some (.tmDelay 255) := by decide

/-- The illegal words of V-EN1, each refused by name. -/
theorem test_decode_refuses : (decodeWord 0x0000).isOk = false ∧ (decodeWord 0x0100).isOk = false ∧
    (decodeWord 0x1201).isOk = false ∧ (decodeWord 0x1500).isOk = false ∧ (decodeWord 0x2001).isOk = false ∧
    (decodeWord 0x2207).isOk = false ∧ (decodeWord 0x2215).isOk = false ∧ (decodeWord 0x2400).isOk = false ∧
    (decodeWord 0x3019).isOk = false ∧ (decodeWord 0x3319).isOk = false ∧ (decodeWord 0x3719).isOk = false ∧
    (decodeWord 0x4315).isOk = false ∧ (decodeWord 0x4715).isOk = false ∧ (decodeWord 0x4B15).isOk = false ∧
    (decodeWord 0x4C00).isOk = false ∧ (decodeWord 0x5001).isOk = false ∧ (decodeWord 0x5200).isOk = false ∧
    (decodeWord 0x6000).isOk = false ∧ (decodeWord 0xFFFF).isOk = false := by decide

/-- Words from 95_test_vectors, encoded. -/
theorem test_encode : encode (.rbInit 4) = 0x1004 ∧ encode (.kpIrq 5) = 0x2205 ∧ encode (.ilDis ⟨1, 4⟩) = 0x3414 ∧
    encode (.ioCfg ⟨0, 0⟩ .output .noPull) = 0x4400 ∧ encode (.ioRst ⟨0, 2⟩) = 0x4902 ∧ encode (.tmDelay 5) = 0x5105 := by decide

/-- The text of R87, and the two spellings of R88. -/
theorem test_text : (Instr.ilArmf ⟨1, 9⟩).text = "IL.ARMF PB9" ∧ (Instr.kpIrq 5).text = "KP.IRQ V5" ∧
    (Instr.ilArm ⟨1, 9⟩ .R) = .ilArmr ⟨1, 9⟩ := by decide

/-! ## The step from reset -/

theorem test_reset_runs_word : nextWith (step (State.reset.withFetchWord 16 0x4800)) (fun t => t.rowOut == [true, false, false, false]) = true := by
  decide
theorem test_illegal_word_answers : nextWith (step (State.reset.withFetchWord 16 0x2207)) (fun t => t.resp == some .eIllegal && t.marks.eIllegal) = true := by
  decide
theorem test_producer_first : nextWith (step { fresh .poll with producer := [0x1300], consumer := [0x5000] })
    (fun t => t.producer == [] && t.consumer == [0x5000]) = true := by decide
/-- R196: a handler starts while the main loop waits in a `TM.DELAY`, and the main loop takes no word meanwhile (R217). -/
theorem test_irq_preempts_main_delay : nextWith (step { rung with mainDelay := some ⟨0, 5⟩, producer := [0x2205], consumer := [0x2300] })
    (fun t => t.hstep == .h1 && t.mainDelay == some ⟨0, 5⟩ && t.consumer == [0x2300]) = true := by decide
/-- R218: a tick runs while the main loop waits. -/
theorem test_tick_preempts_main_delay : nextWith (step { ticking .idle 0 with mainDelay := some ⟨0, 5⟩, producer := [0x2100] })
    (fun t => t.phase == .debounce && t.mainDelay == some ⟨0, 5⟩) = true := by decide

/-! ## Unit RB (V-RB1 to V-RB9) -/

theorem test_rbInit : nextWith (exec (.rbInit 16) (fresh .poll)) (fun t => t.rbValid && t.rbCap == 16 && t.resp == some (.ok 0)) = true := by
  decide
theorem test_rbInit_too_large : nextWith (exec (.rbInit 17) (ring 4 2 0 [])) (fun t => !t.rbValid && t.rbCap == 4 && t.head == 2 &&
    t.resp == some .eStorage) = true := by decide
/-- V-RB3 step 5: the ring is full and the oldest byte is dropped. -/
theorem test_rbWr_drops_oldest : nextWith (exec (.rbWr 0x44) (ring 4 3 0 [0x41, 0x42, 0x43]))
    (fun t => t.head == 0 && t.tail == 1 && t.buf == [(0, 0x41), (1, 0x42), (2, 0x43), (3, 0x44)]) = true := by decide
theorem test_rbWr_rejected : nextWith (exec (.rbWr 0x41) (fresh .poll)) (fun t => t.resp == some .rejected && t.buf == []) = true := by
  decide
/-- V-RB3 step 8: reading at the last slot wraps the index. -/
theorem test_rbRd_wraps : nextWith (exec .rbRd (ring 4 1 3 [0x45, 0x42, 0x43, 0x44])) (fun t => t.tail == 0 && t.resp == some (.ok 0x44)) = true := by
  decide
theorem test_rbRd_empty : nextWith (exec .rbRd (ring 4 3 3 [0x41, 0x42, 0x43])) (fun t => t.tail == 3 && t.resp == some .noValue) = true := by
  decide
/-- V-RB3 step 6: the count across the wrap. -/
theorem test_rbCnt_wraps : nextWith (exec .rbCnt (ring 4 1 2 [0x45, 0x42, 0x43, 0x44])) (fun t => t.resp == some (.ok 3)) = true := by
  decide
/-- V-RB5. -/
theorem test_rbFlush : nextWith (exec .rbFlush (ring 4 3 1 [0x41, 0x42, 0x43])) (fun t => t.head == 0 && t.tail == 0 && t.rbCap == 4 && t.rbValid) = true := by
  decide

/-! ## Unit IO (V-IO1, V-SC1, V-SC6) -/

theorem test_ioCfg : nextWith (exec (.ioCfg ⟨1, 5⟩ .output .down) (fresh .poll)) (fun t => t.pin 0x15 == ⟨.output, .down⟩ &&
    t.pin 0x14 == PinReg.reset) = true := by decide
theorem test_ioSet_not_a_row : nextWith (exec (.ioSet ⟨2, 7⟩) (boot .poll)) (fun t => t.rowOut == [true, true, true, true]) = true := by
  decide
theorem test_ioRst : nextWith (exec (.ioRst ⟨0, 2⟩) (boot .poll)) (fun t => t.rowOut == [true, true, false, true]) = true := by decide
/-- V-IO1: with (2,1) closed PB5 reads low when row 2 is low. -/
theorem test_ioRd_low : nextWith (exec (.ioRd ⟨1, 5⟩) { setPressed [(2, 1)] (boot .poll) with rowOut := [true, true, false, true] })
    (fun t => t.resp == some (.ok 0)) = true := by decide
theorem test_ioRd_high : nextWith (exec (.ioRd ⟨1, 5⟩) (setPressed [(2, 1)] (boot .poll))) (fun t => t.resp == some (.ok 1)) = true := by
  decide
theorem test_scan_rows_first : (scan (setPressed [(0, 3), (2, 1)] (boot .poll))).2 = some (0, 3) ∧
    (scan (setPressed [(1, 0), (1, 2)] (boot .poll))).2 = some (1, 0) := by decide

/-! ## Unit KP (V-KP3, V-KP6, V-KP11, V-KI1, V-KI2) -/

theorem test_kpInit : nextWith (exec .kpInit (fresh .poll)) (fun t => t.active && t.rowOut == [true, true, true, true] && t.rbCap == 16 &&
    t.pin 0x14 == ⟨.input, .up⟩ && t.pin 0x00 == ⟨.output, .noPull⟩) = true := by decide
theorem test_kpInit_no_config : nextWith (exec .kpInit { fresh .poll with cfg := { Config.reference .poll with cfgPresent := false } })
    (fun t => !t.active && t.inited && t.resp == some .eConfig && t.marks.eConfig) = true := by decide
/-- V-KP3: the confirming tick. -/
theorem test_kpTick_confirms : nextWith (exec .kpTick (ticking .debounce 19)) (fun t => t.phase == .pressed && t.cnt == 20 && t.head == 1 &&
    t.buf == [(0, 0x38)]) = true := by decide
/-- V-KP2, tick 20: one tick too few. -/
theorem test_kpTick_counts : nextWith (exec .kpTick (ticking .debounce 18)) (fun t => t.phase == .debounce && t.cnt == 19 && t.head == 0) = true := by
  decide
/-- V-KI1, `H0`. -/
theorem test_kpIrq_enters : nextWith (exec (.kpIrq 5) rung) (fun t => t.trig == 0x0200 && t.hstep == .h1 && t.resp == none) = true := by
  decide
/-- V-KI2: redundant. -/
theorem test_kpIrq_redundant : nextWith (exec (.kpIrq 6) (boot .interrupt)) (fun t => t.trig == 0 && t.hstep == .h0 && t.resp == some (.ok 0)) = true := by
  decide
/-- V-KI1, `H3` and `H4`: key (1,2) is found and 0x36 is written. -/
theorem test_handler_reports : atH4.hkey = some (1, 2) ∧ atH4.rowOut = [false, false, false, false] ∧ atH5.buf = [(0, 0x36)] ∧
    atH5.head = 1 := by decide
/-- V-KI1, `H5` and `H6`. -/
theorem test_handler_returns : (atH6.line 9).pend = false ∧ (atH6.line 9).en = false ∧ ((micro atH6).line 9).en = true ∧
    (micro atH6).hstep = .h0 := by decide
theorem test_kpRdkey : nextWith (exec .kpRdkey { boot .poll with head := 1, buf := [(0, 0x38)] }) (fun t => t.tail == 1 &&
    t.resp == some (.ok 0x38)) = true := by decide
theorem test_kpRdkey_inactive : nextWith (exec .kpRdkey (ring 4 1 0 [0x41])) (fun t => t.tail == 0 && t.resp == some .noValue) = true := by
  decide

/-! ## Unit IL (V-IL1 to V-IL8) -/

/-- V-IL1. -/
theorem test_ilArmf : nextWith (exec (.ilArmf ⟨1, 9⟩) (boot .poll)) (fun t => t.line 9 == ⟨1, .falling, true, false, true⟩) = true := by
  decide
theorem test_ilArmr : nextWith (exec (.ilArmr ⟨1, 9⟩) (boot .poll)) (fun t => t.line 9 == ⟨1, .rising, true, false, true⟩) = true := by
  decide
/-- V-IL3: the request falls and the flag stays. -/
theorem test_ilDis : nextWith (exec (.ilDis ⟨1, 9⟩) rung) (fun t => !t.vreq 5 && (t.line 9).pend) = true := by decide
/-- V-IL3: re-fire at once. -/
theorem test_ilEn : nextWith (exec (.ilEn ⟨1, 9⟩) (did (.ilDis ⟨1, 9⟩) rung)) (fun t => t.vreq 5) = true := by decide
/-- V-IL4: only the number is used. -/
theorem test_ilClr : nextWith (exec (.ilClr ⟨0, 9⟩) rung) (fun t => !(t.line 9).pend && !(t.line 9).last) = true := by decide
/-- V-IL2: an enabled falling line latches, and V-IL8 for shared vectors. -/
theorem test_latch : (rung.line 9).pend = true ∧ rung.vreq 5 = true ∧ rung.vreq 6 = false := by decide
theorem test_vectors : (List.finRange 16).map vectorOf = [0, 1, 2, 3, 4, 5, 5, 5, 5, 5, 6, 6, 6, 6, 6, 6] := by decide

/-! ## Unit TM (V-TM1) -/

theorem test_tmNow : nextWith (exec .tmNow { fresh .poll with ms := 1000 }) (fun t => t.resp == some (.ok 0x3E8)) = true := by decide
theorem test_tmDelay_waits : nextWith (exec (.tmDelay 5) { fresh .poll with ms := 1000, issuer := .consumer })
    (fun t => t.mainDelay == some ⟨1000, 5⟩ && t.delay == none && t.resp == none) = true ∧
    nextWith (exec (.tmDelay 5) { fresh .poll with ms := 1000, issuer := .producer })
    (fun t => t.delay == some ⟨1000, 5⟩ && t.mainDelay == none && t.resp == none) = true := by decide
/-- V-TM1: the clock has wrapped to 3. -/
theorem test_tmDelay_wraps : nextWith (kdbMove { fresh .poll with ms := 3, mainDelay := some ⟨0xFFFFFFFE, 5⟩ }) (fun t => t.mainDelay == none &&
    t.resp == some (.ok 0)) = true ∧
    nextWith (kdbMove { fresh .poll with ms := 2, mainDelay := some ⟨0xFFFFFFFE, 5⟩ }) (fun t => t.mainDelay != none) = true := by decide
/-- R215 at the end of the clock's range: `ms` wraps, and the run is marked (93 U16). -/
theorem test_clock_wraps : (envStep (.ms 3) { fresh .poll with ms := 0xFFFFFFFD }).ms = 0 ∧
    (envStep (.ms 3) { fresh .poll with ms := 0xFFFFFFFD }).marks.msWrap = true ∧
    (envStep (.ms 2) { fresh .poll with ms := 0xFFFFFFFD }).marks.msWrap = false := by decide

/-! ## Checks that decide the invariants of a concrete state -/

def ringCheck (s : State) : Bool :=
  !s.rbValid || (decide (1 ≤ s.rbCap) && decide (s.rbCap ≤ s.cfg.rbSlots) && decide (s.head < s.rbCap) && decide (s.tail < s.rbCap) &&
    (List.range s.ringCount).all fun i => (s.buf.read ((s.tail + i) % s.rbCap)).isSome)

theorem ringOk_of {s : State} (h : ringCheck s = true) : RingOk s := by
  simp only [ringCheck, Bool.or_eq_true, Bool.not_eq_true', Bool.and_eq_true, decide_eq_true_eq, List.all_eq_true, List.mem_range] at h
  refine ⟨fun hv => ?_, fun hv => ?_, fun hv => ?_⟩ <;> rcases h with h | ⟨⟨⟨⟨h1, h2⟩, h3⟩, h4⟩, h5⟩
  any_goals rw [hv] at h; cases h
  exacts [⟨h1, h2⟩, ⟨h3, h4⟩, h5]

def keysCheck (c : Config) (l : List Key) : Bool :=
  decide (l.Pairwise fun a b => keyLt a b = true) && l.all c.hasKey

theorem keysOk_of {c : Config} {l : List Key} (h : keysCheck c l = true) : KeysOk c l := by
  simp only [keysCheck, Bool.and_eq_true, decide_eq_true_eq, List.all_eq_true] at h
  exact h

def runCheck (s : State) : Bool :=
  s.buf.wf && decide (s.rowOut.length = s.cfg.nRows) && decide (s.cfg.keymap.length = s.cfg.nRows * s.cfg.nCols) && ringCheck s &&
    keysCheck s.cfg s.pressed && (!s.active || (s.inited && s.cfg.valid)) && s.hkey.all s.cfg.hasKey &&
    decide (5 ≤ s.cfg.cntW ∧ s.cfg.debounceThreshold < 2 ^ s.cfg.cntW) &&
    (decide (s.ms < 2 ^ s.cfg.msW) && s.delay.all (fun d => d.t0 < 2 ^ s.cfg.msW) && s.mainDelay.all fun d => d.t0 < 2 ^ s.cfg.msW) &&
    decide (s.phase = .debounce → s.cnt < max 1 s.cfg.debounceThreshold) &&
    decide (s.cnt ≤ max 1 s.cfg.debounceThreshold) &&
    decide (s.cfg.variant = .poll → s.hstep = .h0 ∧ s.hkey = none ∧ s.trig = 0) &&
    decide (s.cfg.variant = .interrupt → s.phase = .idle ∧ s.cnt = 0) &&
    decide (s.hkey ≠ none → s.hstep = .h4 ∨ s.hstep = .h5 ∨ s.hstep = .h6) &&
    decide (s.delay ≠ none → s.hstep = .h0 ∨ s.hstep = .h2)

theorem runOk_of {s : State} (h : runCheck s = true) : RunOk s := by
  simp only [runCheck, Bool.and_eq_true, decide_eq_true_eq] at h
  obtain ⟨⟨⟨⟨⟨⟨⟨⟨⟨⟨⟨⟨⟨⟨h1, h2⟩, h3⟩, h4⟩, h5⟩, h6⟩, h7⟩, hw⟩, ⟨hm, hd⟩, hn⟩, h8⟩, h9⟩, h10⟩, h11⟩, h12⟩, h13⟩ := h
  refine ⟨h1, h2, h3, ringOk_of h4, keysOk_of h5, fun ha => ?_, fun k hk => ?_, hw, ⟨hm, fun d e => ?_, fun d e => ?_⟩, h8, h9, h10, h11, h12, h13⟩
  · simpa [ha] using h6
  · simpa [hk] using h7
  · simpa [e] using hd
  · simpa [e] using hn

def keypadCheck (s : State) : Bool :=
  decide (s.rowOut = List.replicate s.cfg.nRows s.cfg.rowRest) && s.rbValid && decide (s.rbCap = s.cfg.nRows * s.cfg.nCols) &&
    decide (∀ p ∈ s.cfg.rowPin, s.pin p.index = ⟨.output, .noPull⟩) && decide (∀ p ∈ s.cfg.colPin, s.pin p.index = ⟨.input, .up⟩) &&
    (decide (s.cfg.variant = .poll) || decide (∀ p ∈ s.cfg.colPin, (s.line p.line).port = p.port ∧ (s.line p.line).edge = .falling ∧
      ((s.line p.line).en = true ↔ s.hstep = .h0 ∨ s.hstep = .h1)))

theorem keypadOk_of {s : State} (h : keypadCheck s = true) : KeypadOk s := by
  simp only [keypadCheck, Bool.and_eq_true, Bool.or_eq_true, decide_eq_true_eq] at h
  obtain ⟨⟨⟨⟨⟨h1, h2⟩, h3⟩, h4⟩, h5⟩, h6⟩ := h
  refine ⟨fun _ => h1, fun _ => ⟨h2, h3⟩, fun _ => ⟨h4, h5⟩, fun _ hv => ?_⟩
  rcases h6 with h6 | h6
  · rw [hv] at h6; cases h6
  · exact h6

/-! ## Witnesses: encoding and the port -/

theorem test_witness_DecodeEncodeRoundTrip : (Instr.kpIrq 6).wf = true ∧ (Instr.ioCfg ⟨15, 15⟩ .output .down).wf = true := by decide
theorem test_witness_DecodeFollowsOpcodeTable : decode 0x2206 = some (.kpIrq 6) ∧
    (∃ r ∈ opRows, r.selects 0x4615 = true ∧ (0x4615 : CmdWord) &&& r.mask = r.matchBits) := by
  refine ⟨by decide, ⟨"IO.CFG", 0x4000, 0xF800, .pullNot3⟩, by decide, by decide, by decide⟩
theorem test_witness_IllegalWordsAnswered : illegalWord 0x0FFF ∧ illegalWord 0x6000 ∧ illegalWord 0x1500 ∧ illegalWord 0x1201 ∧
    illegalWord 0x1401 ∧ illegalWord 0x2400 ∧ illegalWord 0x2001 ∧ illegalWord 0x2207 ∧ illegalWord 0x2210 ∧ illegalWord 0x3000 ∧
    illegalWord 0x3300 ∧ illegalWord 0x3700 ∧ illegalWord 0x4700 ∧ illegalWord 0x4B00 ∧ illegalWord 0x5200 ∧ illegalWord 0x5001 ∧
    illegalWord 0x14FF ∧ ¬ illegalWord 0x1400 ∧ ¬ illegalWord 0x2206 ∧ ¬ illegalWord 0x46FF ∧ ¬ illegalWord 0x4AFF ∧
    ¬ illegalWord 0x51FF := by
  unfold illegalWord
  refine ⟨?_, ?_, ?_, ?_, ?_, ?_, ?_, ?_, ?_, ?_, ?_, ?_, ?_, ?_, ?_, ?_, ?_, ?_, ?_, ?_, ?_, ?_⟩ <;> decide
/-- A producer's word, also while the main loop waits; a consumer's; a word that decodes to none; and a word made ready. -/
theorem test_witness_StepRunsDecodedInstruction : (∀ w ∈ ([0x2205, 0x2207] : List CmdWord), ∃ s : State, s.kdbMoves = true ∧ s.delay = none ∧
      s.hstep = .h0 ∧ s.producer = [w] ∧ s.mainDelay ≠ none) ∧
    (∀ w ∈ ([0x2300, 0x0000] : List CmdWord), ∃ s : State, s.kdbMoves = true ∧ s.delay = none ∧ s.hstep = .h0 ∧
      s.producer = [] ∧ s.mainDelay = none ∧ s.consumer = [w]) ∧
    decode 0x2205 = some (.kpIrq 5) ∧ decode 0x2300 = some .kpRdkey ∧
    ∃ s : State, s.sched = [.ready .consumer 0x2300, .kdb] :=
  ⟨fun w _ => ⟨{ rung with producer := [w], mainDelay := some ⟨0, 5⟩, sched := [.kdb] }, rfl, rfl, rfl, rfl, by simp⟩,
    fun w _ => ⟨{ fresh .poll with consumer := [w] }, rfl, rfl, rfl, rfl, rfl, rfl⟩, by decide, by decide,
    ⟨{ fresh .poll with sched := [.ready .consumer 0x2300, .kdb] }, rfl⟩⟩
theorem test_witness_StepTakesMicroStep : entered.kdbMoves = true ∧ entered.delay = none ∧ entered.hstep ≠ .h0 := by decide
theorem test_witness_PlacedWordRunsNext : (Instr.ioSet ⟨0, 0⟩).wf = true := by decide
theorem test_witness_BusyPortTakesNoWord : (∃ s t : State, s.hstep ≠ .h0 ∧ step s = .next t) ∧
    (∃ s t : State, s.delay ≠ none ∧ step s = .next t) ∧ (∃ s t : State, s.mainDelay ≠ none ∧ s.consumer ≠ [] ∧ step s = .next t) :=
  ⟨⟨atH5, orElse atH5 (step atH5), by decide, by rfl⟩,
    ⟨{ fresh .poll with delay := some ⟨0, 5⟩ }, _, by decide, rfl⟩,
    ⟨{ fresh .poll with mainDelay := some ⟨0, 5⟩, consumer := [0x2300] }, _, by decide, by decide, rfl⟩⟩
theorem test_witness_OnlyEnvironmentMovesTimeAndKeys : ∃ s t : State, step s = .next t ∧ ∀ e, s.sched.head? ≠ some (.env e) :=
  ⟨{ fresh .poll with producer := [0x5000] }, _, rfl, by intro e; simp [fresh, State.resetWith]⟩

/-! ## Witnesses: initialisation -/

theorem test_witness_ResetMeetsInvariants : ∀ v : Variant, let c := Config.reference v
    c.keymap.length = c.nRows * c.nCols ∧ 5 ≤ c.cntW ∧ c.debounceThreshold < 2 ^ c.cntW := by
  intro v
  cases v <;> decide
theorem test_witness_BootLeavesKeypadReady : (∀ v : Variant, (fresh v).inited = false ∧ (fresh v).cfg.valid = true ∧
    (fresh v).rowOut.length = (fresh v).cfg.nRows) ∧ (⟨3, 3⟩ : PinId) ∉ (fresh .poll).cfg.rowPin ∧ (⟨3, 3⟩ : PinId) ∉ (fresh .poll).cfg.colPin ∧
    (fresh .poll).cfg.isColLine 0 = false := by
  refine ⟨fun v => ?_, by decide, by decide, by decide⟩
  cases v <;> decide
theorem test_witness_SecondInitRefused : (boot .poll).inited = true := by decide
theorem test_witness_InvalidConfigurationRefused : ∃ s : State, s.inited = false ∧ s.cfg.valid = false :=
  ⟨{ fresh .poll with cfg := { Config.reference .poll with cfgPresent := false } }, by decide, by decide⟩
theorem test_witness_RefusedKeypadStaysInert : (∃ s t : State, s.inited = true ∧ step s = .next t ∧ s.active = true) ∧
    (∃ s t : State, s.inited = true ∧ step s = .next t ∧ s.active = false) :=
  ⟨⟨{ fresh .poll with inited := true, active := true, producer := [0x1300] }, _, rfl, rfl, rfl⟩,
    ⟨{ fresh .poll with inited := true, producer := [0x1300] }, _, rfl, rfl, rfl⟩⟩

/-! ## Witnesses: the ring -/

/-- The clauses of R100 at their boundaries: 0 and 17 fail, 1 and 16 bind. -/
theorem test_witness_RingInitBindsOrFails : ((0 : Byte) = 0 ∨ (fresh .poll).cfg.rbSlots < (0 : Byte).toNat) ∧
    ((17 : Byte) = 0 ∨ (fresh .poll).cfg.rbSlots < (17 : Byte).toNat) ∧ ¬ ((16 : Byte) = 0 ∨ (fresh .poll).cfg.rbSlots < (16 : Byte).toNat) ∧
    ¬ ((1 : Byte) = 0 ∨ (fresh .poll).cfg.rbSlots < (1 : Byte).toNat) := by decide
theorem test_witness_RingWriteStoresByte : (fresh .poll).rbValid = false ∧
    (let s := ring 16 15 0 [1, 2, 3, 4, 5, 6, 7, 8, 9, 10, 11, 12, 13, 14, 15]
     s.rbValid = true ∧ s.head < s.cfg.rbSlots ∧ (s.head + 1) % s.rbCap = s.tail ∧ Address.ring 0 ≠ .ring s.head) ∧
    (let s := ring 16 0 0 []
     s.rbValid = true ∧ s.head < s.cfg.rbSlots ∧ (s.head + 1) % s.rbCap ≠ s.tail) := by decide
theorem test_witness_RingReadTakesOldest : (let s := ring 4 3 3 []
    s.head = s.tail) ∧ (fresh .poll).rbValid = false ∧
    (let s := ring 4 1 3 [0x45, 0x42, 0x43, 0x44]
     s.rbValid = true ∧ s.head ≠ s.tail ∧ s.tail < s.cfg.rbSlots ∧ s.memRead (.ring s.tail) = some 0x44) := by decide
theorem test_witness_RingCountAnswersFormula : RingOk (ring 4 1 2 [0x45, 0x42, 0x43, 0x44]) ∧ (ring 4 1 2 [0x45, 0x42, 0x43, 0x44]).rbValid = true ∧
    (fresh .poll).rbValid = false :=
  ⟨ringOk_of (by decide), by decide, by decide⟩
theorem test_witness_StopsByName : (let s := ring 4 16 0 []
    s.rbValid = true ∧ s.cfg.rbSlots ≤ s.head) ∧
    (let s := ring 4 0 16 []
     s.rbValid = true ∧ s.head ≠ s.tail ∧ s.cfg.rbSlots ≤ s.tail) ∧
    (let s := ring 4 0 15 []
     s.rbValid = true ∧ s.head ≠ s.tail ∧ s.tail < s.cfg.rbSlots ∧ s.memRead (.ring s.tail) = none) ∧
    (entered.cfg.variant = .interrupt ∧ entered.active = true ∧ entered.hstep ≠ .h0) := by decide
theorem test_witness_RingCountBounds : RingOk (ring 4 3 0 [0x41, 0x42, 0x43]) ∧ (ring 4 3 0 [0x41, 0x42, 0x43]).rbValid = true ∧
    (ring 4 3 0 [0x41, 0x42, 0x43]).ringCount + 1 = (ring 4 3 0 [0x41, 0x42, 0x43]).rbCap ∧ (ring 4 2 2 []).ringCount = 0 :=
  ⟨ringOk_of (by decide), by decide, by decide, by decide⟩
/-- A full ring; and the capacities at which `RB.INIT` binds and fails. -/
theorem test_witness_RingRefinesDropOldestQueue : RingOk (ring 4 3 0 [0x41, 0x42, 0x43]) ∧ (ring 4 3 0 [0x41, 0x42, 0x43]).rbValid = true ∧
    (∀ c ∈ ([1, 16] : List Byte), 1 ≤ c.toNat ∧ c.toNat ≤ (fresh .poll).cfg.rbSlots) ∧
    (∀ c ∈ ([0, 17] : List Byte), ¬ (1 ≤ c.toNat ∧ c.toNat ≤ (fresh .poll).cfg.rbSlots)) :=
  ⟨ringOk_of (by decide), by decide, by decide, by decide⟩
/-- V-RB2: writes and reads with no write to a full ring. -/
theorem test_witness_RingKeepsWriteOrder : RingOk (ring 4 0 0 []) ∧ (ring 4 0 0 []).rbValid = true ∧
    ∃ t out, ringRun [.write 1, .write 2, .read, .write 3, .read, .read, .read] (ring 4 0 0 []) = some (t, out) ∧ out = [1, 2, 3] :=
  ⟨ringOk_of (by decide), by decide, _, _, rfl, by decide⟩
/-- V-RB3: C + 1 writes to a ring of capacity C; and exactly C - 1. -/
theorem test_witness_OverrunKeepsLastBytes : RingOk (ring 4 0 0 []) ∧ (ring 4 0 0 []).rbValid = true ∧
    (ring 4 0 0 []).rbCap - 1 ≤ ([0x41, 0x42, 0x43, 0x44, 0x45] : List Byte).length ∧
    (ring 4 0 0 []).rbCap - 1 ≤ ([0x41, 0x42, 0x43] : List Byte).length :=
  ⟨ringOk_of (by decide), by decide, by decide, by decide⟩
theorem test_witness_DegenerateCapacities : (RingOk (ring 1 0 0 []) ∧ (ring 1 0 0 []).rbValid = true ∧ (ring 1 0 0 []).rbCap = 1) ∧
    (RingOk (ring 2 1 0 [0x41]) ∧ (ring 2 1 0 [0x41]).rbValid = true ∧ (ring 2 1 0 [0x41]).rbCap = 2) :=
  ⟨⟨ringOk_of (by decide), by decide, by decide⟩, ⟨ringOk_of (by decide), by decide, by decide⟩⟩

/-! ## Witnesses: pins and the scan -/

theorem test_witness_ConfigurePinRecords : (⟨0, 1⟩ : PinId) ≠ ⟨0, 0⟩ := by decide
theorem test_witness_DrivePinSetsRow : (⟨0, 3⟩ : PinId) ∈ (boot .poll).cfg.rowPin ∧ (boot .poll).rowOut.length = (boot .poll).cfg.nRows ∧
    (boot .poll).cfg.rowPin[3]? = some ⟨0, 3⟩ ∧ (boot .poll).cfg.rowPin[2]? ≠ some ⟨0, 3⟩ ∧ (⟨2, 7⟩ : PinId) ∉ (boot .poll).cfg.rowPin := by
  decide
theorem test_witness_ReadPinAnswersLevel : (boot .poll).cfg.isMatrix ⟨1, 10⟩ = true := by decide
theorem test_witness_PinLevels : (boot .poll).cfg.valid = true ∧ (boot .poll).rowOut.length = (boot .poll).cfg.nRows ∧
    (boot .poll).cfg.rowPin[0]? = some ⟨0, 0⟩ ∧ (boot .poll).cfg.colPin[3]? = some ⟨1, 10⟩ := by decide
theorem test_witness_CoreScanFindsLeastKey : (setPressed [(0, 3), (2, 1)] (boot .poll)).cfg.valid = true ∧
    KeysOk (setPressed [(0, 3), (2, 1)] (boot .poll)).cfg (setPressed [(0, 3), (2, 1)] (boot .poll)).pressed ∧
    (setPressed [(0, 3), (2, 1)] (boot .poll)).rowOut = List.replicate (setPressed [(0, 3), (2, 1)] (boot .poll)).cfg.nRows true ∧
    (setPressed [(0, 3), (2, 1)] (boot .poll)).firstPressed = some (0, 3) :=
  ⟨by decide, keysOk_of (by decide), by decide, by decide⟩
theorem test_witness_RowExclusivity : (setPressed [(2, 1)] (boot .poll)).cfg.rowPin.Nodup ∧
    (setPressed [(2, 1)] (boot .poll)).rowOut = List.replicate (setPressed [(2, 1)] (boot .poll)).cfg.nRows true := by decide
theorem test_witness_ScanKeepsRest : (KeysOk rung.cfg rung.pressed ∧ rung.cfg.valid = true ∧
    rung.rowOut = List.replicate rung.cfg.nRows rung.cfg.rowRest ∧ rung.cfg.rowRest = false) ∧
    (KeysOk (boot .poll).cfg (boot .poll).pressed ∧ (boot .poll).cfg.valid = true ∧
    (boot .poll).rowOut = List.replicate (boot .poll).cfg.nRows (boot .poll).cfg.rowRest ∧ (boot .poll).cfg.rowRest = true) :=
  ⟨⟨keysOk_of (by decide), by decide⟩, ⟨keysOk_of (by decide), by decide⟩⟩

/-! ## Witnesses: the poll machine -/

theorem test_witness_WrongVariantAndInactive : (boot .interrupt).cfg.variant = .interrupt ∧ ((fresh .poll).cfg.variant = .poll ∧ (fresh .poll).active = false) ∧
    (boot .poll).cfg.variant = .poll ∧ ((fresh .interrupt).cfg.variant = .interrupt ∧ (fresh .interrupt).active = false) := by decide
theorem test_witness_TickInIdle : RunOk (ticking .idle 0) ∧ KeypadOk (ticking .idle 0) ∧ (ticking .idle 0).cfg.variant = .poll ∧
    (ticking .idle 0).active = true ∧ (ticking .idle 0).phase = .idle ∧ (ticking .idle 0).pressed ≠ [] ∧
    (RunOk (boot .poll) ∧ KeypadOk (boot .poll) ∧ (boot .poll).active = true ∧ (boot .poll).phase = .idle ∧ (boot .poll).pressed = []) :=
  ⟨runOk_of (by decide), keypadOk_of (by decide), by decide, by decide, by decide, by decide,
    runOk_of (by decide), keypadOk_of (by decide), by decide, by decide, by decide⟩
/-- The clauses of R145 at their boundaries: counts 18 and 19, and no key. -/
theorem test_witness_TickInDebounce : (∀ n ∈ ([18, 19] : List Nat), RunOk (ticking .debounce n) ∧ KeypadOk (ticking .debounce n) ∧
    (ticking .debounce n).cfg.variant = .poll ∧ (ticking .debounce n).active = true ∧ (ticking .debounce n).phase = .debounce ∧
    (ticking .debounce n).firstPressed = some (2, 1)) ∧
    (18 + 1 < (ticking .debounce 18).cfg.debounceThreshold ∧ (ticking .debounce 19).cfg.debounceThreshold ≤ 19 + 1) ∧
    (RunOk { boot .poll with phase := .debounce, cnt := 9 } ∧ KeypadOk { boot .poll with phase := .debounce, cnt := 9 } ∧
      ({ boot .poll with phase := .debounce, cnt := 9 } : State).firstPressed = none) := by
  refine ⟨fun n hn => ?_, by decide, runOk_of (by decide), keypadOk_of (by decide), by decide⟩
  simp only [List.mem_cons, List.not_mem_nil, or_false] at hn
  rcases hn with rfl | rfl <;>
    exact ⟨runOk_of (by decide), keypadOk_of (by decide), by decide, by decide, by decide, by decide⟩
theorem test_witness_TickInPressed : RunOk (ticking .pressed 20) ∧ KeypadOk (ticking .pressed 20) ∧ (ticking .pressed 20).cfg.variant = .poll ∧
    (ticking .pressed 20).active = true ∧ (ticking .pressed 20).phase = .pressed ∧ (ticking .pressed 20).pressed ≠ [] ∧
    (RunOk { boot .poll with phase := .pressed, cnt := 20 } ∧ KeypadOk { boot .poll with phase := .pressed, cnt := 20 } ∧
      ({ boot .poll with phase := .pressed, cnt := 20 } : State).pressed = []) :=
  ⟨runOk_of (by decide), keypadOk_of (by decide), by decide, by decide, by decide, by decide,
    runOk_of (by decide), keypadOk_of (by decide), by decide⟩
/-- V-KP2, V-KP3, V-KP6: 1, 20 and 21 sensed ticks, of different keys. -/
theorem test_witness_ConfirmationBoundary : RunOk (boot .poll) ∧ KeypadOk (boot .poll) ∧ (boot .poll).cfg.variant = .poll ∧
    (boot .poll).active = true ∧ (boot .poll).phase = .idle ∧
    (∀ n : Nat, ∀ l ∈ List.replicate n [((0, 0) : Key)] ++ [[(3, 3)]], KeysOk (boot .poll).cfg l ∧ l ≠ []) ∧
    ((List.replicate 0 [((0, 0) : Key)] ++ [[(3, 3)]]).length = 1 ∧
      (List.replicate 19 [((0, 0) : Key)] ++ [[(3, 3)]]).length = max 1 (boot .poll).cfg.debounceThreshold ∧
      (List.replicate 20 [((0, 0) : Key)] ++ [[(3, 3)]]).length = max 1 (boot .poll).cfg.debounceThreshold + 1) := by
  refine ⟨runOk_of (by decide), keypadOk_of (by decide), by decide, by decide, by decide, fun n l hl => ?_, by decide⟩
  rcases List.mem_append.mp hl with h | h
  · rw [List.eq_of_mem_replicate h]
    exact ⟨keysOk_of (by decide), by simp⟩
  · rw [List.mem_singleton.mp h]
    exact ⟨keysOk_of (by decide), by simp⟩
theorem test_witness_NoAutoRepeat : RunOk (ticking .pressed 20) ∧ KeypadOk (ticking .pressed 20) ∧ (ticking .pressed 20).cfg.variant = .poll ∧
    (ticking .pressed 20).active = true ∧ (ticking .pressed 20).phase = .pressed ∧
    (∀ l ∈ List.replicate 1000 [((2, 1) : Key)], KeysOk (ticking .pressed 20).cfg l ∧ l ≠ []) := by
  refine ⟨runOk_of (by decide), keypadOk_of (by decide), by decide, by decide, by decide, fun l hl => ?_⟩
  rw [List.eq_of_mem_replicate hl]
  exact ⟨keysOk_of (by decide), by simp⟩

/-! ## Witnesses: the handler -/

theorem test_witness_HandlerEntry : (rung.cfg.variant = .interrupt ∧ rung.active = true ∧ rung.hstep = .h0 ∧
    ∃ n : Fin 16, rung.cfg.isColLine n = true ∧ (rung.line n).pend = true) ∧
    ((boot .interrupt).cfg.variant = .interrupt ∧ (boot .interrupt).active = true ∧ (boot .interrupt).hstep = .h0 ∧
      ∀ n : Fin 16, (boot .interrupt).cfg.isColLine n = true → ((boot .interrupt).line n).pend = false) :=
  ⟨⟨by decide, by decide, by decide, 9, by decide, by decide⟩, by decide⟩
theorem test_witness_HandlerDisablesColumns : entered.hstep = .h1 ∧ ∀ n : Fin 16, vectorOf n = 4 → entered.cfg.isColLine n = true := by decide
theorem test_witness_HandlerScansAndReports : (RunOk atH3 ∧ KeypadOk atH3 ∧ atH3.cfg.variant = .interrupt ∧ atH3.active = true ∧ atH3.hstep = .h3) ∧
    (RunOk atH4 ∧ KeypadOk atH4 ∧ atH4.cfg.variant = .interrupt ∧ atH4.active = true ∧ atH4.hstep = .h4 ∧ atH4.hkey = some (1, 2)) ∧
    (RunOk { atH4 with hkey := none } ∧ KeypadOk { atH4 with hkey := none }) :=
  ⟨⟨runOk_of (by decide), keypadOk_of (by decide), by decide⟩,
    ⟨runOk_of (by decide), keypadOk_of (by decide), by decide⟩,
    ⟨runOk_of (by decide), keypadOk_of (by decide)⟩⟩
theorem test_witness_HandlerClearsThenEnables : atH5.hstep = .h5 ∧ atH6.hstep = .h6 := by decide
/-- The delay passes exactly, and as far as a 32-bit clock allows; the clock, a context and the arbiter move between KDB's moves. -/
theorem test_witness_HandlerRunsToCompletion : ∀ d ∈ [5, 2 ^ 32 - 1],
    (let a : List Move := [.serve]
     let b : List Move := [.env (.ms 7), .ready .consumer 0x2300]
     let c : List Move := [.kdb, .env (.ms d)]
     let e : List Move := [.kdb, .kdb, .serve, .kdb, .kdb, .kdb]
     let s : State := { entered with sched := a ++ .kdb :: b ++ .kdb :: c ++ e }
     (RunOk s ∧ KeypadOk s ∧ s.cfg.variant = .interrupt ∧ s.active = true ∧ s.hstep = .h1 ∧ s.delay = none) ∧
      kdbCount (a ++ b) = 0 ∧ (∀ m ∈ s.sched, m.changesKeys = false) ∧ s.cfg.debounceDelayMs ≤ msAdded c ∧
      msAdded (c ++ e) < 2 ^ s.cfg.msW ∧ 5 ≤ kdbCount e ∧ s.firstPressed = some (1, 2)) := by
  intro d hd
  simp only [List.mem_cons, List.not_mem_nil, or_false] at hd
  rcases hd with rfl | rfl <;>
    exact ⟨⟨runOk_of (by decide), keypadOk_of (by decide), by decide⟩, by decide⟩
theorem test_witness_NoDoubleEnqueue : ∃ s t u : State, s.cfg.variant = .interrupt ∧ s.active = true ∧ s.hstep = .h5 ∧
    microStep s = .next t ∧ microStep t = .next u :=
  ⟨{ fresh .interrupt with active := true, hstep := .h5 }, _, _, rfl, rfl, rfl, rfl, rfl⟩
theorem test_witness_ReadKeyTakesOldest : ((fresh .poll).active = false ∧ (boot .poll).head = (boot .poll).tail) ∧
    (let s : State := { boot .poll with head := 1, buf := [(0, 0x38)] }
     s.active = true ∧ s.rbValid = true ∧ s.head ≠ s.tail ∧ s.tail < s.cfg.rbSlots ∧ s.memRead (.ring s.tail) = some 0x38) := by decide

/-! ## Witnesses: lines, time, the environment -/

theorem test_witness_ArmBindsLine : (boot .poll).cfg.isMatrix ⟨1, 9⟩ = true ∧ (8 : Fin 16) ≠ (⟨1, 9⟩ : PinId).line := by decide
theorem test_witness_LineEnableAndClear : (rung.line (⟨1, 9⟩ : PinId).line).pend = true ∧ (8 : Fin 16) ≠ (⟨1, 9⟩ : PinId).line := by decide
/-- A hit on an enabled line, a hit on a disabled one, a rising hit, no hit, and a line that was never armed. -/
theorem test_witness_EdgeLatchRule :
    (let s : State := { boot .interrupt with pressed := [(1, 2)] }
     (s.line 9).edge = .falling ∧ (s.line 9).last = true ∧ s.level ⟨1, 9⟩ = false ∧ (s.line 9).en = true) ∧
    (let s : State := { did (.ilDis ⟨1, 9⟩) (boot .interrupt) with pressed := [(1, 2)] }
     (s.line 9).edge = .falling ∧ (s.line 9).last = true ∧ s.level ⟨1, 9⟩ = false ∧ (s.line 9).en = false) ∧
    (let s : State := { did (.ilArmr ⟨1, 9⟩) rung with pressed := [] }
     (s.line 9).edge = .rising ∧ (s.line 9).last = false ∧ s.level ⟨1, 9⟩ = true ∧ (s.line 9).en = true) ∧
    (((boot .interrupt).line 9).edge = .falling ∧ (boot .interrupt).level ⟨1, 9⟩ = true) ∧ ((boot .interrupt).line 7).edge = .noEdge := by
  decide
theorem test_witness_VectorRequestIsOrOfGroup : ∀ n : Fin 16, (n.val ≤ 4 ∧ vectorOf n = n.val) ∨ (5 ≤ n.val ∧ n.val ≤ 9 ∧ vectorOf n = 5) ∨
    (10 ≤ n.val ∧ vectorOf n = 6) := by decide
theorem test_witness_ArbiterServesRequestingVector : (∀ v, v < 7 → (boot .interrupt).vreq v = false) ∧ (∃ v, v < 7 ∧ rung.vreq v = true) ∧
    ∃ s : State, s.sched = [.serve] :=
  ⟨by decide, ⟨5, by decide, by decide⟩, { rung with sched := [.serve] }, rfl⟩
/-- The clauses of R217 at the boundary: 4 and 5 milliseconds of 5, across the wrap of the clock; a delay of each context. -/
theorem test_witness_DelayIsLowerBound : (5 : Byte) ≠ 0 ∧
    (let c := Config.reference .poll
     0xFFFFFFFE < 2 ^ c.msW ∧ c.elapsed 0xFFFFFFFE 2 < 5 ∧ 5 ≤ c.elapsed 0xFFFFFFFE 3) ∧
    (let s : State := { fresh .poll with delay := some ⟨0, 5⟩ }
     s.delay = some ⟨0, 5⟩ ∧ s.hstep = .h0 ∧ s.issuer = .consumer) ∧
    (let s : State := { fresh .poll with mainDelay := some ⟨0, 5⟩, issuer := .producer }
     s.mainDelay = some ⟨0, 5⟩ ∧ s.delay = none ∧ s.hstep = .h0 ∧ s.producer = [] ∧ s.issuer = .producer) := by decide
theorem test_witness_HandlerWaitsDebounceDelay : atH2.hstep = .h2 ∧ atH2.delay = none ∧ atH2.cfg.debounceDelayMs ≠ 0 ∧
    ({ atH2 with cfg := { atH2.cfg with debounceDelayMs := 0 } } : State).cfg.debounceDelayMs = 0 ∧
    (let s : State := { atH2 with delay := some ⟨0, 5⟩, ms := 4 }
     s.hstep = .h2 ∧ s.cfg.elapsed 0 s.ms < 5) ∧
    (let s : State := { atH2 with delay := some ⟨0, 5⟩, ms := 5 }
     s.hstep = .h2 ∧ 5 ≤ s.cfg.elapsed 0 s.ms) := by decide
theorem test_witness_EnvironmentSteps : (boot .poll).cfg.hasKey (3, 3) = true ∧ ∃ s : State, s.sched = [.env (.press (3, 3))] :=
  ⟨by decide, { boot .poll with sched := [.env (.press (3, 3))] }, rfl⟩

/-! ## Witnesses: whole-machine rules -/

/-- A state in which the producer has one word ready on the port. -/
def withReady (w : CmdWord) (s : State) : State := { s with producer := [w] }

theorem test_witness_RegistersWrittenOnlyByTheirOperations : ∃ (s t : State), exec .rbCnt s = .next t := ⟨boot .poll, _, rfl⟩
theorem test_witness_StepKeepsInvariant : ∃ s t : State, RunOk s ∧ step s = .next t :=
  ⟨withReady 0x1300 (boot .poll), _, runOk_of (by decide), rfl⟩
theorem test_witness_InvariantStateNeverStops : RunOk (withReady 0x2100 (boot .poll)) ∧ RunOk atH4 :=
  ⟨runOk_of (by decide), runOk_of (by decide)⟩
theorem test_witness_StepKeepsLastLevels : ∃ s t : State, RunOk s ∧ Tracks s ∧ step s = .next t :=
  ⟨withReady 0x1300 (boot .interrupt), _, runOk_of (by decide), by unfold Tracks; decide, rfl⟩
theorem test_witness_StepKeepsKeypad : ∃ s t : State, RunOk s ∧ KeypadOk s ∧ Owned s ∧ s.active = true ∧ step s = .next t := by
  refine ⟨withReady 0x1300 (boot .interrupt), _, runOk_of (by decide), keypadOk_of (by decide), fun _ i h => ?_, by decide, rfl⟩
  have e : (withReady 0x1300 (boot .interrupt)).issuing = some .rbCnt := by decide
  rw [e] at h
  cases h
  rfl

end Tests
end Sys2Proof
end

section
/-! PROOFS. The power-on state, the stops, and the ring as a drop-oldest queue (O10, O11, O21, O22, O23). -/

namespace Sys2Proof
namespace Machine

/-! ## Reset -/

theorem resetWith_line (c : Config) (n : Fin 16) : (State.resetWith c).line n = LineReg.reset := by
  simp [State.resetWith, State.line, Vector.get_eq_getElem]

/-- Settles O10: the registers by definition, the lines from the reset line, no request because no line is pending. -/
theorem resetRegisters : Obligations.ResetRegisters := by
  intro c s
  have hl : ∀ n, s.line n = LineReg.reset := resetWith_line c
  have hcount : s.ringCount = 0 := rfl
  refine ⟨rfl, rfl, rfl, rfl, rfl, rfl, rfl, rfl, rfl, rfl, fun n => ?_, fun v => ?_, contents_empty hcount⟩
  · rw [hl]
    exact ⟨rfl, rfl, rfl⟩
  · have hreq : ¬ s.vreq v = true := by
      rw [vreq_iff]
      rintro ⟨n, -, hp, -⟩
      rw [hl] at hp
      cases hp
    simpa using hreq

/-- The power-on state meets the invariant of a run when the configuration is one of 00_scope R8. -/
theorem runOk_resetWith {c : Config} (hmap : c.keymap.length = c.nRows * c.nCols) (h5 : 5 ≤ c.cntW)
    (hth : c.debounceThreshold < 2 ^ c.cntW) : RunOk (State.resetWith c) where
  memory := rfl
  rows := List.length_replicate
  keymap := hmap
  ring := RingOk.invalid rfl
  keys := ⟨List.Pairwise.nil, fun _ h => nomatch h⟩
  active := fun h => nomatch h
  hkey := fun _ h => nomatch h
  width := ⟨h5, hth⟩
  clock := ⟨Nat.two_pow_pos _, (fun _ h => nomatch h), fun _ h => nomatch h⟩
  counting := fun h => nomatch h
  count := Nat.zero_le _
  poll := fun _ => ⟨rfl, rfl, rfl⟩
  irq := fun _ => ⟨rfl, rfl⟩
  carried := fun h => absurd rfl h
  waiting := fun h => absurd rfl h

theorem tracks_resetWith (c : Config) : Tracks (State.resetWith c) := by
  intro n he
  rw [resetWith_line] at he
  exact absurd rfl he

/-- The keypad's own invariants speak of an active keypad only. -/
theorem KeypadOk.of_inactive {s : State} (h : s.active = false) : KeypadOk s :=
  ⟨by simp [h], by simp [h], by simp [h], by simp [h]⟩

/-- Settles O11: no line is armed, the ring is invalid and the keypad inactive. -/
theorem resetMeetsInvariants : Obligations.ResetMeetsInvariants :=
  ⟨fun c hmap h5 hth => ⟨runOk_resetWith hmap h5 hth, tracks_resetWith c, KeypadOk.of_inactive rfl⟩,
    runOk_resetWith rfl (by decide) (by decide), tracks_resetWith _, KeypadOk.of_inactive rfl⟩

/-! ## Stops -/

theorem ringLoad_noSuchSlot {s : State} {i : Nat} (h : s.cfg.rbSlots ≤ i) : s.ringLoad i = .fault (.noSuchSlot i) := by
  unfold State.ringLoad
  rw [if_neg (by omega)]

theorem ringLoad_unwritten {s : State} {i : Nat} (h : i < s.cfg.rbSlots) (hn : s.memRead (.ring i) = none) :
    s.ringLoad i = .fault (.unwrittenSlot i) := by
  unfold State.ringLoad
  rw [if_pos h, hn]

theorem ringStore_noSuchSlot {s : State} {i : Nat} (b : Byte) (h : s.cfg.rbSlots ≤ i) :
    s.ringStore i b = .fault (.noSuchSlot i) := by
  unfold State.ringStore
  rw [if_neg (by omega)]

theorem ringEmpty_eq_false {s : State} : s.ringEmpty = false ↔ s.rbValid = true ∧ s.head ≠ s.tail := by
  simp [State.ringEmpty]

/-- `RB.RD` of a ring that is not empty stops where its load stops. -/
theorem execRbRd_fault {s : State} {r : Fault} (hv : s.rbValid = true) (hne : s.head ≠ s.tail)
    (hl : s.ringLoad s.tail = .fault r) : exec .rbRd s = .fault r := by
  show Result.andThen (ringRead s) answer = .fault r
  rw [ringRead, ringEmpty_eq_false.mpr ⟨hv, hne⟩, hl]
  rfl

/-- Settles O21: the store and the load outside the storage or of no byte, and the handler already in progress. -/
theorem stopsByName : Obligations.StopsByName := by
  refine fun s => ⟨fun hv b hs => ?_, fun hv hne hs => execRbRd_fault hv hne (ringLoad_noSuchSlot hs),
    fun hv hne hs hn => execRbRd_fault hv hne (ringLoad_unwritten hs hn), fun v hvar ha hh => ?_⟩
  · show Result.andThen (ringWrite b s) answer = _
    rw [ringWrite, if_pos hv, ringStore_noSuchSlot b (by simpa using hs)]
    rfl
  · show execKpIrq v s = _
    simp [execKpIrq, hvar, ha, State.inHandler, hh]

/-! ## The ring -/

/-- Both indices fit in `IDX_W` bits when they are slots (00_scope R8). -/
theorem lt_two_pow_idxW {c : Config} {i : Nat} (h : i < c.rbSlots) : i < 2 ^ c.idxW :=
  calc i < c.rbSlots := h
    _ ≤ 2 ^ Nat.clog 2 c.rbSlots := Nat.le_pow_clog (by omega) _
    _ ≤ 2 ^ c.idxW := Nat.pow_le_pow_right (by omega) (Nat.le_max_right _ _)

/-- Settles O22, from the ring's laws; the indices are below the capacity, which the storage bounds. -/
theorem ringCountBounds : Obligations.RingCountBounds := by
  intro s h hv
  obtain ⟨hh, ht⟩ := h.index hv
  have hcap := (h.cap hv).2
  exact ⟨ringCount_lt hv hh ht, ringCount_eq_zero hv hh ht, ringCount_full hv hh ht, (contents_spec (h.bytes hv)).1,
    lt_two_pow_idxW (by omega), lt_two_pow_idxW (by omega)⟩

/-- An answer leaves the ring as it is. -/
theorem answer_ring {u : State} {r : Resp} (h : RingOk u) :
    ∃ t, answer (u, r) = .next t ∧ RingOk t ∧ t.rbValid = u.rbValid ∧ t.rbCap = u.rbCap ∧ t.resp = some r ∧
      t.contents = u.contents :=
  ⟨_, rfl, h.congr rfl rfl rfl rfl rfl rfl, rfl, rfl, rfl, contents_congr rfl rfl rfl rfl rfl⟩

/-- `RB.INIT` leaves an empty ring of the capacity asked for, or an invalid one (40 R100). -/
theorem ringInit_spec (c : Nat) (s : State) :
    RingOk (ringInit c s).1 ∧ (ringInit c s).1.contents = [] ∧
    (1 ≤ c ∧ c ≤ s.cfg.rbSlots →
      (ringInit c s).1.rbValid = true ∧ (ringInit c s).1.rbCap = c ∧ (ringInit c s).2 = .ok 0) ∧
    (¬ (1 ≤ c ∧ c ≤ s.cfg.rbSlots) → (ringInit c s).1.rbValid = false ∧ (ringInit c s).2 = .eStorage) := by
  unfold ringInit
  split
  · exact ⟨RingOk.invalid rfl, contents_empty rfl, fun h => by omega, fun _ => ⟨rfl, rfl⟩⟩
  · refine ⟨RingOk.empty (by simp; omega) (by simp; omega) (by simp; omega) rfl, contents_empty ?_,
      fun _ => ⟨rfl, rfl, rfl⟩, fun h => by omega⟩
    simp [State.ringCount]

theorem ringWrite_spec {s : State} (b : Byte) (h : RingOk s) (hv : s.rbValid = true) :
    ∃ u, ringWrite b s = .next (u, .ok 0) ∧ RingOk u ∧ u.rbValid = true ∧ u.rbCap = s.rbCap ∧
      u.contents = lastBytes (s.rbCap - 1) (s.contents ++ [b]) := by
  obtain ⟨hok, hcon⟩ := write_ring (b := b) h hv
  have hh := (h.index hv).1
  have hcap := (h.cap hv).2
  exact ⟨_, ringWrite_eq_next.mpr (.inr ⟨hv, by omega, rfl⟩), hok, by simpa using hv, by simp, hcon⟩

/-- The answer of a queue to a read: its oldest byte, or `NOVALUE` (40 R102). -/
def oldestAnswer : List Byte → Resp
  | [] => .noValue
  | b :: _ => .ok (b.setWidth 32)

theorem ringRead_spec {s : State} (h : RingOk s) (hv : s.rbValid = true) :
    ∃ u, ringRead s = .next (u, oldestAnswer s.contents) ∧ RingOk u ∧ u.rbValid = true ∧ u.rbCap = s.rbCap ∧
      u.contents = s.contents.tail := by
  obtain ⟨hh, ht⟩ := h.index hv
  by_cases he : s.head = s.tail
  · have hnil : s.contents = [] := contents_empty ((ringCount_eq_zero hv hh ht).mpr he)
    have hempty : s.ringEmpty = true := by simp [State.ringEmpty, he]
    exact ⟨s, ringRead_eq_next.mpr (.inl ⟨hempty, by rw [hnil]; rfl⟩), h, hv, rfl, by rw [hnil]; rfl⟩
  · obtain ⟨v, vs, hload, hcon, hok, htail⟩ := read_ring h hv he
    have hslot : s.tail < s.cfg.rbSlots := by have := (h.cap hv).2; omega
    exact ⟨_, ringRead_eq_next.mpr (.inr ⟨ringEmpty_eq_false.mpr ⟨hv, he⟩, hslot, v, hload, by rw [hcon]; rfl⟩),
      hok, hv, rfl, by rw [htail, hcon]; rfl⟩

theorem ringFlush_spec {s : State} (h : RingOk s) (hv : s.rbValid = true) :
    RingOk (ringFlush s) ∧ (ringFlush s).contents = [] := by
  obtain ⟨hc1, hcs⟩ := h.cap hv
  exact ⟨RingOk.empty hc1 hcs (show 0 < s.rbCap by omega) rfl, contents_empty (by simp [State.ringCount, ringFlush])⟩

/-- Settles O23: each operation's rule refines the queue's, and its answer leaves the ring as the rule left it. -/
theorem ringRefinesDropOldestQueue : Obligations.RingRefinesDropOldestQueue := by
  refine ⟨fun c s => ?_, fun s h hv => ⟨fun b => ?_, ?_, ?_, ?_⟩⟩
  · obtain ⟨hok, hcon, hfit, hnot⟩ := ringInit_spec c.toNat s
    obtain ⟨t, e, hokt, hvt, hct, hrt, hcont⟩ := answer_ring (r := (ringInit c.toNat s).2) hok
    refine ⟨t, e, hokt, hcont.trans hcon, fun hc => ?_, fun hc => ?_⟩
    · obtain ⟨hv, hcap, hr⟩ := hfit hc
      exact ⟨hvt.trans hv, hct.trans hcap, by rw [hrt, hr]⟩
    · obtain ⟨hv, hr⟩ := hnot hc
      exact ⟨hvt.trans hv, by rw [hrt, hr]⟩
  · obtain ⟨u, e, hok, hvu, hcu, hcon⟩ := ringWrite_spec b h hv
    obtain ⟨t, et, hokt, hvt, hct, hrt, hcont⟩ := answer_ring (r := .ok 0) hok
    exact ⟨t, andThen_eq_next.mpr ⟨_, e, et⟩, hokt, hvt.trans hvu, hct.trans hcu, hrt, hcont.trans hcon⟩
  · obtain ⟨u, e, hok, hvu, hcu, hcon⟩ := ringRead_spec h hv
    obtain ⟨t, et, hokt, hvt, hct, hrt, hcont⟩ := answer_ring (r := oldestAnswer s.contents) hok
    refine ⟨t, andThen_eq_next.mpr ⟨_, e, et⟩, hokt, hvt.trans hvu, hct.trans hcu, ?_, hcont.trans hcon⟩
    rw [hrt]
    cases s.contents <;> rfl
  · obtain ⟨t, et, hokt, hvt, hct, hrt, hcont⟩ := answer_ring (r := .ok (BitVec.ofNat 32 s.ringCount)) h
    exact ⟨t, et, hokt, hvt.trans hv, hct, by rw [hrt, (contents_spec (h.bytes hv)).1], hcont⟩
  · obtain ⟨hok, hcon⟩ := ringFlush_spec h hv
    obtain ⟨t, et, hokt, hvt, hct, hrt, hcont⟩ := answer_ring (r := .ok 0) hok
    exact ⟨t, et, hokt, hvt.trans hv, hct, hrt, hcont.trans hcon⟩

end Machine
end Sys2Proof
end

section
/-! PROOFS. What an operation can do and which registers it writes (O56). -/

namespace Sys2Proof
namespace Machine

/-! ## Everything the operations of unit KP can do -/

/-- `KP.INIT` is refused the second time, brings a valid configuration up, or refuses an invalid one (42 R140, R142, R151). -/
theorem execKpInit_cases {s t : State} (e : exec .kpInit s = .next t) :
    (s.inited = true ∧ answer (s, .refused) = .next t) ∨
    (s.inited = false ∧ s.cfg.valid = true ∧ answerOk (bringUp { s with inited := true }) = .next t) ∨
    (s.inited = false ∧ s.cfg.valid = false ∧ answer ({ s with inited := true, active := false }, .eConfig) = .next t) := by
  simp only [exec, execKpInit] at e
  split at e
  · exact .inl ⟨‹_›, e⟩
  · split at e <;> simp_all

/-- `KP.TICK` answers at once, or scans and applies one phase rule (42 R143, R150). -/
theorem execKpTick_cases {s t : State} (e : exec .kpTick s = .next t) :
    (∃ r, answer (s, r) = .next t) ∨
    (s.cfg.variant = .poll ∧ s.active = true ∧
      ∃ u, tickPhase (scan s).2 (scan s).1 = .next u ∧ answerOk u = .next t) := by
  simp only [exec, execKpTick] at e
  split at e
  · exact .inl ⟨_, e⟩
  · split at e
    · exact .inl ⟨_, e⟩
    · exact .inr ⟨by simp_all, by simp_all, andThen_eq_next.mp e⟩

/-- `KP.IRQ` answers at once, with `trig` 0 or without, or enters the handler (43 R160). -/
theorem execKpIrq_cases {v : BitVec 4} {s t : State} (e : exec (.kpIrq v) s = .next t) :
    (∃ r, answer (s, r) = .next t) ∨
    (s.cfg.variant = .interrupt ∧ answerOk { s with trig := 0 } = .next t) ∨
    (s.cfg.variant = .interrupt ∧ s.active = true ∧ s.hstep = .h0 ∧ t = enterHandler s) := by
  simp only [exec, execKpIrq] at e
  split at e
  · exact .inl ⟨_, e⟩
  · split at e
    · exact .inl ⟨_, e⟩
    · split at e
      · cases e
      · split at e
        · exact .inr (.inl ⟨by simp_all, e⟩)
        · cases e
          exact .inr (.inr ⟨by simp_all, by simp_all, by simp_all [State.inHandler], rfl⟩)

/-- `KP.RDKEY` answers at once, or reads the ring (44 R180). -/
theorem execKpRdkey_cases {s t : State} (e : exec .kpRdkey s = .next t) :
    (∃ r, answer (s, r) = .next t) ∨ ∃ p, ringRead s = .next p ∧ answer p = .next t := by
  simp only [exec, execKpRdkey] at e
  split at e
  · exact .inl ⟨_, e⟩
  · exact .inr (andThen_eq_next.mp e)

/-- `TM.DELAY` answers at once, or waits in the context that issued it (46 R217). -/
theorem execTmDelay_cases {m : Byte} {s t : State} (e : exec (.tmDelay m) s = .next t) :
    answerOk s = .next t ∨ t = holdDelay s.issuer ⟨s.ms, m.toNat⟩ s := by
  simp only [exec, execTmDelay, startDelay_eq] at e
  split at e
  · exact .inl e
  · cases e
    exact .inr rfl

/-! ## What an operation writes (10_state R45) -/

/-- The operation drives rows, and so runs the edge latch: what 10_state R45 lists for `row_out` (41 R121, R122, R129). -/
def drivesRows : Instr → Bool
  | .kpInit | .kpTick | .ioSet _ | .ioRst _ => true
  | _ => false

/-- The operation arms lines (10_state R45, `il_port` and `il_edge`). -/
def armsLines : Instr → Bool
  | .kpInit | .ilArmf _ | .ilArmr _ => true
  | _ => false

theorem ScanFrame.outside {s t : State} (h : ScanFrame s t) : OutsideSame s t := by
  rw [h]
  exact ⟨rfl, rfl, rfl, rfl, rfl, rfl, rfl⟩

/-- The registers that operation `i` writes between `s` and `t` are among those that 10_state R45 lists for it. -/
structure Writes (i : Instr) (s t : State) : Prop where
  outside : OutsideSame s t
  control : i ≠ .kpInit → t.active = s.active ∧ t.inited = s.inited ∧ t.hkey = s.hkey
  count   : i ≠ .kpInit → i ≠ .kpTick → t.phase = s.phase ∧ t.cnt = s.cnt
  handler : i ≠ .kpInit → (∀ v, i ≠ .kpIrq v) → t.trig = s.trig ∧ t.hstep = s.hstep
  ring    : i ≠ .kpInit → (∀ c, i ≠ .rbInit c) → t.rbValid = s.rbValid ∧ t.rbCap = s.rbCap
  head    : i ≠ .kpInit → i ≠ .kpTick → i ≠ .rbFlush → (∀ c, i ≠ .rbInit c) → (∀ b, i ≠ .rbWr b) → t.head = s.head
  bytes   : i ≠ .kpTick → (∀ b, i ≠ .rbWr b) → BytesSame s t
  tail    : i ≠ .kpInit → i ≠ .kpTick → i ≠ .rbFlush → i ≠ .rbRd → i ≠ .kpRdkey → (∀ c, i ≠ .rbInit c) →
    (∀ b, i ≠ .rbWr b) → t.tail = s.tail
  rowOut  : drivesRows i = false → t.rowOut = s.rowOut
  pins    : i ≠ .kpInit → (∀ p d q, i ≠ .ioCfg p d q) → ∀ j, t.pin j = s.pin j
  notSet  : drivesRows i = false → ∀ n, (t.line n).pend = true → (s.line n).pend = true
  bound   : armsLines i = false → ∀ n, (t.line n).port = (s.line n).port ∧ (t.line n).edge = (s.line n).edge
  enable  : armsLines i = false → (∀ p, i ≠ .ilEn p) → (∀ p, i ≠ .ilDis p) → ∀ n, (t.line n).en = (s.line n).en
  sticky  : armsLines i = false → (∀ p, i ≠ .ilClr p) → ∀ n, (s.line n).pend = true → (t.line n).pend = true
  last    : armsLines i = false → drivesRows i = false → ∀ n, (t.line n).last = (s.line n).last

/-- An answer writes none of R45's registers: what an operation has written before it answers is what it writes. -/
theorem Writes.answer {i : Instr} {s u t : State} {r : Resp} (h : Writes i s u) (e : Machine.answer (u, r) = .next t) :
    Writes i s t := by
  rw [answer_eq_next] at e
  subst e
  exact ⟨⟨h.outside.cfg, h.outside.ms, h.outside.pressed, h.outside.producer, h.outside.consumer, h.outside.sched,
    h.outside.issuer⟩, h.control, h.count, h.handler, h.ring, h.head, h.bytes, h.tail, h.rowOut, h.pins, h.notSet, h.bound,
    h.enable, h.sticky, h.last⟩

/-- A draw, a delay or an answer is no register of 10_state R45. -/
theorem Writes.ofModel {i : Instr} {s t : State}
    (e : t = { s with resp := t.resp, delay := t.delay, mainDelay := t.mainDelay, marks := t.marks, draws := t.draws }) :
    Writes i s t := by
  rw [e]
  exact ⟨⟨rfl, rfl, rfl, rfl, rfl, rfl, rfl⟩, fun _ => ⟨rfl, rfl, rfl⟩, fun _ _ => ⟨rfl, rfl⟩, fun _ _ => ⟨rfl, rfl⟩,
    fun _ _ => ⟨rfl, rfl⟩, fun _ _ _ _ _ => rfl, fun _ _ _ => rfl, fun _ _ _ _ _ _ _ => rfl, fun _ => rfl,
    fun _ _ _ => rfl, fun _ _ => id, fun _ _ => ⟨rfl, rfl⟩, fun _ _ _ _ => rfl, fun _ _ _ => id, fun _ _ _ => rfl⟩

/-- An operation whose only registers are row levels and lines writes what 10_state R45 lets it write of those. -/
theorem Writes.ofScanFrame {i : Instr} {s t : State} (h : ScanFrame s t)
    (rowOut : drivesRows i = false → t.rowOut = s.rowOut)
    (notSet : drivesRows i = false → ∀ n, (t.line n).pend = true → (s.line n).pend = true)
    (bound : armsLines i = false → ∀ n, (t.line n).port = (s.line n).port ∧ (t.line n).edge = (s.line n).edge)
    (enable : armsLines i = false → (∀ p, i ≠ .ilEn p) → (∀ p, i ≠ .ilDis p) → ∀ n, (t.line n).en = (s.line n).en)
    (sticky : armsLines i = false → (∀ p, i ≠ .ilClr p) → ∀ n, (s.line n).pend = true → (t.line n).pend = true)
    (last : armsLines i = false → drivesRows i = false → ∀ n, (t.line n).last = (s.line n).last) : Writes i s t := by
  have hcfg : t.cfg = s.cfg := by rw [h]
  have hbuf : t.buf = s.buf := by rw [h]
  refine ⟨h.outside, fun _ => ?_, fun _ _ => ?_, fun _ _ => ?_, fun _ _ => ?_, fun _ _ _ _ _ => ?_,
    fun _ _ => BytesSame.of hbuf hcfg, fun _ _ _ _ _ _ _ => ?_, rowOut, fun _ _ _ => ?_, notSet, bound, enable, sticky,
    last⟩ <;> rw [h]
  all_goals simp [State.pin]

/-- Driving rows runs the edge latch, which sets flags and follows levels (41 R121, R125, 45 R190). -/
theorem Writes.ofDriving {i : Instr} {s t : State} (hi : drivesRows i = true) (h : ScanFrame s t) (k : LinesKept s t) :
    Writes i s t :=
  .ofScanFrame h (by simp [hi]) (by simp [hi]) (fun _ n => ⟨k.port n, k.edge n⟩) (fun _ _ _ => k.en) (fun _ _ => k.pend)
    (by simp [hi])

/-! ### The operations, one by one -/

theorem armLine_frame (e : Edge) (p : PinId) (s : State) : ScanFrame s (armLine e p s) := by
  unfold armLine noteForeign
  split <;> rfl

/-- Arming a line clears its flag (45 R186). -/
theorem armLine_writes {i : Instr} (hi : armsLines i = true) (e : Edge) (p : PinId) (s : State) :
    Writes i s (armLine e p s) := by
  refine .ofScanFrame (armLine_frame e p s) (fun _ => armLine_rowOut e p s) (fun _ n hp => ?_) (by simp [hi]) (by simp [hi])
    (by simp [hi]) (by simp [hi])
  rw [armLine_line] at hp
  split at hp
  · cases hp
  · exact hp

/-- Enabling or disabling a line changes its enable and no other field (45 R187, R188). -/
theorem enableLine_writes {i : Instr} (b : Bit) (p : PinId) (s : State) (hi : i = .ilEn p ∨ i = .ilDis p) :
    Writes i s (enableLine b p s) := by
  have hfields : ∀ n, (enableLine b p s).line n = { s.line n with en := ((enableLine b p s).line n).en } := fun n => by
    rw [enableLine_line]
    split <;> rfl
  refine .ofScanFrame rfl (fun _ => rfl) (fun _ n hp => ?_) (fun _ n => ?_) (fun _ hen hdis => ?_) (fun _ _ n hp => ?_)
    (fun _ _ n => ?_)
  · rw [hfields] at hp
    exact hp
  · rw [hfields]
    exact ⟨rfl, rfl⟩
  · rcases hi with rfl | rfl
    · exact absurd rfl (hen p)
    · exact absurd rfl (hdis p)
  · rw [hfields]
    exact hp
  · rw [hfields]

/-- Clearing a line changes its pending flag and no other field (45 R189). -/
theorem clearLine_writes (p : PinId) (s : State) : Writes (.ilClr p) s (clearLine p s) := by
  have hfields : ∀ n, (clearLine p s).line n = { s.line n with pend := ((clearLine p s).line n).pend } := fun n => by
    rw [clearLine_line]
    split <;> rfl
  refine .ofScanFrame rfl (fun _ => rfl) (fun _ n hp => ?_) (fun _ n => ?_) (fun _ _ _ n => ?_) (by simp) (fun _ _ n => ?_)
  · rw [clearLine_line] at hp
    split at hp
    · cases hp
    · exact hp
  · rw [hfields]
    exact ⟨rfl, rfl⟩
  · rw [hfields]
  · rw [hfields]

theorem configPin_writes (p : PinId) (d : Dir) (q : Pull) (s : State) : Writes (.ioCfg p d q) s (configPin p d q s) := by
  constructor
  case outside => exact ⟨rfl, rfl, rfl, rfl, rfl, rfl, rfl⟩
  all_goals simp [BytesSame, State.memRead, State.line]

theorem drivePin_writes {i : Instr} (hi : drivesRows i = true) (b : Bit) (p : PinId) (s : State) :
    Writes i s (drivePin b p s) :=
  .ofDriving hi (drivePin_frame b p s) (drivePin_kept b p s)

theorem ringInit_writes (c : Byte) (s : State) : Writes (.rbInit c) s (ringInit c.toNat s).1 := by
  unfold ringInit
  split
  all_goals
    constructor
    case outside => exact ⟨rfl, rfl, rfl, rfl, rfl, rfl, rfl⟩
    all_goals simp [BytesSame, State.memRead, State.line, State.pin]

theorem ringWrite_writes {b : Byte} {s : State} {p : State × Resp} (e : ringWrite b s = .next p) :
    Writes (.rbWr b) s p.1 := by
  rcases ringWrite_eq_next.mp e with ⟨-, rfl⟩ | ⟨-, -, rfl⟩
  · exact .ofModel rfl
  · constructor
    case outside => constructor <;> simp
    all_goals simp [State.line, State.pin]

theorem ringRead_writes {i : Instr} (hi : i = .rbRd ∨ i = .kpRdkey) {s : State} {p : State × Resp}
    (e : ringRead s = .next p) : Writes i s p.1 := by
  rcases ringRead_eq_next.mp e with ⟨-, rfl⟩ | ⟨-, -, v, -, rfl⟩
  · exact .ofModel rfl
  · constructor
    case outside => exact ⟨rfl, rfl, rfl, rfl, rfl, rfl, rfl⟩
    case tail => rcases hi with rfl | rfl <;> simp
    all_goals simp [BytesSame, State.memRead, State.line, State.pin]

theorem ringFlush_writes (s : State) : Writes .rbFlush s (ringFlush s) := by
  constructor
  case outside => exact ⟨rfl, rfl, rfl, rfl, rfl, rfl, rfl⟩
  all_goals simp [BytesSame, State.memRead, State.line, State.pin]

/-- A tick's phase rule and the scan before it write what 10_state R45 lists for `KP.TICK` (42 R143). -/
theorem tickPhase_writes {s u : State} (e : tickPhase (scan s).2 (scan s).1 = .next u) : Writes .kpTick s u := by
  have hk := scan_kept s
  rw [tickPhase_frame e]
  constructor
  case outside => constructor <;> simp
  case bound => exact fun _ n => ⟨hk.port n, hk.edge n⟩
  case enable => exact fun _ _ _ => hk.en
  case sticky => exact fun _ _ => hk.pend
  all_goals simp [drivesRows, State.pin]

theorem bringUp_writes (s : State) : Writes .kpInit s (bringUp { s with inited := true }) := by
  obtain ⟨ho, hbuf, -, -⟩ := bringUp_outside { s with inited := true }
  constructor
  case outside => exact ⟨ho.cfg, ho.ms, ho.pressed, ho.producer, ho.consumer, ho.sched, ho.issuer⟩
  case bytes => exact fun _ _ => .of hbuf ho.cfg
  all_goals simp [drivesRows, armsLines]

theorem refuse_writes (s : State) : Writes .kpInit s { s with inited := true, active := false } := by
  constructor
  case outside => exact ⟨rfl, rfl, rfl, rfl, rfl, rfl, rfl⟩
  all_goals simp [drivesRows, armsLines, BytesSame, State.memRead]

/-- The handler's first micro-step writes `trig` and `hstep` (43 R160). -/
theorem handler_writes (v : BitVec 4) {s t : State}
    (e : t = { s with trig := t.trig, hstep := t.hstep, resp := t.resp }) : Writes (.kpIrq v) s t := by
  rw [e]
  constructor
  case outside => exact ⟨rfl, rfl, rfl, rfl, rfl, rfl, rfl⟩
  all_goals simp [BytesSame, State.memRead, State.line, State.pin]

theorem noteForeign_writes (p : PinId) (s : State) : Writes (.ioRd p) s (noteForeign p s) := by
  unfold noteForeign
  split <;> exact .ofModel rfl

theorem holdDelay_writes {i : Instr} (c : Context) (d : Delay) (s : State) : Writes i s (holdDelay c d s) := by
  cases c <;> exact .ofModel rfl

/-- Every operation writes only what 10_state R45 lists for it or for an operation it calls. -/
theorem exec_writes {i : Instr} {s t : State} (e : exec i s = .next t) : Writes i s t := by
  cases i with
  | rbInit c => exact (ringInit_writes c s).answer e
  | rbWr b =>
    obtain ⟨p, hp, ha⟩ := andThen_eq_next.mp e
    exact (ringWrite_writes hp).answer ha
  | rbRd =>
    obtain ⟨p, hp, ha⟩ := andThen_eq_next.mp e
    exact (ringRead_writes (.inl rfl) hp).answer ha
  | rbCnt => exact (Writes.ofModel rfl).answer e
  | rbFlush => exact (ringFlush_writes s).answer e
  | kpInit =>
    rcases execKpInit_cases e with ⟨-, ha⟩ | ⟨-, -, ha⟩ | ⟨-, -, ha⟩
    · exact (Writes.ofModel rfl).answer ha
    · exact (bringUp_writes s).answer ha
    · exact (refuse_writes s).answer ha
  | kpTick =>
    rcases execKpTick_cases e with ⟨r, ha⟩ | ⟨-, -, u, hu, ha⟩
    · exact (Writes.ofModel rfl).answer ha
    · exact (tickPhase_writes hu).answer ha
  | kpIrq v =>
    rcases execKpIrq_cases e with ⟨r, ha⟩ | ⟨-, ha⟩ | ⟨-, -, -, rfl⟩
    · exact (Writes.ofModel rfl).answer ha
    · exact (handler_writes v rfl).answer ha
    · exact handler_writes v rfl
  | kpRdkey =>
    rcases execKpRdkey_cases e with ⟨r, ha⟩ | ⟨p, hp, ha⟩
    · exact (Writes.ofModel rfl).answer ha
    · exact (ringRead_writes (.inr rfl) hp).answer ha
  | ilArmf p => exact (armLine_writes rfl .falling p s).answer e
  | ilArmr p => exact (armLine_writes rfl .rising p s).answer e
  | ilDis p => exact (enableLine_writes false p s (.inr rfl)).answer e
  | ilEn p => exact (enableLine_writes true p s (.inl rfl)).answer e
  | ilClr p => exact (clearLine_writes p s).answer e
  | ioCfg p d q => exact (configPin_writes p d q s).answer e
  | ioSet p => exact (drivePin_writes rfl true p s).answer e
  | ioRst p => exact (drivePin_writes rfl false p s).answer e
  | ioRd p => exact (noteForeign_writes p s).answer e
  | tmNow => exact (Writes.ofModel rfl).answer e
  | tmDelay m =>
    rcases execTmDelay_cases e with ha | rfl
    · exact (Writes.ofModel rfl).answer ha
    · exact holdDelay_writes _ _ s

/-- Settles O56, field by field of what each operation writes. -/
theorem registersWrittenOnlyByTheirOperations : Obligations.RegistersWrittenOnlyByTheirOperations := by
  intro i s t e
  have w := exec_writes e
  have drives (h1 : i ≠ .kpInit) (h2 : i ≠ .kpTick) (h3 : ∀ p, i ≠ .ioSet p) (h4 : ∀ p, i ≠ .ioRst p) :
      drivesRows i = false := by
    cases i <;> simp_all [drivesRows]
  refine ⟨w.outside, w.control, w.count, w.handler, w.ring, w.head, w.bytes, w.tail,
    fun h1 h2 h3 h4 => w.rowOut (drives h1 h2 h3 h4), w.pins, fun h1 h2 h3 h4 => w.notSet (drives h1 h2 h3 h4),
    fun h1 h2 h3 => ?_⟩
  have harms : armsLines i = false := by
    cases i <;> simp_all [armsLines]
  exact ⟨w.bound harms, w.enable harms, w.sticky harms,
    fun hk h4 h5 => w.last harms (drives h1 hk h4 h5)⟩

end Machine
end Sys2Proof
end

section
/-! PROOFS. Everything one step can be, as an inductive relation; the clock, the keys, the configuration and the activity (O9, O15). -/

namespace Sys2Proof
namespace Machine

/-! ## What one step can do -/

/-- Only the port, the schedule, the answer, the marks and the draws differ, and a delay in progress may have ended. -/
structure PortMove (s t : State) : Prop where
  frame     : t = { s with
    producer := t.producer, consumer := t.consumer, sched := t.sched, issuer := t.issuer, resp := t.resp
    delay := t.delay, mainDelay := t.mainDelay, marks := t.marks, draws := t.draws }
  delay     : t.delay = s.delay ∨ t.delay = none
  mainDelay : t.mainDelay = s.mainDelay ∨ t.mainDelay = none

/-- The micro-steps of a handler in progress, each with the state it leaves (43 R161 to R166). -/
inductive MicroMove (s : State) : State → Prop
  | disable (at1 : s.hstep = .h1) : MicroMove s { eachCol (enableLine false) s with hstep := .h2 }
  | wait (at2 : s.hstep = .h2) : MicroMove s (holdDelay .producer ⟨s.ms, s.cfg.debounceDelayMs⟩ s)
  | pass (at2 : s.hstep = .h2) : MicroMove s { s with hstep := .h3 }
  | scan (at3 : s.hstep = .h3) : MicroMove s { (scan s).1 with hkey := (Machine.scan s).2, hstep := .h4 }
  | report {k : Key} {u : State} (at4 : s.hstep = .h4) (reported : reportKey k s = .next u) :
      MicroMove s { u with hstep := .h5 }
  | noKey (at4 : s.hstep = .h4) : MicroMove s { s with hstep := .h5 }
  | clear (at5 : s.hstep = .h5) : MicroMove s { eachCol clearLine s with hstep := .h6 }
  | enable (at6 : s.hstep = .h6) :
      MicroMove s { eachCol (enableLine true) s with hstep := .h0, hkey := none, resp := some (.ok 0) }

theorem microStep_move {s t : State} (hh : s.hstep ≠ .h0) (e : microStep s = .next t) : MicroMove s t := by
  unfold microStep at e
  split at e
  case h_1 h0 => exact absurd h0 hh
  case h_2 h1 => cases e; exact .disable h1
  case h_3 h2 =>
    rw [stepH2, startDelay_eq] at e
    split at e <;> cases e
    · exact .pass h2
    · exact .wait h2
  case h_4 h3 => cases e; exact .scan h3
  case h_5 h4 =>
    unfold stepH4 at e
    split at e
    · obtain ⟨u, hu, e⟩ := andThen_eq_next.mp e
      cases e
      exact .report h4 hu
    · cases e
      exact .noKey h4
  case h_6 h5 => cases e; exact .clear h5
  case h_7 h6 => cases answerOk_eq_next.mp e; exact .enable h6

/-- What one step can be: nothing but a move at the port, a step of the environment, the handler's next micro-step, the end of the handler's
delay, or an operation handed to `exec` (20_memory R68). -/
inductive StepMove (s : State) : State → Prop
  | port {t : State} (moved : PortMove s t) : StepMove s t
  | env (v : EnvStep) (scheduled : s.sched.head? = some (.env v)) : StepMove s (envStep v { s with sched := s.sched.tail })
  | micro {u t : State} (moved : PortMove s u) (free : u.delay = none) (taken : MicroMove u t) : StepMove s t
  | delayOver {u : State} (moved : PortMove s u) (waited : s.delay ≠ none) (ended : u.delay = none) (handler : s.hstep ≠ .h0) :
      StepMove s { u with hstep := .h3 }
  | exec {u t : State} {i : Instr} (moved : PortMove s u) (free : u.delay = none) (idle : u.hstep = .h0)
      (issuing : s.issuing = some i) (done : exec i u = .next t) : StepMove s t

theorem endDelay_cases {s t : State} (e : endDelay s = .next t) :
    (s.hstep ≠ .h0 ∧ t = { s with delay := none, hstep := .h3 }) ∨ t = { s with delay := none, resp := some (.ok 0) } := by
  unfold endDelay at e
  dsimp only at e
  split at e
  · cases e
    exact .inl ⟨by simp_all [State.inHandler], rfl⟩
  · exact .inr (answerOk_eq_next.mp e)

/-- Running a word is running its operation, or the answer to an illegal word (30_encoding R85). -/
theorem runWord_cases {w : CmdWord} {s t : State} (e : runWord w s = .next t) :
    (∃ i, decode w = some i ∧ exec i s = .next t) ∨ (decode w = none ∧ answer (s, .eIllegal) = .next t) := by
  unfold runWord at e
  cases hd : decode w with
  | some i => exact .inl ⟨i, rfl, by simpa [hd] using e⟩
  | none => exact .inr ⟨rfl, by simpa [hd] using e⟩

theorem fetch_sched (s : State) (l : List Move) :
    ({ s with sched := l } : State).fetch = s.fetch.map fun p => (p.1, { p.2 with sched := l }) := by
  unfold State.fetch
  dsimp only
  split <;> simp_all

/-- The operation of the word that KDB takes is the one that the step issues. -/
theorem issuing_of_fetch {s : State} {w : CmdWord} {u : State} (hk : s.kdbMoves = true) (hd : s.delay = none)
    (hh : s.hstep = .h0) (hf : ({ s with sched := s.sched.tail } : State).fetch = some (w, u)) : s.issuing = decode w := by
  rw [fetch_sched] at hf
  obtain ⟨p, hp, he⟩ := Option.map_eq_some_iff.mp hf
  cases he
  simp [State.issuing, hk, hd, State.inHandler, hh, hp]

theorem kdbMove_move {s t : State} (hk : s.kdbMoves = true) (e : kdbMove { s with sched := s.sched.tail } = .next t) :
    StepMove s t := by
  rcases kdbMove_cases { s with sched := s.sched.tail } with
    ⟨d, hd, -, em⟩ | ⟨d, hd, -, em⟩ | ⟨hd, hh, em⟩ | ⟨hd, hh, w, u, hf, em⟩ | ⟨hd, hh, -, em⟩ <;> rw [em] at e
  · cases e
    exact .port ⟨rfl, .inl rfl, .inl rfl⟩
  · rcases endDelay_cases e with ⟨hh, rfl⟩ | rfl
    · exact .delayOver (u := { s with sched := s.sched.tail, delay := none }) ⟨rfl, .inr rfl, .inl rfl⟩ (by simp_all) rfl hh
    · exact .port ⟨rfl, .inr rfl, .inl rfl⟩
  · exact .micro (u := { s with sched := s.sched.tail }) ⟨rfl, .inl rfl, .inl rfl⟩ hd (microStep_move hh e)
  · have hi := issuing_of_fetch hk hd hh hf
    have hfr := fetch_frame hf
    have hm : PortMove s u := by
      refine ⟨by rw [hfr], .inl (by rw [hfr]), .inl (by rw [hfr])⟩
    rcases runWord_cases e with ⟨i, hdec, ex⟩ | ⟨-, ha⟩
    · exact .exec hm (by rw [hfr]; exact hd) (by rw [hfr]; exact hh) (hi.trans hdec) ex
    · cases answer_eq_next.mp ha
      exact .port ⟨by rw [hfr], hm.delay, hm.mainDelay⟩
  · rcases idleMove_cases { s with sched := s.sched.tail } with em' | ⟨d, -, -, em'⟩ <;> rw [em'] at e <;> cases e
    · exact .port ⟨rfl, .inl rfl, .inl rfl⟩
    · exact .port ⟨rfl, .inl rfl, .inr rfl⟩

theorem makeReady_move (c : Context) (w : CmdWord) (s : State) : PortMove s (makeReady c w s) := by
  cases c <;> exact ⟨rfl, .inl rfl, .inl rfl⟩

theorem serve_move (s : State) : PortMove s (serve s) := by
  unfold serve
  split <;> exact ⟨rfl, .inl rfl, .inl rfl⟩

/-- Every step that gives a next state is one of the moves. -/
theorem step_move {s t : State} (e : step s = .next t) : StepMove s t := by
  rcases step_cases s with ⟨hk, em⟩ | ⟨v, ms, hs, em⟩ | ⟨c, w, ms, hs, em⟩ | ⟨ms, hs, em⟩ <;> rw [em] at e
  · exact kdbMove_move hk e
  · cases e
    have := StepMove.env (s := s) v (by rw [hs]; rfl)
    rwa [hs] at this
  · cases e
    have hm := makeReady_move c w { s with sched := ms }
    exact .port ⟨hm.frame, hm.delay, hm.mainDelay⟩
  · cases e
    have hm := serve_move { s with sched := ms }
    exact .port ⟨hm.frame, hm.delay, hm.mainDelay⟩

/-! ## The environment -/

theorem keyLt_iff {a b : Key} : keyLt a b = true ↔ a.1 < b.1 ∨ (a.1 = b.1 ∧ a.2 < b.2) := by
  simp [keyLt]

theorem keyLt_trans {a b c : Key} (h : keyLt a b = true) (k : keyLt b c = true) : keyLt a c = true := by
  rw [keyLt_iff] at *
  omega

/-- Two keys that are not equal are ordered one way or the other. -/
theorem keyLt_of_not {a b : Key} (h : ¬ keyLt a b = true) (hne : a ≠ b) : keyLt b a = true := by
  rw [keyLt_iff] at *
  have : ¬ (a.1 = b.1 ∧ a.2 = b.2) := fun e => hne (Prod.ext e.1 e.2)
  omega

theorem mem_insertKey {k x : Key} {l : List Key} : x ∈ insertKey k l ↔ x = k ∨ x ∈ l := by
  induction l with
  | nil => simp [insertKey]
  | cons a l ih =>
    unfold insertKey
    split
    · simp
    · split
      · rename_i heq
        subst heq
        simp
      · simp [ih, or_left_comm]

theorem insertKey_sorted {k : Key} {l : List Key} (h : l.Pairwise (fun a b => keyLt a b = true)) :
    (insertKey k l).Pairwise (fun a b => keyLt a b = true) := by
  induction l with
  | nil => simp [insertKey]
  | cons a l ih =>
    obtain ⟨ha, hl⟩ := List.pairwise_cons.mp h
    unfold insertKey
    split
    · rename_i hka
      refine List.pairwise_cons.mpr ⟨fun x hx => ?_, h⟩
      rcases List.mem_cons.mp hx with rfl | hx
      · exact hka
      · exact keyLt_trans hka (ha x hx)
    · split
      · exact h
      · rename_i hka hne
        refine List.pairwise_cons.mpr ⟨fun x hx => ?_, ih hl⟩
        rcases mem_insertKey.mp hx with rfl | hx
        · exact keyLt_of_not hka hne
        · exact ha x hx

/-- The environment does nothing, changes the closed keys, which stay keys of the matrix in rising order, or advances the clock (30_encoding R89). -/
theorem envStep_cases (v : EnvStep) (s : State) :
    envStep v s = s ∨
    (∃ l, envStep v s = setPressed l s ∧ (KeysOk s.cfg s.pressed → KeysOk s.cfg l)) ∨
    ∃ d, envStep v s = advanceClock d s := by
  cases v with
  | press k =>
    cases hk : s.cfg.hasKey k with
    | false => exact .inl (by simp [envStep, hk])
    | true =>
      refine .inr (.inl ⟨insertKey k s.pressed, by simp [envStep, hk],
        fun ⟨hs, hm⟩ => ⟨insertKey_sorted hs, fun x hx => ?_⟩⟩)
      rcases mem_insertKey.mp hx with rfl | hx
      · exact hk
      · exact hm x hx
  | release k =>
    exact .inr (.inl ⟨_, rfl, fun ⟨hs, hm⟩ => ⟨hs.filter _, fun x hx => hm x (List.mem_filter.mp hx).1⟩⟩)
  | ms d => exact .inr (.inr ⟨d, rfl⟩)

theorem envStep_same (v : EnvStep) (s : State) :
    (envStep v s).cfg = s.cfg ∧ (envStep v s).active = s.active ∧ (envStep v s).inited = s.inited := by
  rcases envStep_cases v s with h | ⟨l, h, -⟩ | ⟨d, h⟩ <;> simp [h]

/-! ## Time, keys, configuration and activity -/

/-- A micro-step writes no register that outlives the handler but row levels, lines and the ring's bytes and indices. -/
theorem MicroMove.frame {s t : State} (m : MicroMove s t) :
    t = { s with
      trig := t.trig, hstep := t.hstep, hkey := t.hkey, head := t.head, tail := t.tail, buf := t.buf, rowOut := t.rowOut
      lines := t.lines, resp := t.resp, delay := t.delay, marks := t.marks, draws := t.draws } := by
  cases m with
  | disable => rw [eachCol_enable_frame]
  | wait => rfl
  | pass => rfl
  | scan => rw [scan_frame s]
  | report _ hr => rw [reportKey_frame hr]
  | noKey => rfl
  | clear => rw [eachCol_clear_frame]
  | enable => rw [eachCol_enable_frame]

theorem PortMove.same {s t : State} (h : PortMove s t) :
    t.cfg = s.cfg ∧ t.ms = s.ms ∧ t.pressed = s.pressed ∧ t.active = s.active ∧ t.inited = s.inited := by
  rw [h.frame]
  exact ⟨rfl, rfl, rfl, rfl, rfl⟩

theorem MicroMove.same {s t : State} (h : MicroMove s t) :
    t.cfg = s.cfg ∧ t.ms = s.ms ∧ t.pressed = s.pressed ∧ t.active = s.active ∧ t.inited = s.inited := by
  rw [h.frame]
  exact ⟨rfl, rfl, rfl, rfl, rfl⟩

/-- Settles O9: of the moves only the environment's writes the clock or the keys, and none the configuration. -/
theorem onlyEnvironmentMovesTimeAndKeys : Obligations.OnlyEnvironmentMovesTimeAndKeys := by
  intro s t e
  cases step_move e with
  | port hm =>
    obtain ⟨hc, hms, hp, -⟩ := hm.same
    exact ⟨hc, fun _ => ⟨hms, hp⟩⟩
  | env v hv => exact ⟨(envStep_same v _).1, fun hne => absurd hv (hne v)⟩
  | micro hm _ ht =>
    obtain ⟨hc, hms, hp, -⟩ := hm.same
    obtain ⟨hc', hms', hp', -⟩ := ht.same
    exact ⟨hc'.trans hc, fun _ => ⟨hms'.trans hms, hp'.trans hp⟩⟩
  | delayOver hm =>
    obtain ⟨hc, hms, hp, -⟩ := hm.same
    exact ⟨hc, fun _ => ⟨hms, hp⟩⟩
  | exec hm _ _ _ ex =>
    obtain ⟨hc, hms, hp, -⟩ := hm.same
    have ho := (exec_writes ex).outside
    exact ⟨ho.cfg.trans hc, fun _ => ⟨ho.ms.trans hms, ho.pressed.trans hp⟩⟩

/-- After the first `KP.INIT` no operation writes `active` or `inited` (42 R151). -/
theorem exec_control {i : Instr} {s t : State} (hi : s.inited = true) (e : exec i s = .next t) :
    t.active = s.active ∧ t.inited = s.inited := by
  by_cases hk : i = .kpInit
  · subst hk
    rcases execKpInit_cases e with ⟨-, ha⟩ | ⟨hn, -⟩ | ⟨hn, -⟩
    · cases answer_eq_next.mp ha
      exact ⟨rfl, rfl⟩
    · simp [hn] at hi
    · simp [hn] at hi
  · obtain ⟨ha, hin, -⟩ := (exec_writes e).control hk
    exact ⟨ha, hin⟩

theorem step_control {s t : State} (hi : s.inited = true) (e : step s = .next t) :
    t.active = s.active ∧ t.inited = s.inited := by
  cases step_move e with
  | port hm => exact hm.same.2.2.2
  | env v => exact (envStep_same v _).2
  | micro hm _ ht =>
    obtain ⟨-, -, -, ha, hin⟩ := hm.same
    obtain ⟨-, -, -, ha', hin'⟩ := ht.same
    exact ⟨ha'.trans ha, hin'.trans hin⟩
  | delayOver hm => exact hm.same.2.2.2
  | exec hm _ _ _ ex =>
    obtain ⟨-, -, -, ha, hin⟩ := hm.same
    obtain ⟨ha', hin'⟩ := exec_control (hin.trans hi) ex
    exact ⟨ha'.trans ha, hin'.trans hin⟩

/-- Settles O15: every step keeps both registers. -/
theorem refusedKeypadStaysInert : Obligations.RefusedKeypadStaysInert := by
  intro s t hi e
  obtain ⟨ha, hin⟩ := step_control hi e
  exact ⟨hin.trans hi, ha.trans, ha.trans⟩

end Machine
end Sys2Proof
end

section
/-! PROOFS. Every move keeps the invariant of a run (O57). -/

namespace Sys2Proof
namespace Machine

/-! ## The invariant of a run, move by move -/

/-- A move at the port writes no register that the invariant reads, but may end a delay. -/
theorem RunOk.port {s t : State} (h : RunOk s) (m : PortMove s t) : RunOk t := by
  obtain ⟨hms, hdelay, hmain⟩ := h.clock
  have delay : ∀ d, t.delay = some d → s.delay = some d := fun d e => by
    rcases m.delay with hd | hd <;> rw [hd] at e
    · exact e
    · cases e
  have main : ∀ d, t.mainDelay = some d → s.mainDelay = some d := fun d e => by
    rcases m.mainDelay with hd | hd <;> rw [hd] at e
    · exact e
    · cases e
  have clock : t.ms < 2 ^ t.cfg.msW ∧ (∀ d, t.delay = some d → d.t0 < 2 ^ t.cfg.msW) ∧
      ∀ d, t.mainDelay = some d → d.t0 < 2 ^ t.cfg.msW := by
    obtain ⟨hc, hm, -⟩ := m.same
    rw [hc, hm]
    exact ⟨hms, fun d e => hdelay d (delay d e), fun d e => hmain d (main d e)⟩
  have waiting : t.delay ≠ none → s.hstep = .h0 ∨ s.hstep = .h2 := fun hne => by
    obtain ⟨d, e⟩ := Option.ne_none_iff_exists'.mp hne
    exact h.waiting (by rw [delay d e]; exact Option.some_ne_none d)
  rw [m.frame] at clock ⊢
  exact { memory := h.memory, rows := h.rows, keymap := h.keymap, ring := h.ring.congr rfl rfl rfl rfl rfl rfl,
          keys := h.keys, active := h.active, hkey := h.hkey, width := h.width, clock := clock, counting := h.counting,
          count := h.count, poll := h.poll, irq := h.irq, carried := h.carried, waiting := waiting }

/-- A delay that begins takes the clock as its `t0`, and a producer's begins in `H2` or with no handler in progress (46 R217). -/
theorem RunOk.holdDelay {s : State} (c : Context) (m : Nat) (h : RunOk s)
    (hc : c = .producer → s.hstep = .h0 ∨ s.hstep = .h2) : RunOk (Machine.holdDelay c ⟨s.ms, m⟩ s) := by
  obtain ⟨hms, hdelay, hmain⟩ := h.clock
  cases c with
  | producer =>
    exact { h with
      ring := h.ring.congr rfl rfl rfl rfl rfl rfl
      clock := ⟨hms, fun d e => by cases e; exact hms, hmain⟩
      waiting := fun _ => hc rfl }
  | consumer =>
    exact { h with
      ring := h.ring.congr rfl rfl rfl rfl rfl rfl
      clock := ⟨hms, hdelay, fun d e => by cases e; exact hms⟩ }

/-- The handler's registers move in the Interrupt variant only; a key it carries is one of the matrix (10_state R26). -/
theorem RunOk.handler {s t : State} (h : RunOk s)
    (e : t = { s with trig := t.trig, hstep := t.hstep, hkey := t.hkey, resp := t.resp, lines := t.lines })
    (hv : s.cfg.variant = .interrupt) (hkey : ∀ k, t.hkey = some k → s.cfg.hasKey k = true)
    (carried : t.hkey ≠ none → t.hstep = .h4 ∨ t.hstep = .h5 ∨ t.hstep = .h6)
    (waiting : s.delay ≠ none → t.hstep = .h0 ∨ t.hstep = .h2) : RunOk t := by
  rw [e]
  exact { h with
    ring := h.ring.congr rfl rfl rfl rfl rfl rfl
    hkey := hkey
    poll := fun hp => by simp [hv] at hp
    carried := carried
    waiting := waiting }

/-- The Poll variant has no handler in progress. -/
theorem RunOk.interrupt {s : State} (h : RunOk s) (hh : s.hstep ≠ .h0) : s.cfg.variant = .interrupt := by
  cases hv : s.cfg.variant with
  | interrupt => rfl
  | poll => exact absurd (h.poll hv).1 hh

/-- The phase and the count move in the Poll variant only, within the threshold (10_state R23, R24). -/
theorem RunOk.phase {s : State} (h : RunOk s) (p : Phase) (n : Nat) (hv : s.cfg.variant = .poll)
    (counting : p = .debounce → n < max 1 s.cfg.debounceThreshold) (count : n ≤ max 1 s.cfg.debounceThreshold) :
    RunOk { s with phase := p, cnt := n } :=
  { h with
    ring := h.ring.congr rfl rfl rfl rfl rfl rfl
    counting := counting
    count := count
    irq := fun hi => by simp [hv] at hi }

theorem reportKey_ring {s t : State} {k : Key} (h : RingOk s) (hm : s.buf.wf = true) (e : reportKey k s = .next t) :
    RingOk t ∧ t.buf.wf = true := by
  obtain ⟨b, r, -, e⟩ := reportKey_eq_next.mp e
  obtain ⟨hr, hw, -⟩ := ringWrite_frame h hm e
  exact ⟨hr, hw⟩

theorem RunOk.reportKey {s t : State} {k : Key} (h : RunOk s) (e : Machine.reportKey k s = .next t) : RunOk t := by
  obtain ⟨hr, hm⟩ := reportKey_ring h.ring h.memory e
  exact h.ofRing hr hm (by rw [reportKey_frame e])

theorem RunOk.tickDebounce {s t : State} {k : Option Key} (h : RunOk s) (hv : s.cfg.variant = .poll) (hp : s.phase = .debounce)
    (e : Machine.tickDebounce k s = .next t) : RunOk t := by
  have hn : (s.cnt + 1) % 2 ^ s.cfg.cntW = s.cnt + 1 := Nat.mod_eq_of_lt (h.cnt_fits hp)
  have hlt := h.counting hp
  unfold Machine.tickDebounce at e
  cases k with
  | none =>
    cases e
    exact h.phase .idle 0 hv (by simp) (by omega)
  | some k =>
    simp only [hn] at e
    split at e
    · obtain ⟨u, hu, e⟩ := andThen_eq_next.mp e
      cases e
      have hf := reportKey_frame hu
      obtain ⟨hr, hm⟩ := reportKey_ring (s := { s with cnt := s.cnt + 1 }) (h.ring.congr rfl rfl rfl rfl rfl rfl) h.memory hu
      have hpressed : RunOk { s with phase := .pressed, cnt := s.cnt + 1 } := h.phase .pressed _ hv (by simp) (by omega)
      refine hpressed.ofRing (hr.congr rfl rfl rfl rfl rfl rfl) hm ?_
      rw [hf]
    · cases e
      have := h.phase .debounce (s.cnt + 1) hv (fun _ => by omega) (by omega)
      rwa [← hp] at this

/-- One tick of the phase machine (42 R143 to R146). -/
theorem RunOk.tickPhase {s t : State} {k : Option Key} (h : RunOk s) (hv : s.cfg.variant = .poll)
    (e : Machine.tickPhase k s = .next t) : RunOk t := by
  unfold Machine.tickPhase at e
  split at e
  case h_1 =>
    cases e
    cases k with
    | none => exact h
    | some k => exact h.phase .debounce 0 hv (fun _ => by omega) (by omega)
  case h_2 hp => exact h.tickDebounce hv hp e
  case h_3 =>
    cases e
    cases k with
    | none => exact h.phase .idle s.cnt hv (by simp) h.count
    | some k => exact h

/-! ### `KP.INIT` -/

theorem RunOk.resetScanState {s : State} (h : RunOk s) : RunOk (Machine.resetScanState s) :=
  { h with
    ring := h.ring.congr rfl rfl rfl rfl rfl rfl
    hkey := fun _ e => nomatch e
    counting := fun e => nomatch e
    count := Nat.zero_le _
    poll := fun _ => ⟨rfl, rfl, rfl⟩
    irq := fun _ => ⟨rfl, rfl⟩
    carried := fun e => absurd rfl e
    waiting := fun _ => .inl rfl }

theorem RunOk.armColumns {s : State} (h : RunOk s) : RunOk (Machine.armColumns s) := by
  unfold Machine.armColumns
  split
  · exact h
  · exact foldl_keeps (fun p _ hs => RunOk.armLine .falling p hs) _ h

theorem RunOk.bindPins {s : State} (h : RunOk s) : RunOk (Machine.bindPins s) :=
  foldl_keeps (fun p _ hs => RunOk.configPin p .input .up hs) _
    (foldl_keeps (fun p _ hs => RunOk.configPin p .output .noPull hs) _ h)

/-- A keypad becomes active only when `KP.INIT` has been issued and found the configuration valid (10_state R22). -/
theorem RunOk.control {s : State} (h : RunOk s) (a i : Bit) (ha : a = true → i = true ∧ s.cfg.valid = true) :
    RunOk { s with active := a, inited := i } :=
  { h with
    ring := h.ring.congr rfl rfl rfl rfl rfl rfl
    active := ha }

theorem RunOk.bringUp {s : State} (h : RunOk s) (hi : s.inited = true) (hv : s.cfg.valid = true) :
    RunOk (Machine.bringUp s) := by
  have hready := (((h.bindPins.driveRows s.cfg.rowRest).ringInit (s.cfg.nRows * s.cfg.nCols)).resetScanState).armColumns
  have hout := (bringUp_outside s).1.cfg
  have hin := (bringUp_outside s).2.2.1
  refine hready.control true _ fun _ => ⟨hin.trans hi, ?_⟩
  rw [← hv]
  exact congrArg Config.valid hout

theorem RunOk.exec {i : Instr} {s t : State} (h : RunOk s) (hh : s.hstep = .h0) (hd : s.delay = none)
    (e : Machine.exec i s = .next t) : RunOk t := by
  cases i with
  | rbInit c => exact (h.ringInit c.toNat).answer e
  | rbWr b =>
    obtain ⟨p, hp, ha⟩ := andThen_eq_next.mp e
    exact (h.ringWrite hp).answer ha
  | rbRd =>
    obtain ⟨p, hp, ha⟩ := andThen_eq_next.mp e
    exact (h.ringRead hp).answer ha
  | rbCnt => exact h.answer e
  | rbFlush => exact h.ringFlush.answer e
  | kpInit =>
    rcases execKpInit_cases e with ⟨-, ha⟩ | ⟨-, hv, ha⟩ | ⟨-, -, ha⟩
    · exact h.answer ha
    · exact ((h.control s.active true fun _ => ⟨rfl, hv⟩).bringUp rfl hv).answer ha
    · exact (h.control false true fun hf => nomatch hf).answer ha
  | kpTick =>
    rcases execKpTick_cases e with ⟨r, ha⟩ | ⟨hv, -, u, hu, ha⟩
    · exact h.answer ha
    · exact (h.scan.tickPhase (by simpa using hv) hu).answer ha
  | kpIrq v =>
    have hnone : s.hkey = none := by
      by_contra hk
      simpa [hh] using h.carried hk
    rcases execKpIrq_cases e with ⟨r, ha⟩ | ⟨hv, ha⟩ | ⟨hv, -, -, rfl⟩
    · exact h.answer ha
    · refine RunOk.answer (s := { s with trig := 0 }) ?_ ha
      exact h.handler rfl hv h.hkey h.carried h.waiting
    · exact h.handler rfl hv (by simp [hnone]) (by simp [hnone]) (absurd hd)
  | kpRdkey =>
    rcases execKpRdkey_cases e with ⟨r, ha⟩ | ⟨p, hp, ha⟩
    · exact h.answer ha
    · exact (h.ringRead hp).answer ha
  | ilArmf p => exact (h.armLine .falling p).answer e
  | ilArmr p => exact (h.armLine .rising p).answer e
  | ilDis p => exact (h.enableLine false p).answer e
  | ilEn p => exact (h.enableLine true p).answer e
  | ilClr p => exact (h.clearLine p).answer e
  | ioCfg p d q => exact (h.configPin p d q).answer e
  | ioSet p => exact (h.drivePin true p).answer e
  | ioRst p => exact (h.drivePin false p).answer e
  | ioRd p => exact (h.noteForeign p).answer e
  | tmNow => exact h.answer e
  | tmDelay m =>
    rcases execTmDelay_cases e with ha | rfl
    · exact h.answer ha
    · exact h.holdDelay _ _ fun _ => .inl hh

theorem RunOk.envStep {s : State} (v : EnvStep) (h : RunOk s) : RunOk (Machine.envStep v s) := by
  rcases envStep_cases v s with e | ⟨l, e, hl⟩ | ⟨d, e⟩ <;> rw [e]
  · exact h
  · have hkeys : RunOk { s with
        pressed := l, marks := { s.marks with ghosting := s.marks.ghosting || decide (3 ≤ l.length) } } :=
      { h with ring := h.ring.congr rfl rfl rfl rfl rfl rfl, keys := hl h.keys }
    exact hkeys.edgeLatch
  · exact { h with
      ring := h.ring.congr rfl rfl rfl rfl rfl rfl
      clock := ⟨Nat.mod_lt _ (Nat.two_pow_pos _), h.clock.2⟩ }

theorem MicroMove.inHandler {s t : State} (m : MicroMove s t) : s.hstep ≠ .h0 := by
  cases m <;> simp_all

/-- Before `H3` has scanned, no key is carried (10_state R26). -/
theorem RunOk.hkey_none {s : State} (h : RunOk s) (h4 : s.hstep ≠ .h4) (h5 : s.hstep ≠ .h5) (h6 : s.hstep ≠ .h6) :
    s.hkey = none := by
  by_contra hk
  rcases h.carried hk with e | e | e
  · exact h4 e
  · exact h5 e
  · exact h6 e

theorem RunOk.micro {s t : State} (h : RunOk s) (hd : s.delay = none) (m : MicroMove s t) : RunOk t := by
  have hv := h.interrupt m.inHandler
  cases m with
  | disable at1 =>
    have hn := h.hkey_none (by simp [at1]) (by simp [at1]) (by simp [at1])
    rw [eachCol_enable_frame]
    exact h.handler rfl hv h.hkey (absurd hn) (absurd hd)
  | wait at2 => exact h.holdDelay .producer _ fun _ => .inr at2
  | pass at2 =>
    have hn := h.hkey_none (by simp [at2]) (by simp [at2]) (by simp [at2])
    exact h.handler rfl hv h.hkey (absurd hn) (absurd hd)
  | scan at3 =>
    exact h.scan.handler rfl (by simpa using hv) (fun k hk => by simpa using scan_hasKey hk) (fun _ => .inl rfl)
      (absurd (by simpa using hd))
  | @report k u at4 hr =>
    have hu : u.cfg = s.cfg ∧ u.delay = s.delay := by rw [reportKey_frame hr]; exact ⟨rfl, rfl⟩
    exact (h.reportKey hr).handler rfl (by rw [hu.1]; exact hv) (h.reportKey hr).hkey (fun _ => .inr (.inl rfl))
      (absurd (hu.2.trans hd))
  | noKey at4 => exact h.handler rfl hv h.hkey (fun _ => .inr (.inl rfl)) (absurd hd)
  | clear at5 =>
    rw [eachCol_clear_frame]
    exact h.handler rfl hv h.hkey (fun _ => .inr (.inr rfl)) (absurd hd)
  | enable at6 =>
    rw [eachCol_enable_frame]
    exact h.handler rfl hv (fun _ e => nomatch e) (absurd rfl) (absurd hd)

/-- A producer's delay that a handler waits for is that of `H2`: its end is the micro-step that passes `H2` (43 R162). -/
theorem RunOk.delayOver {s u : State} (h : RunOk s) (m : PortMove s u) (waited : s.delay ≠ none)
    (hh : s.hstep ≠ .h0) : MicroMove u { u with hstep := .h3 } := by
  have at2 : u.hstep = .h2 := by
    rw [m.frame]
    exact (h.waiting waited).resolve_left hh
  exact .pass at2

/-- Settles O57, move by move. -/
theorem stepKeepsInvariant : Obligations.StepKeepsInvariant := by
  intro s t h e
  cases step_move e with
  | port hm => exact h.port hm
  | env v => exact (h.port (t := { s with sched := s.sched.tail }) ⟨rfl, .inl rfl, .inl rfl⟩).envStep v
  | micro hm free ht => exact (h.port hm).micro free ht
  | delayOver hm waited ended hh => exact (h.port hm).micro ended (h.delayOver hm waited hh)
  | exec hm free idle _ ex => exact (h.port hm).exec idle free ex

end Machine
end Sys2Proof
end

section
/-! PROOFS. `il_last` of an armed line follows its pin (O59). -/

namespace Sys2Proof
namespace Machine

/-! ## Keeping a property through driven rows -/

theorem driveRow_keeps {P : State → Prop} (hf : ∀ b p s, P s → P (drivePin b p s)) (b : Bit) (r : Nat) {s : State} (h : P s) :
    P (driveRow b r s) := by
  unfold driveRow
  split
  · exact hf b _ s h
  · exact h

theorem driveRows_keeps {P : State → Prop} (hf : ∀ b p s, P s → P (drivePin b p s)) (b : Bit) {s : State} (h : P s) :
    P (driveRows b s) := by
  unfold driveRows
  generalize List.range s.cfg.nRows = l
  induction l generalizing s with
  | nil => exact h
  | cons r l ih => exact ih (driveRow_keeps hf b r h)

theorem coreScanFrom_keeps {P : State → Prop} (hf : ∀ b p s, P s → P (drivePin b p s)) (l : List Nat) {s : State} (h : P s) :
    P (coreScanFrom l s).1 := by
  induction l generalizing s with
  | nil => exact h
  | cons r l ih =>
    have hrow := driveRow_keeps hf true r (driveRow_keeps hf false r h)
    unfold coreScanFrom
    dsimp only
    split
    · exact hrow
    · exact ih hrow

/-- What driving one pin keeps, a scan keeps (41 R125, R129). -/
theorem scan_keeps {P : State → Prop} (hf : ∀ b p s, P s → P (drivePin b p s)) {s : State} (h : P s) : P (scan s).1 := by
  unfold scan
  split
  · exact coreScanFrom_keeps hf _ h
  · exact driveRows_keeps hf false (coreScanFrom_keeps hf _ (driveRows_keeps hf true h))

/-! ## `il_last` of an armed line -/

/-- `il_last` follows the levels, in a state with one level for each row (10_state R30, R34). -/
structure Tracking (s : State) : Prop where
  rows   : s.rowOut.length = s.cfg.nRows
  tracks : Tracks s

/-- Nothing that a level depends on has changed, nor what a line watches and has seen. -/
theorem Tracking.congr {s t : State} (h : Tracking s) (hc : t.cfg = s.cfg) (hr : t.rowOut = s.rowOut)
    (hp : t.pressed = s.pressed)
    (hl : ∀ n, (t.line n).port = (s.line n).port ∧ (t.line n).edge = (s.line n).edge ∧ (t.line n).last = (s.line n).last) :
    Tracking t := by
  refine ⟨by rw [hr, hc]; exact h.rows, fun n he hm => ?_⟩
  obtain ⟨hport, hedge, hlast⟩ := hl n
  rw [hedge] at he
  rw [hport, hc] at hm
  rw [hlast, hport, level_congr hc hr hp h.rows.ge hm]
  exact h.tracks n he hm

/-- The edge latch makes every armed line follow its level (45 R190). -/
theorem edgeLatch_tracking {s : State} (hrows : s.rowOut.length = s.cfg.nRows) : Tracking (edgeLatch s) := by
  refine ⟨by simpa using hrows, fun n he hm => ?_⟩
  rw [edgeLatch_line, latched_edge'] at he
  rw [edgeLatch_line, latched_port, edgeLatch_cfg] at hm
  rw [edgeLatch_line, latched_port, level_congr (edgeLatch_cfg s) (edgeLatch_rowOut s) (edgeLatch_pressed s) hrows.ge hm,
    latched_edge he]

theorem Tracking.drivePin {s : State} (b : Bit) (p : PinId) (h : Tracking s) : Tracking (Machine.drivePin b p s) := by
  have hrows := drivePin_rows b p h.rows
  unfold Machine.drivePin at hrows ⊢
  split
  · rename_i hr
    rw [if_pos hr] at hrows
    exact edgeLatch_tracking hrows
  · exact h

theorem Tracking.scan {s : State} (h : Tracking s) : Tracking (Machine.scan s).1 :=
  scan_keeps (fun b p _ => Tracking.drivePin b p) h

/-- An armed line has just seen its pin's level (45 R186). -/
theorem Tracking.armLine {s : State} (e : Edge) (p : PinId) (h : Tracking s) : Tracking (Machine.armLine e p s) := by
  refine ⟨by simpa using h.rows, fun n he hm => ?_⟩
  rw [armLine_cfg] at hm
  rw [level_congr (armLine_cfg e p s) (armLine_rowOut e p s) (armLine_pressed e p s) h.rows.ge hm]
  rw [armLine_line] at he hm ⊢
  split at he
  · rename_i hn
    subst hn
    simp only [if_pos]
    rfl
  · rename_i hn
    simp only [if_neg hn] at hm ⊢
    exact h.tracks n he hm

theorem Tracking.armColumns {s : State} (h : Tracking s) : Tracking (Machine.armColumns s) := by
  unfold Machine.armColumns
  split
  · exact h
  · exact foldl_keeps (fun p _ hs => Tracking.armLine .falling p hs) _ h

theorem Tracking.bindPins {s : State} (h : Tracking s) : Tracking (Machine.bindPins s) := by
  have hf := bindPins_frame s
  unfold PinsFrame at hf
  rw [hf]
  exact h.congr rfl rfl rfl fun _ => ⟨rfl, rfl, rfl⟩

theorem Tracking.ringInit {s : State} (c : Nat) (h : Tracking s) : Tracking (Machine.ringInit c s).1 := by
  unfold Machine.ringInit
  split <;> exact h.congr rfl rfl rfl fun _ => ⟨rfl, rfl, rfl⟩

theorem Tracking.bringUp {s : State} (h : Tracking s) : Tracking (Machine.bringUp s) := by
  have hdriven := driveRows_keeps (fun b p _ => Tracking.drivePin b p) s.cfg.rowRest h.bindPins
  have hreset : Tracking (resetScanState (Machine.ringInit (s.cfg.nRows * s.cfg.nCols)
      (driveRows s.cfg.rowRest (Machine.bindPins s))).1) :=
    (hdriven.ringInit _).congr rfl rfl rfl fun _ => ⟨rfl, rfl, rfl⟩
  exact hreset.armColumns.congr rfl rfl rfl fun _ => ⟨rfl, rfl, rfl⟩

theorem Tracking.answer {s t : State} {r : Resp} (h : Tracking s) (e : Machine.answer (s, r) = .next t) : Tracking t := by
  cases answer_eq_next.mp e
  exact h.congr rfl rfl rfl fun _ => ⟨rfl, rfl, rfl⟩

theorem Tracking.tickPhase {s t : State} {k : Option Key} (h : Tracking s) (e : Machine.tickPhase k s = .next t) :
    Tracking t := by
  rw [tickPhase_frame e]
  exact h.congr rfl rfl rfl fun _ => ⟨rfl, rfl, rfl⟩

/-- An operation that neither drives rows nor arms a line leaves levels, and what the lines have seen, alone. -/
theorem Tracking.writes {i : Instr} {s t : State} (h : Tracking s) (w : Writes i s t) (hd : drivesRows i = false)
    (ha : armsLines i = false) : Tracking t :=
  h.congr w.outside.cfg (w.rowOut hd) w.outside.pressed fun n => ⟨(w.bound ha n).1, (w.bound ha n).2, w.last ha hd n⟩

theorem Tracking.control {s : State} (a i : Bit) (h : Tracking s) : Tracking { s with active := a, inited := i } :=
  h.congr rfl rfl rfl fun _ => ⟨rfl, rfl, rfl⟩

theorem Tracking.exec {i : Instr} {s t : State} (h : Tracking s) (e : Machine.exec i s = .next t) : Tracking t := by
  cases i with
  | kpInit =>
    rcases execKpInit_cases e with ⟨-, ha⟩ | ⟨-, -, ha⟩ | ⟨-, -, ha⟩
    · exact h.answer ha
    · exact (h.control s.active true).bringUp.answer ha
    · exact (h.control false true).answer ha
  | kpTick =>
    rcases execKpTick_cases e with ⟨r, ha⟩ | ⟨-, -, u, hu, ha⟩
    · exact h.answer ha
    · exact (h.scan.tickPhase hu).answer ha
  | ilArmf p => exact (h.armLine .falling p).answer e
  | ilArmr p => exact (h.armLine .rising p).answer e
  | ioSet p => exact (h.drivePin true p).answer e
  | ioRst p => exact (h.drivePin false p).answer e
  | _ => exact h.writes (exec_writes e) rfl rfl

/-- Enabling or disabling column lines leaves what they watch and what they have seen. -/
theorem eachCol_enable_watch (b : Bit) (s : State) (n : Fin 16) :
    ((eachCol (enableLine b) s).line n).port = (s.line n).port ∧
    ((eachCol (enableLine b) s).line n).edge = (s.line n).edge ∧
    ((eachCol (enableLine b) s).line n).last = (s.line n).last := by
  rw [eachCol_enable_line]
  split <;> exact ⟨rfl, rfl, rfl⟩

theorem eachCol_clear_watch (s : State) (n : Fin 16) :
    ((eachCol clearLine s).line n).port = (s.line n).port ∧
    ((eachCol clearLine s).line n).edge = (s.line n).edge ∧
    ((eachCol clearLine s).line n).last = (s.line n).last := by
  rw [eachCol_clear_line]
  split <;> exact ⟨rfl, rfl, rfl⟩

theorem eachCol_enable_same (b : Bit) (s : State) :
    (eachCol (enableLine b) s).cfg = s.cfg ∧ (eachCol (enableLine b) s).rowOut = s.rowOut ∧
    (eachCol (enableLine b) s).pressed = s.pressed := by
  rw [eachCol_enable_frame]
  exact ⟨rfl, rfl, rfl⟩

theorem eachCol_clear_same (s : State) :
    (eachCol clearLine s).cfg = s.cfg ∧ (eachCol clearLine s).rowOut = s.rowOut ∧
    (eachCol clearLine s).pressed = s.pressed := by
  rw [eachCol_clear_frame]
  exact ⟨rfl, rfl, rfl⟩

theorem Tracking.micro {s t : State} (h : Tracking s) (m : MicroMove s t) : Tracking t := by
  cases m with
  | disable =>
    obtain ⟨hc, hr, hp⟩ := eachCol_enable_same false s
    exact h.congr hc hr hp (eachCol_enable_watch false s)
  | wait => exact h.congr rfl rfl rfl fun _ => ⟨rfl, rfl, rfl⟩
  | pass => exact h.congr rfl rfl rfl fun _ => ⟨rfl, rfl, rfl⟩
  | scan => exact h.scan.congr rfl rfl rfl fun _ => ⟨rfl, rfl, rfl⟩
  | report _ hr =>
    rw [reportKey_frame hr]
    exact h.congr rfl rfl rfl fun _ => ⟨rfl, rfl, rfl⟩
  | noKey => exact h.congr rfl rfl rfl fun _ => ⟨rfl, rfl, rfl⟩
  | clear =>
    obtain ⟨hc, hr, hp⟩ := eachCol_clear_same s
    exact h.congr hc hr hp (eachCol_clear_watch s)
  | enable =>
    obtain ⟨hc, hr, hp⟩ := eachCol_enable_same true s
    exact h.congr hc hr hp (eachCol_enable_watch true s)

theorem Tracking.envStep {s : State} (v : EnvStep) (h : Tracking s) : Tracking (Machine.envStep v s) := by
  rcases envStep_cases v s with e | ⟨l, e, -⟩ | ⟨d, e⟩ <;> rw [e]
  · exact h
  · exact edgeLatch_tracking h.rows
  · exact h.congr rfl rfl rfl fun _ => ⟨rfl, rfl, rfl⟩

theorem Tracking.port {s t : State} (h : Tracking s) (m : PortMove s t) : Tracking t := by
  rw [m.frame]
  exact h.congr rfl rfl rfl fun _ => ⟨rfl, rfl, rfl⟩

/-- Settles O59, move by move. -/
theorem stepKeepsLastLevels : Obligations.StepKeepsLastLevels := by
  intro s t hrun ht e
  have h : Tracking s := ⟨hrun.rows, ht⟩
  suffices Tracking t from this.tracks
  cases step_move e with
  | port hm => exact h.port hm
  | env v => exact (h.port (t := { s with sched := s.sched.tail }) ⟨rfl, .inl rfl, .inl rfl⟩).envStep v
  | micro hm _ taken => exact (h.port hm).micro taken
  | delayOver hm waited _ hh => exact (h.port hm).micro (hrun.delayOver hm waited hh)
  | exec hm _ _ _ ex => exact (h.port hm).exec ex

end Machine
end Sys2Proof
end

section
/-! PROOFS. Every move that respects ownership keeps the keypad's own invariants (O60). -/

namespace Sys2Proof
namespace Machine

/-! ## The keypad's own invariants -/

/-- Nothing that the keypad owns has changed but the enables of its lines, and those go with `hstep` (43 R168). -/
theorem KeypadOk.ofLines {s t : State} (h : KeypadOk s) (ha : t.active = s.active) (hc : t.cfg = s.cfg)
    (hr : t.rowOut = s.rowOut) (hring : t.rbValid = s.rbValid ∧ t.rbCap = s.rbCap)
    (hp : ∀ p, s.cfg.isMatrix p = true → t.pin p.index = s.pin p.index)
    (hl : ∀ n, s.cfg.isColLine n = true → (t.line n).port = (s.line n).port ∧ (t.line n).edge = (s.line n).edge ∧
      (((s.line n).en = true ↔ s.hstep = .h0 ∨ s.hstep = .h1) →
        ((t.line n).en = true ↔ t.hstep = .h0 ∨ t.hstep = .h1))) : KeypadOk t where
  rest := by rw [ha, hc, hr]; exact h.rest
  ring := by rw [ha, hc, hring.1, hring.2]; exact h.ring
  bound := by
    rw [ha, hc]
    intro hact
    obtain ⟨hrow, hcol⟩ := h.bound hact
    exact ⟨fun p hm => (hp p (by simp [Config.isMatrix, isRow_iff.mpr hm])).trans (hrow p hm),
      fun p hm => (hp p (by simp [Config.isMatrix, isCol_iff.mpr hm])).trans (hcol p hm)⟩
  armed := by
    rw [ha, hc]
    intro hact hv p hm
    obtain ⟨hport, hedge, hen⟩ := h.armed hact hv p hm
    obtain ⟨hport', hedge', hen'⟩ := hl p.line (isColLine_of_mem hm)
    exact ⟨hport'.trans hport, hedge'.trans hedge, hen' hen⟩

/-- Nothing that the keypad owns has changed, and the handler has passed neither `H1` nor `H6`. -/
theorem KeypadOk.congr {s t : State} (h : KeypadOk s) (ha : t.active = s.active) (hc : t.cfg = s.cfg)
    (hr : t.rowOut = s.rowOut) (hring : t.rbValid = s.rbValid ∧ t.rbCap = s.rbCap)
    (hp : ∀ p, s.cfg.isMatrix p = true → t.pin p.index = s.pin p.index)
    (hl : ∀ n, s.cfg.isColLine n = true →
      (t.line n).port = (s.line n).port ∧ (t.line n).edge = (s.line n).edge ∧ (t.line n).en = (s.line n).en)
    (hs : (t.hstep = .h0 ∨ t.hstep = .h1) ↔ (s.hstep = .h0 ∨ s.hstep = .h1)) : KeypadOk t :=
  h.ofLines ha hc hr hring hp fun n hn => by
    obtain ⟨hport, hedge, hen⟩ := hl n hn
    exact ⟨hport, hedge, by rw [hen, hs]; exact id⟩

/-- A move of the handler over the lines: they are those of `u`, and `hstep`, the carried key and the answer may have changed. -/
theorem KeypadOk.ofHandler {s t : State} (u : State) (h : KeypadOk s)
    (e : t = { s with lines := u.lines, hstep := t.hstep, hkey := t.hkey, resp := t.resp })
    (hl : ∀ n, s.cfg.isColLine n = true → (u.line n).port = (s.line n).port ∧ (u.line n).edge = (s.line n).edge ∧
      (((s.line n).en = true ↔ s.hstep = .h0 ∨ s.hstep = .h1) →
        ((u.line n).en = true ↔ t.hstep = .h0 ∨ t.hstep = .h1))) : KeypadOk t := by
  rw [e]
  exact h.ofLines rfl rfl rfl ⟨rfl, rfl⟩ (fun _ _ => rfl) hl

theorem KeypadOk.port {s t : State} (h : KeypadOk s) (m : PortMove s t) : KeypadOk t := by
  rw [m.frame]
  exact h.congr rfl rfl rfl ⟨rfl, rfl⟩ (fun _ _ => rfl) (fun _ _ => ⟨rfl, rfl, rfl⟩) Iff.rfl

/-- The line registers are all that `LinesKept` reads. -/
theorem LinesKept.ofLines {s t : State} (h : t.lines = s.lines) : LinesKept s t := by
  have hl : ∀ n, t.line n = s.line n := fun n => congrArg (Vector.get · n) h
  exact ⟨fun n => by rw [hl], fun n => by rw [hl], fun n => by rw [hl], fun n hp => by rw [hl]; exact hp⟩

theorem setPressed_kept (l : List Key) (s : State) : LinesKept s (setPressed l s) := by
  unfold setPressed
  refine .trans ?_ (edgeLatch_kept _)
  exact .ofLines rfl

theorem KeypadOk.envStep {s : State} (v : EnvStep) (h : KeypadOk s) : KeypadOk (Machine.envStep v s) := by
  rcases envStep_cases v s with e | ⟨l, e, -⟩ | ⟨d, e⟩ <;> rw [e]
  · exact h
  · have hk := setPressed_kept l s
    exact h.congr (setPressed_active l s) (setPressed_cfg l s) (setPressed_rowOut l s)
      ⟨setPressed_rbValid l s, setPressed_rbCap l s⟩
      (fun p _ => congrArg (Vector.get · p.index) (setPressed_pins l s)) (fun n _ => ⟨hk.port n, hk.edge n, hk.en n⟩)
      (by simp)
  · exact h.congr rfl rfl rfl ⟨rfl, rfl⟩ (fun _ _ => rfl) (fun _ _ => ⟨rfl, rfl, rfl⟩) Iff.rfl

/-- A scan of an active keypad leaves its rows at rest (41 R129, 10_state R30). -/
theorem scan_keeps_rest {s : State} (hrun : RunOk s) (h : KeypadOk s) (ha : s.active = true) :
    (scan s).1.rowOut = s.rowOut :=
  (scan_rest (hrun.active ha).2 hrun.rows (h.rest ha)).2

theorem KeypadOk.micro {s t : State} (hrun : RunOk s) (h : KeypadOk s) (m : MicroMove s t) : KeypadOk t := by
  cases m with
  | disable at1 =>
    refine h.ofHandler (eachCol (enableLine false) s) (by rw [eachCol_enable_frame]) fun n hn => ?_
    rw [eachCol_enable_line, if_pos hn]
    exact ⟨rfl, rfl, fun _ => by simp⟩
  | wait => exact h.congr rfl rfl rfl ⟨rfl, rfl⟩ (fun _ _ => rfl) (fun _ _ => ⟨rfl, rfl, rfl⟩) Iff.rfl
  | pass at2 =>
    exact h.congr rfl rfl rfl ⟨rfl, rfl⟩ (fun _ _ => rfl) (fun _ _ => ⟨rfl, rfl, rfl⟩) (by simp [at2])
  | scan at3 =>
    cases ha : s.active with
    | false => exact .of_inactive ((scan_active s).trans ha)
    | true =>
      have hk := scan_kept s
      exact h.congr (scan_active s) (scan_cfg s) (scan_keeps_rest hrun h ha) ⟨scan_rbValid s, scan_rbCap s⟩
        (fun p _ => congrArg (Vector.get · p.index) (scan_pins s)) (fun n _ => ⟨hk.port n, hk.edge n, hk.en n⟩)
        (by simp [at3])
  | report at4 hr =>
    rw [reportKey_frame hr]
    exact h.congr rfl rfl rfl ⟨rfl, rfl⟩ (fun _ _ => rfl) (fun _ _ => ⟨rfl, rfl, rfl⟩) (by simp [at4])
  | noKey at4 =>
    exact h.congr rfl rfl rfl ⟨rfl, rfl⟩ (fun _ _ => rfl) (fun _ _ => ⟨rfl, rfl, rfl⟩) (by simp [at4])
  | clear at5 =>
    refine h.ofHandler (eachCol clearLine s) (by rw [eachCol_clear_frame]) fun n hn => ?_
    rw [eachCol_clear_line, if_pos hn]
    exact ⟨rfl, rfl, fun hen => by simpa [at5] using hen⟩
  | enable at6 =>
    refine h.ofHandler (eachCol (enableLine true) s) (by rw [eachCol_enable_frame]) fun n hn => ?_
    rw [eachCol_enable_line, if_pos hn]
    exact ⟨rfl, rfl, fun _ => by simp⟩

/-! ### `KP.INIT` -/

theorem armColumns_same (s : State) :
    (armColumns s).cfg = s.cfg ∧ (armColumns s).rowOut = s.rowOut ∧ (armColumns s).pins = s.pins ∧
    (armColumns s).rbValid = s.rbValid ∧ (armColumns s).rbCap = s.rbCap ∧ (armColumns s).hstep = s.hstep := by
  rw [armColumns_frame]
  exact ⟨rfl, rfl, rfl, rfl, rfl, rfl⟩

/-- What `KP.INIT` with a valid configuration has done before it arms the column lines (42 R140). -/
def readied (s : State) : State :=
  resetScanState (ringInit (s.cfg.nRows * s.cfg.nCols) (driveRows s.cfg.rowRest (bindPins s))).1

theorem bringUp_eq (s : State) : bringUp s = { armColumns (readied s) with active := true } := rfl

theorem readied_same {s : State} (hv : s.cfg.valid = true) :
    (readied s).cfg = s.cfg ∧ (readied s).rowOut = (driveRows s.cfg.rowRest (bindPins s)).rowOut ∧
    (readied s).pins = (bindPins s).pins ∧ (readied s).rbValid = true ∧
    (readied s).rbCap = s.cfg.nRows * s.cfg.nCols := by
  have hc : (driveRows s.cfg.rowRest (bindPins s)).cfg = s.cfg := (driveRows_cfg _ _).trans (bindPins_cfg s)
  have hring := ringInit_valid (s := driveRows s.cfg.rowRest (bindPins s)) (by rw [hc]; exact hv)
  rw [hc] at hring
  rw [readied, hring]
  exact ⟨rfl, rfl, driveRows_pins _ _, rfl, rfl⟩

theorem bringUp_same {s : State} (hv : s.cfg.valid = true) :
    (bringUp s).rowOut = (driveRows s.cfg.rowRest (bindPins s)).rowOut ∧ (bringUp s).pins = (bindPins s).pins ∧
    (bringUp s).rbValid = true ∧ (bringUp s).rbCap = s.cfg.nRows * s.cfg.nCols ∧ (bringUp s).hstep = .h0 := by
  obtain ⟨-, hrow, hpins, hvalid, hcap⟩ := readied_same hv
  obtain ⟨-, hrow', hpins', hvalid', hcap', hstep⟩ := armColumns_same (readied s)
  rw [bringUp_eq]
  exact ⟨hrow'.trans hrow, hpins'.trans hpins, hvalid'.trans hvalid, hcap'.trans hcap, hstep⟩

theorem bringUp_rowOut {s : State} (hv : s.cfg.valid = true) (hrows : s.rowOut.length = s.cfg.nRows) :
    (bringUp s).rowOut = List.replicate s.cfg.nRows s.cfg.rowRest := by
  have hb : (bindPins s).cfg = s.cfg ∧ (bindPins s).rowOut = s.rowOut := by
    rw [bindPins_frame s]
    exact ⟨rfl, rfl⟩
  rw [(bringUp_same hv).1, driveRows_rowOut _ (by rw [hb.1]; exact valid_rows_nodup hv) (by rw [hb.1, hb.2]; exact hrows),
    hb.1]

theorem bringUp_pin {s : State} (hv : s.cfg.valid = true) (j : Fin 256) : (bringUp s).pin j = (bindPins s).pin j := by
  unfold State.pin
  rw [(bringUp_same hv).2.1]

/-- Each row is bound Output/None and each column Input/Up (42 R140). -/
theorem bringUp_bound {s : State} (hv : s.cfg.valid = true) :
    (∀ p ∈ s.cfg.rowPin, (bringUp s).pin p.index = ⟨.output, .noPull⟩) ∧
    (∀ p ∈ s.cfg.colPin, (bringUp s).pin p.index = ⟨.input, .up⟩) := by
  refine ⟨fun p hp => ?_, fun p hp => ?_⟩ <;> rw [bringUp_pin hv, bindPins_pin]
  · rw [if_neg fun hc => valid_col_not_row hv (any_index.mp hc) hp, if_pos (any_index.mpr hp)]
  · rw [if_pos (any_index.mpr hp)]

/-- In the Interrupt variant each column line watches its pin for the falling edge, enabled (42 R140). -/
theorem bringUp_armed {s : State} (hv : s.cfg.valid = true) (hi : s.cfg.variant = .interrupt) {p : PinId}
    (hp : p ∈ s.cfg.colPin) : ((bringUp s).line p.line).port = p.port ∧ ((bringUp s).line p.line).edge = .falling ∧
      ((bringUp s).line p.line).en = true := by
  have hc := (readied_same hv).1
  have hnd := ((valid_iff.mp hv).2.2.2.2.2.2 hi).2
  obtain ⟨u, -, -, -, hline⟩ := (foldl_arm_line s.cfg.colPin (readied s) hnd p.line).1 p hp rfl
  have hb : (bringUp s).line p.line = (s.cfg.colPin.foldl (fun t p => armLine .falling p t) (readied s)).line p.line := by
    show (armColumns (readied s)).line p.line = _
    simp only [armColumns, eachCol, hc, hi]
  rw [hb, hline]
  exact ⟨rfl, rfl, rfl⟩

theorem KeypadOk.bringUp {s : State} (hv : s.cfg.valid = true) (hrows : s.rowOut.length = s.cfg.nRows) :
    KeypadOk (Machine.bringUp s) := by
  have hc : (Machine.bringUp s).cfg = s.cfg := (bringUp_outside s).1.cfg
  have hs : (Machine.bringUp s).hstep = .h0 := (bringUp_same hv).2.2.2.2
  refine ⟨fun _ => ?_, fun _ => ?_, fun _ => ?_, fun _ hi p hp => ?_⟩ <;> rw [hc] at *
  · exact bringUp_rowOut hv hrows
  · exact ⟨(bringUp_same hv).2.2.1, (bringUp_same hv).2.2.2.1⟩
  · exact bringUp_bound hv
  · obtain ⟨hport, hedge, hen⟩ := bringUp_armed hv hi hp
    exact ⟨hport, hedge, by simp [hen, hs]⟩

/-! ### The operations the platform may issue -/

/-- A permitted operation that is no `KP.INIT` leaves the row levels at rest (20_memory R74, 41 R129). -/
theorem permitted_rowOut {i : Instr} {s t : State} (hrun : RunOk s) (h : KeypadOk s) (ha : s.active = true)
    (hk : i ≠ .kpInit) (hp : s.cfg.permits i = true) (e : exec i s = .next t) : t.rowOut = s.rowOut := by
  have undriven : ∀ (b : Bit) (p : PinId), s.cfg.isMatrix p = false → (drivePin b p s).rowOut = s.rowOut := fun b p hm => by
    simp only [Config.isMatrix, Bool.or_eq_false_iff] at hm
    simp [drivePin, hm.1]
  cases i with
  | kpInit => exact absurd rfl hk
  | kpTick =>
    rcases execKpTick_cases e with ⟨r, e⟩ | ⟨-, -, u, hu, e⟩ <;> cases answer_eq_next.mp e
    · rfl
    · rw [tickPhase_frame hu]
      exact scan_keeps_rest hrun h ha
  | ioSet p =>
    cases answer_eq_next.mp e
    exact undriven true p (by simpa [Config.permits] using hp)
  | ioRst p =>
    cases answer_eq_next.mp e
    exact undriven false p (by simpa [Config.permits] using hp)
  | _ => exact (exec_writes e).rowOut rfl

/-- A permitted operation that is no `KP.INIT` configures no row or column pin (20_memory R74). -/
theorem permitted_pin {i : Instr} {s t : State} (hk : i ≠ .kpInit) (hp : s.cfg.permits i = true)
    (e : exec i s = .next t) {p : PinId} (hm : s.cfg.isMatrix p = true) : t.pin p.index = s.pin p.index := by
  cases i with
  | ioCfg q d u =>
    cases answer_eq_next.mp e
    show (configPin q d u s).pin p.index = _
    rw [configPin_pin, if_neg]
    intro hi
    rw [pinIndex_inj hi] at hm
    simp [Config.permits, hm] at hp
  | _ => exact (exec_writes e).pins hk (by simp) _

/-- A permitted operation that is no `KP.INIT` neither arms, enables nor disables a column line (20_memory R74). -/
theorem permitted_line {i : Instr} {s t : State} (hk : i ≠ .kpInit) (hp : s.cfg.permits i = true)
    (e : exec i s = .next t) {n : Fin 16} (hn : s.cfg.isColLine n = true) :
    (t.line n).port = (s.line n).port ∧ (t.line n).edge = (s.line n).edge ∧ (t.line n).en = (s.line n).en := by
  have other : ∀ {p : PinId}, (!s.cfg.isColLine p.line) = true → ¬ n = p.line := fun hq he => by
    rw [← he, hn] at hq
    cases hq
  have unchanged : ∀ {u : State} {r : Resp}, answer (u, r) = .next t → u.line n = s.line n →
      (t.line n).port = (s.line n).port ∧ (t.line n).edge = (s.line n).edge ∧ (t.line n).en = (s.line n).en := by
    intro u r ha hu
    cases answer_eq_next.mp ha
    rw [← hu]
    exact ⟨rfl, rfl, rfl⟩
  cases i with
  | kpInit => exact absurd rfl hk
  | ilArmf p => exact unchanged e (by rw [armLine_line, if_neg (other hp)])
  | ilArmr p => exact unchanged e (by rw [armLine_line, if_neg (other hp)])
  | ilDis p => exact unchanged e (by rw [enableLine_line, if_neg (other hp)])
  | ilEn p => exact unchanged e (by rw [enableLine_line, if_neg (other hp)])
  | _ =>
    have w := exec_writes e
    exact ⟨(w.bound rfl n).1, (w.bound rfl n).2, w.enable rfl (by simp) (by simp) n⟩

theorem KeypadOk.answer {s t : State} {r : Resp} (h : KeypadOk s) (e : Machine.answer (s, r) = .next t) : KeypadOk t := by
  cases answer_eq_next.mp e
  exact h.congr rfl rfl rfl ⟨rfl, rfl⟩ (fun _ _ => rfl) (fun _ _ => ⟨rfl, rfl, rfl⟩) Iff.rfl

/-- An operation between handlers leaves `hstep` at 0 or enters the handler (43 R160). -/
theorem exec_hstep {i : Instr} {s t : State} (idle : s.hstep = .h0) (hk : i ≠ .kpInit) (e : exec i s = .next t) :
    t.hstep = .h0 ∨ t.hstep = .h1 := by
  cases i with
  | kpIrq v =>
    rcases execKpIrq_cases e with ⟨r, e⟩ | ⟨-, e⟩ | ⟨-, -, -, rfl⟩
    · cases answer_eq_next.mp e
      exact .inl idle
    · cases answer_eq_next.mp e
      exact .inl idle
    · exact .inr rfl
  | _ => exact .inl (((exec_writes e).handler hk (by simp)).2.trans idle)

theorem KeypadOk.kpInit {s t : State} (hrun : RunOk s) (h : KeypadOk s) (e : Machine.exec .kpInit s = .next t) :
    KeypadOk t := by
  rcases execKpInit_cases e with ⟨-, ha⟩ | ⟨-, hv, ha⟩ | ⟨-, -, ha⟩
  · exact h.answer ha
  · exact (KeypadOk.bringUp (s := { s with inited := true }) hv hrun.rows).answer ha
  · exact (KeypadOk.of_inactive rfl).answer ha

/-- An operation that the platform may issue keeps the keypad's invariants (20_memory R74, 70 R264). -/
theorem KeypadOk.exec {i : Instr} {s t : State} (hrun : RunOk s) (h : KeypadOk s) (idle : s.hstep = .h0)
    (owned : s.active = true → s.cfg.permits i = true) (e : Machine.exec i s = .next t) : KeypadOk t := by
  by_cases hk : i = .kpInit
  · subst hk
    exact h.kpInit hrun e
  have w := exec_writes e
  have hsame := (w.control hk).1
  cases ha : s.active with
  | false => exact .of_inactive (hsame.trans ha)
  | true =>
    have hp := owned ha
    have hring := w.ring hk fun c hc => by subst hc; cases hp
    exact h.congr hsame w.outside.cfg (permitted_rowOut hrun h ha hk hp e) hring (fun p hm => permitted_pin hk hp e hm)
      (fun n hn => permitted_line hk hp e hn) (by simp [idle, exec_hstep idle hk e])

/-- Settles O60, move by move. -/
theorem stepKeepsKeypad : Obligations.StepKeepsKeypad := by
  intro s t hrun h howned e
  cases step_move e with
  | port hm => exact h.port hm
  | env v => exact (h.port (t := { s with sched := s.sched.tail }) ⟨rfl, .inl rfl, .inl rfl⟩).envStep v
  | micro hm _ taken => exact (h.port hm).micro (hrun.port hm) taken
  | delayOver hm waited _ hh => exact (h.port hm).micro (hrun.port hm) (hrun.delayOver hm waited hh)
  | exec hm _ idle issuing ex =>
    obtain ⟨hc, -, -, ha, -⟩ := hm.same
    exact (h.port hm).exec (hrun.port hm) idle (fun hact => by rw [hc]; exact howned (ha ▸ hact) _ issuing) ex

end Machine
end Sys2Proof
end

section
/-! PROOFS. The port: which word a step takes, and which words it leaves (O5, O7, O8). -/

namespace Sys2Proof
namespace Machine

/-! ## What one step makes of the port's queues -/

/-- Every word that was ready is still ready, in its place; words may have become ready behind it. -/
structure WordsKept (s t : State) : Prop where
  producer : ∃ l, t.producer = s.producer ++ l
  consumer : ∃ l, t.consumer = s.consumer ++ l

theorem WordsKept.of_eq {s t : State} (hp : t.producer = s.producer) (hc : t.consumer = s.consumer) : WordsKept s t :=
  ⟨⟨[], by rw [hp, List.append_nil]⟩, ⟨[], by rw [hc, List.append_nil]⟩⟩

theorem makeReady_words (c : Context) (w : CmdWord) (s : State) : WordsKept s (makeReady c w s) := by
  cases c with
  | producer => exact ⟨⟨[w], rfl⟩, ⟨[], (List.append_nil _).symm⟩⟩
  | consumer => exact ⟨⟨[], (List.append_nil _).symm⟩, ⟨[w], rfl⟩⟩

/-- The arbiter leaves the port alone or makes one more word ready (45 R195). -/
theorem serve_words (s : State) : WordsKept s (serve s) := by
  unfold serve
  split
  · obtain ⟨hp, hc⟩ := makeReady_words .producer _ { s with draws := s.draws + 1 }
    exact ⟨hp, hc⟩
  · exact .of_eq rfl rfl

theorem envStep_words (v : EnvStep) (s : State) : WordsKept s (envStep v s) := by
  rcases envStep_cases v s with e | ⟨l, e, -⟩ | ⟨d, e⟩ <;> rw [e] <;> exact .of_eq rfl rfl

theorem endDelay_words {s t : State} (e : endDelay s = .next t) : WordsKept s t := by
  rcases endDelay_cases e with ⟨-, rfl⟩ | rfl <;> exact .of_eq rfl rfl

theorem MicroMove.words {s t : State} (m : MicroMove s t) : WordsKept s t := by
  rw [m.frame]
  exact .of_eq rfl rfl

theorem idleMove_words {s t : State} (e : idleMove s = .next t) : WordsKept s t := by
  rcases idleMove_cases s with em | ⟨d, -, -, em⟩ <;> rw [em] at e <;> cases e <;> exact .of_eq rfl rfl

/-- Running a word neither takes another word nor makes one ready. -/
theorem runWord_queues {w : CmdWord} {s t : State} (e : runWord w s = .next t) :
    t.producer = s.producer ∧ t.consumer = s.consumer := by
  rcases runWord_cases e with ⟨i, -, ex⟩ | ⟨-, ha⟩
  · exact ⟨(exec_writes ex).outside.producer, (exec_writes ex).outside.consumer⟩
  · cases answer_eq_next.mp ha
    exact ⟨rfl, rfl⟩

/-- The step has taken one word, with no producer operation in progress: the first of the producer's, or else the first of the main loop's, which then
waits in no delay (20_memory R69, 45 R194, 46 R217). -/
structure WordTaken (s t : State) : Prop where
  free : s.delay = none
  idle : s.hstep = .h0
  word : ∃ w, (s.producer = w :: t.producer ∧ t.consumer = s.consumer) ∨
    (s.producer = [] ∧ t.producer = [] ∧ s.mainDelay = none ∧ s.consumer = w :: t.consumer)

/-- KDB's move takes a word or leaves the queues as they are. -/
theorem kdbMove_words {s t : State} (e : kdbMove s = .next t) : WordsKept s t ∨ WordTaken s t := by
  rcases kdbMove_cases s with ⟨d, -, -, em⟩ | ⟨d, -, -, em⟩ | ⟨-, hh, em⟩ | ⟨hd, hh, w, u, hf, em⟩ | ⟨-, -, -, em⟩ <;>
    rw [em] at e
  · cases e
    exact .inl (.of_eq rfl rfl)
  · exact .inl (endDelay_words e)
  · exact .inl (microStep_move hh e).words
  · obtain ⟨hp, hc⟩ := runWord_queues e
    refine .inr ⟨hd, hh, w, ?_⟩
    rcases fetch_eq_some.mp hf with ⟨ws, hw, rfl⟩ | ⟨hnone, hmain, ws, hw, rfl⟩
    · exact .inl ⟨by rw [hw, hp], hc⟩
    · exact .inr ⟨hnone, hp.trans hnone, hmain, by rw [hw, hc]⟩
  · exact .inl (idleMove_words e)

/-- A step takes one word or keeps every word (20_memory R68). -/
theorem step_words {s t : State} (e : step s = .next t) : WordsKept s t ∨ WordTaken s t := by
  rcases step_cases s with ⟨-, em⟩ | ⟨v, ms, -, em⟩ | ⟨c, w, ms, -, em⟩ | ⟨ms, -, em⟩ <;> rw [em] at e
  · rcases kdbMove_words e with h | h
    · exact .inl ⟨h.producer, h.consumer⟩
    · exact .inr ⟨h.free, h.idle, h.word⟩
  · cases e
    obtain ⟨hp, hc⟩ := envStep_words v { s with sched := ms }
    exact .inl ⟨hp, hc⟩
  · cases e
    obtain ⟨hp, hc⟩ := makeReady_words c w { s with sched := ms }
    exact .inl ⟨hp, hc⟩
  · cases e
    obtain ⟨hp, hc⟩ := serve_words { s with sched := ms }
    exact .inl ⟨hp, hc⟩

/-- While the main loop waits in a delay, a step that takes a word takes a producer's (46 R217). -/
theorem WordTaken.consumer_of_waiting {s t : State} (h : WordTaken s t) (waiting : s.mainDelay ≠ none) :
    t.consumer = s.consumer := by
  obtain ⟨w, ⟨-, hc⟩ | ⟨-, -, hmain, -⟩⟩ := h.word
  · exact hc
  · exact absurd hmain waiting

/-- Settles O8: a word is taken only with no producer operation in progress, and a consumer's only if the main loop waits in no delay. -/
theorem busyPortTakesNoWord : Obligations.BusyPortTakesNoWord := by
  intro s t e
  rcases step_words e with kept | taken
  · exact ⟨fun _ => ⟨kept.producer, kept.consumer⟩, fun _ => kept.consumer⟩
  · refine ⟨fun busy => ?_, fun waiting => ⟨[], ?_⟩⟩
    · rcases busy with hh | hd
      · exact absurd taken.idle hh
      · exact absurd taken.free hd
    · rw [taken.consumer_of_waiting waiting, List.append_nil]

/-! ## The word that a step runs -/

theorem kdbMove_of_fetch {s t : State} {w : CmdWord} (hd : s.delay = none) (hh : s.hstep = .h0)
    (hf : s.fetch = some (w, t)) : kdbMove s = runWord w t := by
  have hi : s.inHandler = false := by simp [State.inHandler, hh]
  simp [kdbMove, hd, hi, hf]

/-- A free KDB that moves runs the word it takes (20_memory R69). -/
theorem step_of_fetch {s t : State} {w : CmdWord} (hk : s.kdbMoves = true) (hd : s.delay = none) (hh : s.hstep = .h0)
    (hf : ({ s with sched := s.sched.tail } : State).fetch = some (w, t)) : step s = runWord w t :=
  (step_of_kdbMoves hk).trans (kdbMove_of_fetch hd hh hf)

theorem runWord_of_decode {w : CmdWord} {i : Instr} (h : decode w = some i) (s : State) : runWord w s = exec i s := by
  simp [runWord, h]

/-- Settles O5: the word is the one that `fetch` gives, and a word made ready goes to the end of its queue. -/
theorem stepRunsDecodedInstruction : Obligations.StepRunsDecodedInstruction := by
  refine ⟨fun s w hk hd hh => ⟨fun ws hp => ?_, fun ws hp hm hc => ?_⟩,
    fun s w ms => ⟨fun hs => step_of_sched hs, fun hs => step_of_sched hs⟩⟩
  · have hrun := step_of_fetch hk hd hh (fetch_eq_some.mpr (.inl ⟨ws, hp, rfl⟩))
    exact ⟨hrun, fun i hi => hrun.trans (runWord_of_decode hi _)⟩
  · have hrun := step_of_fetch hk hd hh (fetch_eq_some.mpr (.inr ⟨hp, hm, ws, hc, rfl⟩))
    exact ⟨hrun, fun i hi => hrun.trans (runWord_of_decode hi _)⟩

/-! ## A placed word -/

/-- With bit 11 of the word 0, unit IO reads format G (30_encoding R80). -/
theorem decodeIo_formatG {w : CmdWord} (h : (fnField w).toNat < 8) : decodeIo w = decodeCfg w := by
  unfold decodeIo
  split
  case h_5 => rw [if_pos h]
  all_goals omega

theorem decodeIo_assemble_cfg (u : BitVec 4) (p : PinId) (d : Dir) (q : Pull) :
    decodeIo (assemble u (cfgFn d q) p.byte) = .ok (.ioCfg p d q) := by
  rw [decodeIo_formatG (by rw [fnField_assemble]; exact cfgFn_lt d q), decodeCfg, pullBits_eq, dirBit_eq, fnField_assemble,
    cfgFn_pull, cfgFn_dir, pinField_assemble]

theorem decodeIrq_assemble {v : BitVec 4} (u f : BitVec 4) (h : v.toNat ≤ 6) :
    decodeIrq (assemble u f (0#4 ++ v)) = .ok (.kpIrq v) := by
  have hfields : (0#4 ++ v : Byte) = PinId.byte ⟨0#4, v⟩ := rfl
  have hpin := pinField_assemble u f ⟨0#4, v⟩
  simp only [pinField, PinId.mk.injEq] at hpin
  obtain ⟨hhi, hlo⟩ := hpin
  simp [decodeIrq, hfields, hhi, hlo, h]

/-- The word of a well-formed instruction decodes to it, unit by unit (30_encoding R84). -/
theorem decode_encode {i : Instr} (h : i.wf = true) : decode (encode i) = some i := by
  cases i with
  | ioCfg p d q => simp [decode, encode, decodeWord_assemble, decodeIo_assemble_cfg, Except.toOption]
  | kpIrq v =>
    have hv : v.toNat ≤ 6 := of_decide_eq_true h
    simp [decode, encode, decodeWord_assemble, decodeKp, fnField_assemble, decodeIrq_assemble _ _ hv, Except.toOption]
  | rbInit | rbWr | rbRd | rbCnt | rbFlush =>
    simp [decode, encode, decodeWord_assemble, decodeRb, noOperand, fnField_assemble, immField_assemble, Except.toOption]
  | kpInit | kpTick | kpRdkey =>
    simp [decode, encode, decodeWord_assemble, decodeKp, noOperand, fnField_assemble, immField_assemble, Except.toOption]
  | ilArmf | ilArmr | ilDis | ilEn | ilClr =>
    simp [decode, encode, decodeWord_assemble, decodeIl, fnField_assemble, pinField_assemble, Except.toOption]
  | ioSet | ioRst | ioRd =>
    simp [decode, encode, decodeWord_assemble, decodeIo, fnField_assemble, pinField_assemble, Except.toOption]
  | tmNow | tmDelay =>
    simp [decode, encode, decodeWord_assemble, decodeTm, noOperand, fnField_assemble, immField_assemble, Except.toOption]

/-- The schedule lets KDB move next, and then goes on as before. -/
theorem placeWord_sched (w : CmdWord) (s : State) :
    (placeWord w s).kdbMoves = true ∧ (placeWord w s).sched.tail = s.sched := by
  unfold State.kdbMoves placeWord
  cases s.sched with
  | nil => exact ⟨rfl, rfl⟩
  | cons m ms => exact ⟨rfl, rfl⟩

/-- KDB fetches a placed word in its next step, whatever was in progress (log entry 3). -/
theorem step_placeWord (w : CmdWord) (s : State) :
    step (placeWord w s) = runWord w { s with delay := none, hstep := .h0, issuer := .producer } := by
  obtain ⟨hk, hs⟩ := placeWord_sched w s
  refine step_of_fetch hk rfl rfl ?_
  rw [hs]
  exact fetch_eq_some.mpr (.inl ⟨s.producer, rfl, rfl⟩)

/-- Settles O7: the placed word is fetched as the producer's, and decodes to the instruction. -/
theorem placedWordRunsNext : Obligations.PlacedWordRunsNext := by
  intro s i hi
  have hw : BitVec.ofNat 16 ((encode i).toNat % 2 ^ 16) = encode i := by
    rw [Nat.mod_eq_of_lt (encode i).isLt, BitVec.ofNat_toNat, BitVec.setWidth_eq]
  rw [State.withFetchWord, hw, step_placeWord, runWord_of_decode (decode_encode hi)]

end Machine
end Sys2Proof
end

section
/-! PROOFS. The decoder inverts the encoder and follows the opcode table (O1, O2). -/

namespace Sys2Proof

/-! ## From an instruction to its word and back -/

/-- Settles O1: each unit's decoder reads back the fields the encoder assembled. -/
theorem decodeEncodeRoundTrip : Obligations.DecodeEncodeRoundTrip := fun _ h => Machine.decode_encode h

/-! ## A word and its fields -/

theorem word_ext {v w : CmdWord} (hu : unitField v = unitField w) (hf : fnField v = fnField w) (ha : immField v = immField w) :
    v = w := by
  rw [← assemble_fields v, hu, hf, ha, assemble_fields]

/-- A word is assembled from the numbers of its unit and function and from its operand byte (30_encoding R80). -/
theorem assemble_of_toNat {w : CmdWord} {u f : Nat} (hu : (unitField w).toNat = u) (hf : (fnField w).toNat = f) :
    assemble (BitVec.ofNat 4 u) (BitVec.ofNat 4 f) (immField w) = w := by
  rw [← hu, ← hf, BitVec.ofNat_toNat, BitVec.ofNat_toNat, BitVec.setWidth_eq, BitVec.setWidth_eq, assemble_fields]

@[simp] theorem unitField_and (v w : CmdWord) : unitField (v &&& w) = unitField v &&& unitField w := BitVec.extractLsb'_and
@[simp] theorem fnField_and (v w : CmdWord) : fnField (v &&& w) = fnField v &&& fnField w := BitVec.extractLsb'_and
@[simp] theorem immField_and (v w : CmdWord) : immField (v &&& w) = immField v &&& immField w := BitVec.extractLsb'_and

/-- The operand byte is its two halves (30_encoding R82). -/
theorem hiField_append_loField (w : CmdWord) : hiField w ++ loField w = immField w := by
  rw [hiField_eq, loField_eq]
  exact BitVec.extractLsb'_append_extractLsb'

theorem pinField_byte (w : CmdWord) : (pinField w).byte = immField w := hiField_append_loField w

/-! ## From a decoded word to its instruction -/

/-- The word is that of the well-formed instruction. -/
def IsWordOf (w : CmdWord) (i : Instr) : Prop := encode i = w ∧ i.wf = true

theorem noOperand_eq_ok {w : CmdWord} {i j : Instr} : noOperand w i = .ok j ↔ immField w = 0 ∧ i = j := by
  unfold noOperand
  split <;> rename_i ha
  · simp [ha]
  · exact iff_of_false nofun fun h => ha h.1

/-- Format B: the operand byte is the operand (30_encoding R80). -/
theorem IsWordOf.ofByte {w : CmdWord} {u f : Nat} {i : Instr} (hu : (unitField w).toNat = u) (hf : (fnField w).toNat = f)
    (he : encode i = assemble (BitVec.ofNat 4 u) (BitVec.ofNat 4 f) (immField w)) (hi : i.wf = true) : IsWordOf w i :=
  ⟨he.trans (assemble_of_toNat hu hf), hi⟩

/-- Format N: the operand byte is 0 (30_encoding R80). -/
theorem IsWordOf.noOperand {w : CmdWord} {u f : Nat} {i j : Instr} (hu : (unitField w).toNat = u) (hf : (fnField w).toNat = f)
    (he : encode i = assemble (BitVec.ofNat 4 u) (BitVec.ofNat 4 f) 0) (hi : i.wf = true) (h : Sys2Proof.noOperand w i = .ok j) :
    IsWordOf w j := by
  obtain ⟨ha, rfl⟩ := noOperand_eq_ok.mp h
  exact .ofByte hu hf (by rw [he, ha]) hi

/-- Format P: the operand byte is a pin's (30_encoding R80, R82). -/
theorem IsWordOf.pin {w : CmdWord} {u f : Nat} {i : Instr} (hu : (unitField w).toNat = u) (hf : (fnField w).toNat = f)
    (he : encode i = assemble (BitVec.ofNat 4 u) (BitVec.ofNat 4 f) (pinField w).byte) (hi : i.wf = true) : IsWordOf w i :=
  .ofByte hu hf (by rw [he, pinField_byte]) hi

theorem decodeRb_isWordOf {w : CmdWord} {i : Instr} (hu : (unitField w).toNat = 1) (h : decodeRb w = .ok i) : IsWordOf w i := by
  unfold decodeRb at h
  split at h <;> rename_i hf
  · cases h
    exact .ofByte hu hf rfl rfl
  · cases h
    exact .ofByte hu hf rfl rfl
  · exact .noOperand hu hf rfl rfl h
  · exact .noOperand hu hf rfl rfl h
  · exact .noOperand hu hf rfl rfl h
  · cases h

/-- Format V: the high half of the operand byte is 0 and the vector at most 6 (30_encoding R80). -/
theorem IsWordOf.kpIrq {w : CmdWord} (hu : (unitField w).toNat = 2) (hf : (fnField w).toNat = 2) (hhi : hiField w = 0)
    (hv : (loField w).toNat ≤ 6) : IsWordOf w (.kpIrq (loField w)) := by
  refine .ofByte hu hf ?_ (decide_eq_true hv)
  rw [← hiField_append_loField, hhi]
  rfl

theorem decodeIrq_isWordOf {w : CmdWord} {i : Instr} (hu : (unitField w).toNat = 2) (hf : (fnField w).toNat = 2)
    (h : decodeIrq w = .ok i) : IsWordOf w i := by
  unfold decodeIrq at h
  split_ifs at h with hhi hv
  cases h
  exact .kpIrq hu hf (not_not.mp hhi) hv

theorem decodeKp_isWordOf {w : CmdWord} {i : Instr} (hu : (unitField w).toNat = 2) (h : decodeKp w = .ok i) : IsWordOf w i := by
  unfold decodeKp at h
  split at h <;> rename_i hf
  · exact .noOperand hu hf rfl rfl h
  · exact .noOperand hu hf rfl rfl h
  · exact decodeIrq_isWordOf hu hf h
  · exact .noOperand hu hf rfl rfl h
  · cases h

theorem decodeIl_isWordOf {w : CmdWord} {i : Instr} (hu : (unitField w).toNat = 3) (h : decodeIl w = .ok i) : IsWordOf w i := by
  unfold decodeIl at h
  split at h <;> rename_i hf <;> cases h <;> exact .pin hu hf rfl rfl

@[simp] theorem ofBits_bits (q : Pull) : Pull.ofBits q.bits = some q := by
  cases q <;> rfl

theorem bits_ne_three (q : Pull) : q.bits ≠ 3 := by
  cases q <;> decide

theorem bits_of_ofBits {b : BitVec 2} {q : Pull} (h : Pull.ofBits b = some q) : b = q.bits := by
  unfold Pull.ofBits at h
  split_ifs at h with h0 h1 h2 <;> cases h
  · exact h0
  · exact h1
  · exact h2

theorem pull_of_ne_three {b : BitVec 2} (h : b ≠ 3) : ∃ q : Pull, b = q.bits := by
  have pulls : ∀ b : BitVec 2, b ≠ 3 → b = Pull.noPull.bits ∨ b = Pull.up.bits ∨ b = Pull.down.bits := by decide
  rcases pulls b h with e | e | e <;> exact ⟨_, e⟩

/-- With bit 11 of the word 0, its function field is that of `IO.CFG` with the operands it holds (30_encoding R80 format G). -/
theorem cfgFn_of_bits {f : BitVec 4} {q : Pull} (hf : f.toNat < 8) (hq : f.extractLsb' 0 2 = q.bits) :
    cfgFn (Dir.ofBit (f.getLsbD 2)) q = f := by
  have bits : ∀ f : BitVec 4, f.toNat < 8 →
      0#1 ++ BitVec.ofBool (Dir.ofBit (f.getLsbD 2)).bit ++ f.extractLsb' 0 2 = f := by decide
  rw [cfgFn, ← hq, bits f hf]

/-- Format G: the function field holds the direction and a pull that is not reserved (30_encoding R80). -/
theorem IsWordOf.ioCfg {w : CmdWord} {q : Pull} (hu : (unitField w).toNat = 4) (hf : (fnField w).toNat < 8)
    (hq : w.extractLsb' 8 2 = q.bits) : IsWordOf w (.ioCfg (pinField w) (Dir.ofBit (w.getLsbD 10)) q) := by
  refine .pin hu rfl ?_ rfl
  rw [pullBits_eq] at hq
  rw [BitVec.ofNat_toNat, BitVec.setWidth_eq, encode, dirBit_eq, cfgFn_of_bits hf hq]
  rfl

theorem decodeCfg_isWordOf {w : CmdWord} {i : Instr} (hu : (unitField w).toNat = 4) (hf : (fnField w).toNat < 8)
    (h : decodeCfg w = .ok i) : IsWordOf w i := by
  unfold decodeCfg at h
  split at h <;> cases h
  exact .ioCfg hu hf (bits_of_ofBits ‹_›)

theorem decodeIo_isWordOf {w : CmdWord} {i : Instr} (hu : (unitField w).toNat = 4) (h : decodeIo w = .ok i) : IsWordOf w i := by
  unfold decodeIo at h
  split at h <;> rename_i hf
  · cases h
    exact .pin hu hf rfl rfl
  · cases h
    exact .pin hu hf rfl rfl
  · cases h
    exact .pin hu hf rfl rfl
  · cases h
  · split at h
    · exact decodeCfg_isWordOf hu ‹_› h
    · cases h

theorem decodeTm_isWordOf {w : CmdWord} {i : Instr} (hu : (unitField w).toNat = 5) (h : decodeTm w = .ok i) : IsWordOf w i := by
  unfold decodeTm at h
  split at h <;> rename_i hf
  · exact .noOperand hu hf rfl rfl h
  · cases h
    exact .ofByte hu hf rfl rfl
  · cases h

theorem decodeWord_of_decode {w : CmdWord} {i : Instr} (h : decode w = some i) : decodeWord w = .ok i := by
  unfold decode at h
  cases hd : decodeWord w <;> rw [hd] at h <;> cases h
  rfl

/-- A word that decodes is the word of a well-formed instruction, the one it decodes to (30_encoding R84). -/
theorem decode_isWordOf {w : CmdWord} {i : Instr} (h : decode w = some i) : IsWordOf w i := by
  have hw := decodeWord_of_decode h
  unfold decodeWord at hw
  split at hw <;> rename_i hu
  · exact decodeRb_isWordOf hu hw
  · exact decodeKp_isWordOf hu hw
  · exact decodeIl_isWordOf hu hw
  · exact decodeIo_isWordOf hu hw
  · exact decodeTm_isWordOf hu hw
  · cases hw

theorem decode_eq_some {w : CmdWord} {i : Instr} : decode w = some i ↔ IsWordOf w i :=
  ⟨decode_isWordOf, fun ⟨he, hi⟩ => he ▸ Machine.decode_encode hi⟩

/-! ## The opcode table -/

/-- A mask and match select a word field by field. -/
theorem masked_eq {w mask m : CmdWord} : w &&& mask = m ↔
    unitField w &&& unitField mask = unitField m ∧ fnField w &&& fnField mask = fnField m ∧
    immField w &&& immField mask = immField m := by
  constructor
  · rintro rfl
    exact ⟨(unitField_and _ _).symm, (fnField_and _ _).symm, (immField_and _ _).symm⟩
  · rintro ⟨hu, hf, ha⟩
    exact word_ext (by rw [unitField_and, hu]) (by rw [fnField_and, hf]) (by rw [immField_and, ha])

/-- A row of format N selects one word (30_encoding R80). -/
theorem selects_one {name : String} {m w : CmdWord} : (OpRow.mk name m 0xFFFF .anyOperand).selects w = true ↔ w = m := by
  have hw : w &&& 0xFFFF#16 = w := BitVec.and_allOnes
  simp [OpRow.selects, OperandRule.holds, hw]

/-- A row of format B or P selects by unit and function (30_encoding R80). -/
theorem selects_byte {name : String} {m w : CmdWord} (hm : immField m = 0) :
    (OpRow.mk name m 0xFF00 .anyOperand).selects w = true ↔ unitField w = unitField m ∧ fnField w = fnField m := by
  have hu : unitField w &&& unitField 0xFF00 = unitField w := BitVec.and_allOnes
  have hf : fnField w &&& fnField 0xFF00 = fnField w := BitVec.and_allOnes
  have ha : immField w &&& immField 0xFF00 = immField m := BitVec.and_zero.trans hm.symm
  simp only [OpRow.selects, OperandRule.holds, Bool.and_true, decide_eq_true_eq, masked_eq, hu, hf, ha, and_true]

/-- The row of format V selects the words of `KP.IRQ` with a vector up to 6 (30_encoding R80). -/
theorem selects_vector {name : String} {w : CmdWord} :
    (OpRow.mk name 0x2200 0xFFF0 .vectorAtMost6).selects w = true ↔
      (unitField w = 2 ∧ fnField w = 2 ∧ hiField w = 0) ∧ (loField w).toNat ≤ 6 := by
  have hu : unitField w &&& unitField 0xFFF0 = unitField w := BitVec.and_allOnes
  have hf : fnField w &&& fnField 0xFFF0 = fnField w := BitVec.and_allOnes
  have high : ∀ a : Byte, a &&& 0xF0 = 0 ↔ a.extractLsb' 4 4 = 0 := by decide
  have ha : immField w &&& immField 0xFFF0 = immField 0x2200 ↔ hiField w = 0 := by
    rw [hiField_eq]
    exact high _
  simp only [OpRow.selects, OperandRule.holds, Bool.and_eq_true, decide_eq_true_eq, masked_eq, hu, hf, ha]
  rfl

/-- The row of format G selects the words of `IO.CFG` with a pull that is not reserved (30_encoding R80). -/
theorem selects_cfg {name : String} {w : CmdWord} :
    (OpRow.mk name 0x4000 0xF800 .pullNot3).selects w = true ↔
      (unitField w = 4 ∧ (fnField w).toNat < 8) ∧ w.extractLsb' 8 2 ≠ 3 := by
  have hu : unitField w &&& unitField 0xF800 = unitField w := BitVec.and_allOnes
  have below : ∀ f : BitVec 4, f &&& 8 = 0 ↔ f.toNat < 8 := by decide
  have hf : fnField w &&& fnField 0xF800 = fnField 0x4000 ↔ (fnField w).toNat < 8 := below _
  have ha : immField w &&& immField 0xF800 = immField 0x4000 := BitVec.and_zero
  simp only [OpRow.selects, OperandRule.holds, Bool.and_eq_true, decide_eq_true_eq, masked_eq, hu, hf, ha, and_true]
  rfl

/-- The word is that of a well-formed instruction of the row. -/
def OpRow.Has (r : OpRow) (w : CmdWord) : Prop := ∃ i, IsWordOf w i ∧ i.mnemonic = r.mnemonic

theorem has_one {name : String} {m w : CmdWord} (i : Instr) (hi : IsWordOf m i) (hn : i.mnemonic = name)
    (h : (OpRow.mk name m 0xFFFF .anyOperand).selects w = true) : OpRow.Has (.mk name m 0xFFFF .anyOperand) w :=
  ⟨i, selects_one.mp h ▸ hi, hn⟩

theorem has_byte {name : String} {m w : CmdWord} (i : Instr) (he : encode i = assemble (unitField m) (fnField m) (immField w))
    (hi : i.wf = true) (hn : i.mnemonic = name) (hm : immField m = 0)
    (h : (OpRow.mk name m 0xFF00 .anyOperand).selects w = true) : OpRow.Has (.mk name m 0xFF00 .anyOperand) w := by
  obtain ⟨hu, hf⟩ := (selects_byte hm).mp h
  exact ⟨i, ⟨by rw [he, ← hu, ← hf, assemble_fields], hi⟩, hn⟩

theorem has_pin {name : String} {m w : CmdWord} (i : Instr) (he : encode i = assemble (unitField m) (fnField m) (pinField w).byte)
    (hi : i.wf = true) (hn : i.mnemonic = name) (hm : immField m = 0)
    (h : (OpRow.mk name m 0xFF00 .anyOperand).selects w = true) : OpRow.Has (.mk name m 0xFF00 .anyOperand) w :=
  has_byte i (by rw [he, pinField_byte]) hi hn hm h

theorem has_vector {name : String} {w : CmdWord} (hn : "KP.IRQ" = name)
    (h : (OpRow.mk name 0x2200 0xFFF0 .vectorAtMost6).selects w = true) : OpRow.Has (.mk name 0x2200 0xFFF0 .vectorAtMost6) w := by
  obtain ⟨⟨hu, hf, hhi⟩, hv⟩ := selects_vector.mp h
  exact ⟨_, .kpIrq (by rw [hu]; rfl) (by rw [hf]; rfl) hhi hv, hn⟩

theorem has_cfg {name : String} {w : CmdWord} (hn : "IO.CFG" = name)
    (h : (OpRow.mk name 0x4000 0xF800 .pullNot3).selects w = true) : OpRow.Has (.mk name 0x4000 0xF800 .pullNot3) w := by
  obtain ⟨⟨hu, hf⟩, hq⟩ := selects_cfg.mp h
  obtain ⟨q, hq⟩ := pull_of_ne_three hq
  exact ⟨_, .ioCfg (by rw [hu]; rfl) hf hq, hn⟩

/-- A word that a row selects is that of an instruction of the row: the rows in the table's order (30_encoding R84). -/
theorem has_of_selects {w : CmdWord} : ∀ r ∈ opRows, r.selects w = true → r.Has w := by
  simp only [opRows, opRowsRbKp, opRowsIlIoTm, List.cons_append, List.nil_append, List.forall_mem_cons]
  exact ⟨has_byte (.rbInit (immField w)) rfl rfl rfl rfl, has_byte (.rbWr (immField w)) rfl rfl rfl rfl,
    has_one .rbRd ⟨rfl, rfl⟩ rfl, has_one .rbCnt ⟨rfl, rfl⟩ rfl, has_one .rbFlush ⟨rfl, rfl⟩ rfl,
    has_one .kpInit ⟨rfl, rfl⟩ rfl, has_one .kpTick ⟨rfl, rfl⟩ rfl, has_vector rfl, has_one .kpRdkey ⟨rfl, rfl⟩ rfl,
    has_pin (.ilArmf (pinField w)) rfl rfl rfl rfl, has_pin (.ilArmr (pinField w)) rfl rfl rfl rfl,
    has_pin (.ilDis (pinField w)) rfl rfl rfl rfl, has_pin (.ilEn (pinField w)) rfl rfl rfl rfl,
    has_pin (.ilClr (pinField w)) rfl rfl rfl rfl, has_cfg rfl, has_pin (.ioSet (pinField w)) rfl rfl rfl rfl,
    has_pin (.ioRst (pinField w)) rfl rfl rfl rfl, has_pin (.ioRd (pinField w)) rfl rfl rfl rfl,
    has_one .tmNow ⟨rfl, rfl⟩ rfl, has_byte (.tmDelay (immField w)) rfl rfl rfl rfl, List.forall_mem_nil _⟩

theorem selects_assemble {name : String} {m : CmdWord} {a : Byte} (hm : immField m = 0) :
    (OpRow.mk name m 0xFF00 .anyOperand).selects (assemble (unitField m) (fnField m) a) = true :=
  (selects_byte hm).mpr ⟨unitField_assemble _ _ _, fnField_assemble _ _ _⟩

theorem selects_encode_kpIrq {name : String} {v : BitVec 4} (h : (Instr.kpIrq v).wf = true) :
    (OpRow.mk name 0x2200 0xFFF0 .vectorAtMost6).selects (encode (.kpIrq v)) = true := by
  have hpin : pinField (encode (.kpIrq v)) = ⟨0#4, v⟩ := pinField_assemble 2 2 ⟨0#4, v⟩
  refine selects_vector.mpr ⟨⟨unitField_assemble _ _ _, fnField_assemble _ _ _, congrArg PinId.port hpin⟩, ?_⟩
  rw [show loField (encode (.kpIrq v)) = v from congrArg PinId.num hpin]
  exact of_decide_eq_true h

theorem selects_encode_ioCfg {name : String} (p : PinId) (d : Dir) (q : Pull) :
    (OpRow.mk name 0x4000 0xF800 .pullNot3).selects (encode (.ioCfg p d q)) = true := by
  have hf : fnField (encode (.ioCfg p d q)) = cfgFn d q := fnField_assemble _ _ _
  rw [selects_cfg, pullBits_eq, hf, bits_of_ofBits (cfgFn_pull d q)]
  exact ⟨⟨unitField_assemble _ _ _, cfgFn_lt d q⟩, bits_ne_three q⟩

/-- The word of a well-formed instruction is selected by the row of its mnemonic (30_encoding R84). -/
theorem exists_row_selects {i : Instr} (h : i.wf = true) : ∃ r ∈ opRows, r.mnemonic = i.mnemonic ∧ r.selects (encode i) = true := by
  cases i with
  | rbRd | rbCnt | rbFlush | kpInit | kpTick | kpRdkey | tmNow => decide
  | rbInit => exact ⟨opRows[0], List.getElem_mem _, rfl, selects_assemble rfl⟩
  | rbWr => exact ⟨opRows[1], List.getElem_mem _, rfl, selects_assemble rfl⟩
  | kpIrq v => exact ⟨opRows[7], List.getElem_mem _, rfl, selects_encode_kpIrq h⟩
  | ilArmf => exact ⟨opRows[9], List.getElem_mem _, rfl, selects_assemble rfl⟩
  | ilArmr => exact ⟨opRows[10], List.getElem_mem _, rfl, selects_assemble rfl⟩
  | ilDis => exact ⟨opRows[11], List.getElem_mem _, rfl, selects_assemble rfl⟩
  | ilEn => exact ⟨opRows[12], List.getElem_mem _, rfl, selects_assemble rfl⟩
  | ilClr => exact ⟨opRows[13], List.getElem_mem _, rfl, selects_assemble rfl⟩
  | ioCfg p d q => exact ⟨opRows[14], List.getElem_mem _, rfl, selects_encode_ioCfg p d q⟩
  | ioSet => exact ⟨opRows[15], List.getElem_mem _, rfl, selects_assemble rfl⟩
  | ioRst => exact ⟨opRows[16], List.getElem_mem _, rfl, selects_assemble rfl⟩
  | ioRd => exact ⟨opRows[17], List.getElem_mem _, rfl, selects_assemble rfl⟩
  | tmDelay => exact ⟨opRows[19], List.getElem_mem _, rfl, selects_assemble rfl⟩

/-- No word has the match bits of two rows under their masks (30_encoding R84). -/
theorem opRows_disjoint : opRows.Pairwise fun r q => r.matchBits &&& q.mask ≠ q.matchBits &&& r.mask := by
  decide

theorem row_unique {r q : OpRow} {w : CmdWord} (hr : r ∈ opRows) (hq : q ∈ opRows) (hwr : w &&& r.mask = r.matchBits)
    (hwq : w &&& q.mask = q.matchBits) : r = q := by
  by_contra hne
  have : Std.Symm fun r q : OpRow => r.matchBits &&& q.mask ≠ q.matchBits &&& r.mask := ⟨fun _ _ h => h.symm⟩
  refine opRows_disjoint.forall hr hq hne ?_
  rw [← hwr, ← hwq, BitVec.and_assoc, BitVec.and_assoc, BitVec.and_comm r.mask]

/-- Settles O2: what a word decodes to is the instruction whose word it is, and a row selects the words of its own instructions. -/
theorem decodeFollowsOpcodeTable : Obligations.DecodeFollowsOpcodeTable := by
  refine fun w => ⟨fun i hi => ?_, fun r hr hs => ?_, fun r hr q hq hwr hwq => ?_⟩
  · obtain ⟨he, hwf⟩ := decode_isWordOf hi
    exact ⟨he, hwf, he ▸ exists_row_selects hwf⟩
  · obtain ⟨i, hi, hn⟩ := has_of_selects r hr hs
    exact ⟨i, decode_eq_some.mpr hi, hn⟩
  · rw [row_unique hr hq hwr hwq]

end Sys2Proof
end

section
/-! PROOFS. The illegal words, and sample words (O3, O4). -/

namespace Sys2Proof

/-! ## The words each unit refuses -/

theorem noOperand_eq_none {w : CmdWord} {i : Instr} : (noOperand w i).toOption = none ↔ immField w ≠ 0 := by
  unfold noOperand
  split <;> rename_i ha
  · simp [ha, Except.toOption]
  · exact iff_of_true rfl ha

theorem decodeRb_eq_none {w : CmdWord} : (decodeRb w).toOption = none ↔
    5 ≤ (fnField w).toNat ∨ (2 ≤ (fnField w).toNat ∧ (fnField w).toNat ≤ 4 ∧ immField w ≠ 0) := by
  unfold decodeRb
  split <;> rename_i hf
  · simp [Except.toOption, hf]
  · simp [Except.toOption, hf]
  · simp [noOperand_eq_none, hf]
  · simp [noOperand_eq_none, hf]
  · simp [noOperand_eq_none, hf]
  · exact iff_of_true rfl (.inl (by grind))

theorem decodeIrq_eq_none {w : CmdWord} : (decodeIrq w).toOption = none ↔ hiField w ≠ 0 ∨ 7 ≤ (loField w).toNat := by
  unfold decodeIrq
  split_ifs with hhi hlo
  · exact iff_of_true rfl (.inl hhi)
  · exact iff_of_false nofun (by rintro (h | h); exacts [hhi h, by omega])
  · exact iff_of_true rfl (.inr (by omega))

theorem decodeKp_eq_none {w : CmdWord} : (decodeKp w).toOption = none ↔
    4 ≤ (fnField w).toNat ∨
    (((fnField w).toNat = 0 ∨ (fnField w).toNat = 1 ∨ (fnField w).toNat = 3) ∧ immField w ≠ 0) ∨
    ((fnField w).toNat = 2 ∧ (hiField w ≠ 0 ∨ 7 ≤ (loField w).toNat)) := by
  unfold decodeKp
  split <;> rename_i hf
  · simp [noOperand_eq_none, hf]
  · simp [noOperand_eq_none, hf]
  · simp [decodeIrq_eq_none, hf]
  · simp [noOperand_eq_none, hf]
  · exact iff_of_true rfl (.inl (by grind))

theorem decodeIl_eq_none {w : CmdWord} : (decodeIl w).toOption = none ↔
    (fnField w).toNat = 0 ∨ (fnField w).toNat = 3 ∨ 7 ≤ (fnField w).toNat := by
  unfold decodeIl
  split
  case h_6 => exact iff_of_true rfl (by grind)
  all_goals exact iff_of_false nofun (by omega)

theorem decodeCfg_eq_none {w : CmdWord} : (decodeCfg w).toOption = none ↔ w.extractLsb' 8 2 = 3 := by
  unfold decodeCfg
  split <;> rename_i hq
  · rw [bits_of_ofBits hq]
    exact iff_of_false nofun (bits_ne_three _)
  · refine iff_of_true rfl (by_contra fun hne => ?_)
    obtain ⟨q, hb⟩ := pull_of_ne_three hne
    simp [hb] at hq

theorem decodeIo_eq_none {w : CmdWord} : (decodeIo w).toOption = none ↔
    ((fnField w).toNat ≤ 7 ∧ w.extractLsb' 8 2 = 3) ∨ 11 ≤ (fnField w).toNat := by
  by_cases hg : (fnField w).toNat < 8
  · rw [Machine.decodeIo_formatG hg, decodeCfg_eq_none]
    grind
  · unfold decodeIo
    split
    case h_4 hf => exact iff_of_true rfl (.inr hf.ge)
    case h_5 =>
      rw [if_neg hg]
      exact iff_of_true rfl (.inr (by grind))
    all_goals exact iff_of_false nofun (by omega)

theorem decodeTm_eq_none {w : CmdWord} : (decodeTm w).toOption = none ↔
    2 ≤ (fnField w).toNat ∨ ((fnField w).toNat = 0 ∧ immField w ≠ 0) := by
  unfold decodeTm
  split <;> rename_i hf
  · simp [noOperand_eq_none, hf]
  · simp [Except.toOption, hf]
  · exact iff_of_true rfl (.inl (by grind))

/-! ## The port's answer -/

namespace Machine

/-- The decoder refuses exactly the words of the list, unit by unit (30_encoding R85). -/
theorem decode_eq_none {w : CmdWord} : decode w = none ↔ illegalWord w := by
  unfold decode decodeWord illegalWord
  split <;> rename_i hu
  · simp [decodeRb_eq_none, hu]
  · simp [decodeKp_eq_none, hu]
  · simp [decodeIl_eq_none, hu]
  · simp [decodeIo_eq_none, hu]
  · simp [decodeTm_eq_none, hu]
  · exact iff_of_true rfl (by grind)

/-- An answer to a state changes nothing but the response port and the marks (30_encoding R83). -/
theorem answer_onlyAnswered (s : State) (r : Resp) : ∃ t, answer (s, r) = .next t ∧ OnlyAnswered s t r :=
  ⟨_, rfl, ⟨rfl, rfl, rfl⟩, ⟨rfl, rfl, rfl, rfl, rfl, rfl, rfl⟩, ⟨rfl, rfl, rfl, rfl⟩, .of rfl rfl, ⟨rfl, fun _ => rfl⟩,
    fun _ => rfl, ⟨rfl, rfl, rfl, rfl, rfl, rfl, rfl⟩⟩

theorem runWord_of_none {w : CmdWord} (h : decode w = none) (s : State) : runWord w s = answer (s, .eIllegal) := by
  simp [runWord, h]

/-- Settles O3: the units' lists, and a port that runs no operation for a word that decodes to none. -/
theorem illegalWordsAnswered : Obligations.IllegalWordsAnswered := by
  refine fun w => ⟨decode_eq_none, fun s h => ?_⟩
  rw [runWord_of_none (decode_eq_none.mpr h)]
  exact answer_onlyAnswered s .eIllegal

/-- Settles O4: the decoder is run on the twelve words. -/
theorem sampleWordsDecode : Obligations.SampleWordsDecode := by
  unfold Obligations.SampleWordsDecode
  decide

end Machine
end Sys2Proof
end

section
/-! PROOFS. The steps of the environment (O55). -/

namespace Sys2Proof
namespace Machine

@[simp] theorem setPressed_pressed (l : List Key) (s : State) : (setPressed l s).pressed = l := rfl

/-- The edge latch sees the new keys (45 R190). -/
theorem setPressed_line (l : List Key) (s : State) (n : Fin 16) :
    (setPressed l s).line n = ({ s with pressed := l } : State).latched n :=
  edgeLatch_line _ n

/-- A change of the closed keys leaves the clock, the keypad, the ring, the bytes and the pins alone (30_encoding R89). -/
theorem setPressed_same (l : List Key) (s : State) :
    (setPressed l s).ms = s.ms ∧ KeypadSame s (setPressed l s) ∧ RingSame s (setPressed l s) ∧
    BytesSame s (setPressed l s) ∧ PinsSame s (setPressed l s) :=
  ⟨setPressed_ms l s, by constructor <;> simp, by constructor <;> simp, .of (setPressed_buf l s) (setPressed_cfg l s),
    ⟨setPressed_rowOut l s, fun i => congrArg (Vector.get · i) (setPressed_pins l s)⟩⟩

/-- An advance of the clock leaves the keypad, the ring, the bytes, the pins and the lines alone (46 R215). -/
theorem advanceClock_same (d : Nat) (s : State) :
    KeypadSame s (advanceClock d s) ∧ RingSame s (advanceClock d s) ∧ BytesSame s (advanceClock d s) ∧
    PinsSame s (advanceClock d s) ∧ LinesSame s (advanceClock d s) :=
  ⟨⟨rfl, rfl, rfl, rfl, rfl, rfl, rfl⟩, ⟨rfl, rfl, rfl, rfl⟩, .of rfl rfl, ⟨rfl, fun _ => rfl⟩, fun _ => rfl⟩

theorem envStep_press {k : Key} {s : State} (h : s.cfg.hasKey k = true) :
    envStep (.press k) s = setPressed (insertKey k s.pressed) s := if_pos h

/-- Settles O55: a press and a release are each a change of the closed keys; a step is the schedule's first move. -/
theorem environmentSteps : Obligations.EnvironmentSteps := by
  refine fun s => ⟨fun k hk => ?_, fun k => ⟨fun k' => ?_, setPressed_line _ s, setPressed_same _ s⟩,
    fun d => ⟨rfl, rfl, advanceClock_same d s⟩, fun e ms hs => step_of_sched hs⟩
  · rw [envStep_press hk]
    exact ⟨fun k' => mem_insertKey, setPressed_line _ s, setPressed_same _ s⟩
  · show k' ∈ s.pressed.filter (· != k) ↔ _
    simp [and_comm]

end Machine
end Sys2Proof
end

section
/-! PROOFS. The ring's operations one by one, their runs, and the least capacities (O16, O17, O18, O19, O20, O24, O25, O26). -/

namespace Sys2Proof
namespace Machine

/-! ## What an operation of unit RB leaves alone -/

/-- The operation is one of unit RB (30_encoding R84). -/
def isRingInstr : Instr → Bool
  | .rbInit _ | .rbWr _ | .rbRd | .rbCnt | .rbFlush => true
  | _ => false

/-- What 10_state R45 lists for an operation of unit RB is in the ring. -/
theorem Writes.outsideRing {i : Instr} {s t : State} (w : Writes i s t) (hi : isRingInstr i = true) :
    KeypadSame s t ∧ PinsSame s t ∧ LinesSame s t ∧ OutsideSame s t := by
  have hinit : i ≠ .kpInit := by rintro rfl; cases hi
  have hdrive : drivesRows i = false := by cases i <;> simp_all [drivesRows, isRingInstr]
  have harm : armsLines i = false := by cases i <;> simp_all [armsLines, isRingInstr]
  obtain ⟨hactive, hinited, hhkey⟩ := w.control hinit
  obtain ⟨hphase, hcnt⟩ := w.count hinit (by rintro rfl; cases hi)
  obtain ⟨htrig, hhstep⟩ := w.handler hinit (by rintro v rfl; cases hi)
  refine ⟨⟨hactive, hinited, hphase, hcnt, htrig, hhstep, hhkey⟩,
    ⟨w.rowOut hdrive, w.pins hinit (by rintro p d q rfl; cases hi)⟩, fun n => ?_, w.outside⟩
  obtain ⟨hport, hedge⟩ := w.bound harm n
  have hen := w.enable harm (by rintro p rfl; cases hi) (by rintro p rfl; cases hi) n
  have hpend : (t.line n).pend = (s.line n).pend :=
    Bool.eq_iff_iff.mpr ⟨w.notSet hdrive n, w.sticky harm (by rintro p rfl; cases hi) n⟩
  exact (LineReg.mk.injEq ..).mpr ⟨hport, hedge, hen, hpend, w.last harm hdrive n⟩

/-! ## The outcomes of each operation -/

theorem exec_rbInit_fails {c : Byte} {s : State} (h : c = 0 ∨ s.cfg.rbSlots < c.toNat) :
    exec (.rbInit c) s = answer ({ s with rbValid := false }, .eStorage) :=
  congrArg answer (if_pos (by simpa [BitVec.toNat_eq] using h))

theorem exec_rbInit_binds {c : Byte} {s : State} (h : ¬ (c = 0 ∨ s.cfg.rbSlots < c.toNat)) :
    exec (.rbInit c) s = answer ({ s with rbCap := c.toNat, head := 0, tail := 0, rbValid := true }, .ok 0) :=
  congrArg answer (if_neg (by simpa [BitVec.toNat_eq] using h))

theorem exec_rbWr_of {b : Byte} {s : State} {p : State × Resp} (h : ringWrite b s = .next p) :
    exec (.rbWr b) s = answer p :=
  congrArg (Result.andThen · answer) h

theorem exec_rbRd_of {s : State} {p : State × Resp} (h : ringRead s = .next p) : exec .rbRd s = answer p :=
  congrArg (Result.andThen · answer) h

/-- Settles O16: one outcome binds the ring, the other only invalidates it. -/
theorem ringInitBindsOrFails : Obligations.RingInitBindsOrFails := by
  intro c s
  obtain ⟨t, e⟩ : ∃ t, exec (.rbInit c) s = .next t := ⟨_, rfl⟩
  have w := exec_writes e
  obtain ⟨hkeypad, hpins, hlines, hout⟩ := w.outsideRing rfl
  refine ⟨t, e, fun h => ?_, fun h => ?_, hkeypad, w.bytes nofun nofun, hpins, hlines, hout⟩
  · rw [exec_rbInit_fails h, answer_eq_next] at e
    subst e
    exact ⟨rfl, rfl, rfl, rfl, rfl, rfl, rfl⟩
  · rw [exec_rbInit_binds h, answer_eq_next] at e
    subst e
    exact ⟨rfl, rfl, rfl, rfl, rfl, rfl, rfl⟩

/-- The store of `RB.WR` is the only byte it changes (40 R101). -/
theorem memRead_ring_write {s t : State} {i : Nat} {b : Byte} (hb : t.buf = s.buf.write i b) (hc : t.cfg = s.cfg) :
    t.memRead (.ring i) = some b ∧ ∀ a, a ≠ .ring i → t.memRead a = s.memRead a := by
  refine ⟨?_, fun a ha => ?_⟩
  · rw [State.memRead, hb, Memory.read_write_same]
  · cases a with
    | ring j =>
      have hj : j ≠ i := fun h => ha (h ▸ rfl)
      rw [State.memRead, hb, Memory.read_write_other _ b hj, State.memRead]
    | keymap j => rw [State.memRead, hc, State.memRead]

/-- Settles O17: the two cases of the rule; a valid ring's bytes change at `head` only. -/
theorem ringWriteStoresByte : Obligations.RingWriteStoresByte := by
  refine fun b s => ⟨fun hv => ?_, fun hv hslot => ?_⟩
  · rw [exec_rbWr_of (ringWrite_eq_next.mpr (.inl ⟨hv, rfl⟩))]
    exact answer_onlyAnswered s .rejected
  · have e := exec_rbWr_of (ringWrite_eq_next.mpr (.inr ⟨hv, hslot, rfl⟩)) (b := b)
    obtain ⟨hkeypad, hpins, hlines, hout⟩ := (exec_writes e).outsideRing rfl
    obtain ⟨hnew, hold⟩ := memRead_ring_write (s := s) rfl hout.cfg
    exact ⟨_, e, ⟨rfl, dropOldest_delay s, dropOldest_mainDelay s⟩, rfl, dropOldest_tail s, dropOldest_rbValid s,
      dropOldest_rbCap s, hnew, hold, hkeypad, hpins, hlines, hout⟩

/-- Settles O18: the two cases of the rule. -/
theorem ringReadTakesOldest : Obligations.RingReadTakesOldest := by
  refine fun s => ⟨fun h => ?_, fun hv hne hslot v hload => ?_⟩
  · have hempty : s.ringEmpty = true := by simpa [State.ringEmpty] using h
    rw [exec_rbRd_of (ringRead_eq_next.mpr (.inl ⟨hempty, rfl⟩))]
    exact answer_onlyAnswered s .noValue
  · have e := exec_rbRd_of (ringRead_eq_next.mpr (.inr ⟨ringEmpty_eq_false.mpr ⟨hv, hne⟩, hslot, v, hload, rfl⟩))
    have w := exec_writes e
    obtain ⟨hkeypad, hpins, hlines, hout⟩ := w.outsideRing rfl
    exact ⟨_, e, ⟨rfl, rfl, rfl⟩, rfl, rfl, rfl, rfl, hkeypad, w.bytes nofun nofun, hpins, hlines, hout⟩

/-- The count of a valid ring, as the signed formula of 40 R103. -/
theorem ringCount_eq_emod {s : State} (hv : s.rbValid = true) (ht : s.tail < s.rbCap) :
    (s.ringCount : Int) = ((s.head : Int) - s.tail + s.rbCap) % s.rbCap := by
  rw [State.ringCount, if_pos hv, Int.natCast_emod, Int.natCast_sub (by omega), Int.natCast_add]
  congr 1
  omega

/-- Settles O19: the answer is the count, which for a ring in its invariants is R103's formula. -/
theorem ringCountAnswersFormula : Obligations.RingCountAnswersFormula := by
  intro s
  obtain ⟨t, e, ht⟩ := answer_onlyAnswered s (.ok (BitVec.ofNat 32 s.ringCount))
  refine ⟨t, s.ringCount, e, ht, fun hv => ?_, fun h hv => ?_⟩
  · simp [State.ringCount, hv]
  · obtain ⟨hhead, htail⟩ := h.index hv
    exact ⟨ringCount_lt hv hhead htail, ringCount_eq_emod hv htail⟩

/-- Settles O20: with both indices 0 the count is 0, whatever the capacity. -/
theorem ringFlushEmpties : Obligations.RingFlushEmpties := by
  intro s
  obtain ⟨t, e⟩ : ∃ t, exec .rbFlush s = .next t := ⟨_, rfl⟩
  have w := exec_writes e
  obtain ⟨hkeypad, hpins, hlines, hout⟩ := w.outsideRing rfl
  obtain rfl := answerOk_eq_next.mp e
  refine ⟨_, e, ⟨rfl, rfl, rfl⟩, rfl, rfl, rfl, rfl, ?_, hkeypad, w.bytes nofun nofun, hpins, hlines, hout⟩
  simp [State.ringCount, ringFlush]

/-! ## A queue that drops its oldest bytes -/

theorem lastBytes_of_length_le {n : Nat} {l : List Byte} (h : l.length ≤ n) : lastBytes n l = l := by
  rw [lastBytes, Nat.sub_eq_zero_of_le h, List.drop_zero]

/-- Bytes already dropped are not missed by a later drop. -/
theorem lastBytes_lastBytes_append (n : Nat) (l m : List Byte) :
    lastBytes n (lastBytes n l ++ m) = lastBytes n (l ++ m) := by
  unfold lastBytes
  rw [← List.drop_append_of_le_length (Nat.sub_le _ _), List.drop_drop]
  congr 1
  simp only [List.length_drop, List.length_append]
  omega

/-- At least `n` later bytes push every earlier one out. -/
theorem lastBytes_append_of_le {n : Nat} (l : List Byte) {m : List Byte} (h : n ≤ m.length) :
    lastBytes n (l ++ m) = lastBytes n m := by
  unfold lastBytes
  rw [List.length_append, Nat.add_sub_assoc h, List.drop_length_add_append]

/-! ## Runs of operations -/

/-- `RB.WR` on the queue that a valid ring is, from O23. -/
theorem exec_rbWr_queue {s : State} (h : RingOk s) (hv : s.rbValid = true) (b : Byte) :
    ∃ t, exec (.rbWr b) s = .next t ∧ RingOk t ∧ t.rbValid = true ∧ t.rbCap = s.rbCap ∧
      t.contents = lastBytes (s.rbCap - 1) (s.contents ++ [b]) := by
  obtain ⟨hw, -⟩ := ringRefinesDropOldestQueue.2 s h hv
  obtain ⟨t, e, hok, hvt, hcap, -, hcon⟩ := hw b
  exact ⟨t, e, hok, hvt, hcap, hcon⟩

/-- `RB.RD` on the queue that a valid ring is, from O23: the byte answered, if any, and those left are the bytes there were. -/
theorem exec_rbRd_queue {s : State} (h : RingOk s) (hv : s.rbValid = true) :
    ∃ t, exec .rbRd s = .next t ∧ RingOk t ∧ t.rbValid = true ∧ Resp.bytes t.resp ++ t.contents = s.contents := by
  obtain ⟨-, ⟨t, e, hok, hvt, -, hr, hcon⟩, -⟩ := ringRefinesDropOldestQueue.2 s h hv
  refine ⟨t, e, hok, hvt, ?_⟩
  rw [hr, hcon]
  cases s.contents <;> simp [Resp.bytes]

/-- A ring that is not full has room for one byte more. -/
theorem contents_length_of_not_full {s : State} (h : RingOk s) (hv : s.rbValid = true) (hf : s.ringFull = false) :
    s.contents.length + 1 ≤ s.rbCap - 1 := by
  obtain ⟨hhead, htail⟩ := h.index hv
  have hne : s.next s.head ≠ s.tail := by simpa [State.ringFull, hv] using hf
  have hnot : s.ringCount + 1 ≠ s.rbCap := fun he => hne ((ringCount_full hv hhead htail).mp he)
  have hlt := ringCount_lt hv hhead htail
  rw [(contents_spec (h.bytes hv)).1]
  omega

/-- A run with a result that begins with a write found room, and goes on from what the write left. -/
theorem ringRun_write_eq_some {b : Byte} {ops : List RingOp} {s : State} {r : State × List Byte}
    (e : ringRun (.write b :: ops) s = some r) :
    s.ringFull = false ∧ ∀ u, exec (.rbWr b) s = .next u → ringRun ops u = some r := by
  rw [ringRun] at e
  split at e
  · cases e
  · rename_i hf
    exact ⟨by simpa using hf, fun u hu => by simpa [hu] using e⟩

/-- A run with a result that begins with a read returns what the read answered before the rest. -/
theorem ringRun_read_eq_some {ops : List RingOp} {s t u : State} {out : List Byte}
    (e : ringRun (.read :: ops) s = some (t, out)) (hu : exec .rbRd s = .next u) :
    ∃ rest, ringRun ops u = some (t, rest) ∧ out = Resp.bytes u.resp ++ rest := by
  simp only [ringRun, hu, Option.map_eq_some_iff] at e
  obtain ⟨⟨t', rest⟩, hrun, heq⟩ := e
  cases heq
  exact ⟨rest, hrun, rfl⟩

/-- Settles O24, by induction on the operations: a write that finds room appends, a read takes the first byte. -/
theorem ringKeepsWriteOrder : Obligations.RingKeepsWriteOrder := by
  intro ops
  induction ops with
  | nil =>
    intro s t out _ _ e
    cases e
    simp [written]
  | cons op ops ih =>
    intro s t out h hv e
    cases op with
    | write b =>
      obtain ⟨hf, hrun⟩ := ringRun_write_eq_some e
      obtain ⟨u, hu, hok, hvu, -, hcon⟩ := exec_rbWr_queue h hv b
      have happend : u.contents = s.contents ++ [b] := by
        rw [hcon, lastBytes_of_length_le (by simpa using contents_length_of_not_full h hv hf)]
      rw [ih u t out hok hvu (hrun u hu), happend, written, List.append_assoc, List.singleton_append]
    | read =>
      obtain ⟨u, hu, hok, hvu, htake⟩ := exec_rbRd_queue h hv
      obtain ⟨rest, hrun, rfl⟩ := ringRun_read_eq_some e hu
      rw [List.append_assoc, ih u t rest hok hvu hrun, ← List.append_assoc, htake, written]

/-- Writes append to the queue, which keeps its last `C - 1` bytes (40 R101, R107). -/
theorem writeAll_contents (bs : List Byte) {s : State} (h : RingOk s) (hv : s.rbValid = true) :
    ∃ t, writeAll bs s = .next t ∧ t.contents = lastBytes (s.rbCap - 1) (s.contents ++ bs) := by
  induction bs generalizing s with
  | nil =>
    obtain ⟨hhead, htail⟩ := h.index hv
    have hfit : s.contents.length ≤ s.rbCap - 1 := by
      rw [(contents_spec (h.bytes hv)).1]
      exact Nat.le_sub_one_of_lt (ringCount_lt hv hhead htail)
    exact ⟨s, rfl, by rw [List.append_nil, lastBytes_of_length_le hfit]⟩
  | cons b bs ih =>
    obtain ⟨u, hu, hok, hvu, hcap, hcon⟩ := exec_rbWr_queue h hv b
    obtain ⟨t, ht, htcon⟩ := ih hok hvu
    refine ⟨t, andThen_eq_next.mpr ⟨u, hu, ht⟩, ?_⟩
    rw [htcon, hcap, hcon, lastBytes_lastBytes_append, List.append_assoc, List.singleton_append]

/-- Settles O25: the run's own bytes push out whatever was stored before it. -/
theorem overrunKeepsLastBytes : Obligations.OverrunKeepsLastBytes := by
  intro bs s h hv hlen
  obtain ⟨t, e, hcon⟩ := writeAll_contents bs h hv
  exact ⟨t, e, by rw [hcon, lastBytes_append_of_le _ hlen]⟩

/-! ## The least capacities (40 R109) -/

/-- Settles O26: with `C = 1` both indices are 0, so `next(head) = tail = head`, and the queue has room for no byte; with `C = 2` the
count is below 2. -/
theorem degenerateCapacities : Obligations.DegenerateCapacities := by
  intro s h hv
  obtain ⟨hhead, htail⟩ := h.index hv
  have hslots := (h.cap hv).2
  refine ⟨fun h1 => ?_, fun h2 => ?_⟩
  · have hh : s.head = 0 := by omega
    have ht : s.tail = 0 := by omega
    refine ⟨hh, ht, by simp [State.ringEmpty, hh, ht], by simp [State.ringFull, State.next, hv, h1, ht, Nat.mod_one],
      fun b => ?_, ?_, ?_⟩
    · obtain ⟨t, e, hans, hht, htt, hvt, hct, hnew, hold, -⟩ := (ringWriteStoresByte b s).2 hv (by omega)
      have hcon : t.contents = lastBytes (s.rbCap - 1) (s.contents ++ [b]) :=
        contents_written h hv hvt hct hht htt hnew hold
      refine ⟨t, e, hans, hh ▸ hnew, ?_, ?_, ?_⟩
      · rw [hht, h1, Nat.mod_one]
      · rw [htt, h1, Nat.mod_one, Nat.mod_one, ht, if_pos rfl]
      · simp [hcon, h1, lastBytes]
    · obtain ⟨t, e, ho⟩ := (ringReadTakesOldest s).1 (.inr (hh.trans ht.symm))
      exact ⟨t, e, ho.answered⟩
    · obtain ⟨t, n, e, ho, -, hn⟩ := ringCountAnswersFormula s
      obtain ⟨hlt, -⟩ := hn h hv
      obtain rfl : n = 0 := by omega
      exact ⟨t, e, ho.answered⟩
  · rw [(contents_spec (h.bytes hv)).1]
    have hlt := ringCount_lt hv hhead htail
    omega

end Machine
end Sys2Proof
end

section
/-! PROOFS. The operations of unit IO, the level of a pin, and the scan (O27, O28, O29, O30, O31, O32, O33). -/

namespace Sys2Proof
namespace Machine

/-! ## The operations of unit IO (41 section 1) -/

/-- The operation is one of unit IO (30_encoding R84). -/
def isIoInstr : Instr → Bool
  | .ioCfg _ _ _ | .ioSet _ | .ioRst _ | .ioRd _ => true
  | _ => false

/-- What 10_state R45 lists for an operation of unit IO is in the pins and the lines. -/
theorem Writes.outsideIo {i : Instr} {s t : State} (w : Writes i s t) (hi : isIoInstr i = true) :
    KeypadSame s t ∧ RingSame s t ∧ BytesSame s t ∧ OutsideSame s t := by
  have other {j : Instr} (hj : isIoInstr j = false) : i ≠ j := by
    rintro rfl
    rw [hi] at hj
    cases hj
  obtain ⟨hactive, hinited, hhkey⟩ := w.control (other rfl)
  obtain ⟨hphase, hcnt⟩ := w.count (other rfl) (other rfl)
  obtain ⟨htrig, hhstep⟩ := w.handler (other rfl) fun _ => other rfl
  obtain ⟨hvalid, hcap⟩ := w.ring (other rfl) fun _ => other rfl
  have hhead := w.head (other rfl) (other rfl) (other rfl) (fun _ => other rfl) fun _ => other rfl
  have htail := w.tail (other rfl) (other rfl) (other rfl) (other rfl) (other rfl) (fun _ => other rfl) fun _ => other rfl
  exact ⟨⟨hactive, hinited, hphase, hcnt, htrig, hhstep, hhkey⟩, ⟨hvalid, hcap, hhead, htail⟩,
    w.bytes (other rfl) fun _ => other rfl, w.outside⟩

/-- `IO.SET` and `IO.RST` are the two values of one operation (41 R121, R122). -/
theorem exec_drive (b : Bit) (p : PinId) (s : State) :
    exec (if b then .ioSet p else .ioRst p) s = answerOk (drivePin b p s) := by
  cases b <;> rfl

theorem drivePin_of_not_row {b : Bit} {p : PinId} {s : State} (h : p ∉ s.cfg.rowPin) : drivePin b p s = s :=
  if_neg (isRow_iff.not.mpr h)

/-- On a row pin every row bound to it takes the level, and no other row (41 R121, R122). -/
theorem drivePin_rowOut_getElem? (b : Bit) {p : PinId} {s : State} (h : p ∈ s.cfg.rowPin)
    (hl : s.rowOut.length = s.cfg.nRows) (r : Nat) :
    (drivePin b p s).rowOut[r]? = if s.cfg.rowPin[r]? = some p then some b else s.rowOut[r]? := by
  rw [drivePin_rowOut b p s (isRow_iff.mpr h), List.getElem?_zipWith]
  by_cases hr : r < s.cfg.rowPin.length
  · have hro : r < s.rowOut.length := hl ▸ hr
    simp only [List.getElem?_eq_getElem hr, List.getElem?_eq_getElem hro, Option.some.injEq]
    split <;> rfl
  · have hro : s.rowOut[r]? = none := List.getElem?_eq_none (hl.le.trans (Nat.le_of_not_lt hr))
    simp [List.getElem?_eq_none (Nat.le_of_not_lt hr), hro]

/-- On a row pin the edge latch runs on the rows' new levels (41 R121, R122). -/
theorem drivePin_line (b : Bit) {p : PinId} {s : State} (h : p ∈ s.cfg.rowPin) (n : Fin 16) :
    (drivePin b p s).line n = ({ s with rowOut := (drivePin b p s).rowOut } : State).latched n := by
  rw [drivePin, if_pos (isRow_iff.mpr h), edgeLatch_line, edgeLatch_rowOut]
  rfl

/-- Settles O28: a pin that is no row pin leaves the state alone; a row pin sets its rows and runs the edge latch. -/
theorem drivePinSetsRow : Obligations.DrivePinSetsRow := by
  intro b p s i
  have e : exec i s = answerOk (drivePin b p s) := exec_drive b p s
  refine ⟨fun h => ?_, fun h hl => ?_⟩
  · rw [e, drivePin_of_not_row h]
    exact answer_onlyAnswered s (.ok 0)
  · obtain ⟨hkeypad, hring, hbytes, hout⟩ := (exec_writes e).outsideIo (by cases b <;> rfl)
    refine ⟨_, e, ⟨rfl, drivePin_delay b p s, drivePin_mainDelay b p s⟩, fun r hr => ?_, fun r hr => ?_, drivePin_line b h,
      fun j => congrArg (Vector.get · j) (drivePin_pins b p s), hkeypad, hring, hbytes, hout⟩
    · exact (drivePin_rowOut_getElem? b h hl r).trans (if_pos hr)
    · exact (drivePin_rowOut_getElem? b h hl r).trans (if_neg hr)

/-- Settles O27: the pin's registers are written, and nothing else but the answer and the marks. -/
theorem configurePinRecords : Obligations.ConfigurePinRecords := by
  intro p d q s
  obtain ⟨t, e⟩ : ∃ t, exec (.ioCfg p d q) s = .next t := ⟨_, rfl⟩
  obtain ⟨hkeypad, hring, hbytes, hout⟩ := (exec_writes e).outsideIo rfl
  obtain rfl := answerOk_eq_next.mp e
  refine ⟨_, e, ⟨rfl, rfl, rfl⟩, ?_, fun p' hne => ?_, rfl, hkeypad, hring, hbytes, fun _ => rfl, hout⟩
  · exact (configPin_pin p d q s p.index).trans (if_pos rfl)
  · exact (configPin_pin p d q s p'.index).trans (if_neg fun h => hne (pinIndex_inj h))

/-- Settles O29: the bit is the level that the model gives the pin; taking a free level draws and marks the run, which no register
shows. -/
theorem readPinAnswersLevel : Obligations.ReadPinAnswersLevel := by
  intro p s
  have hdata : (BitVec.ofBool (s.level p)).setWidth 32 = if s.level p then 1 else 0 := by
    cases s.level p <;> rfl
  obtain ⟨t, e⟩ : ∃ t, exec (.ioRd p) s = .next t := ⟨_, rfl⟩
  obtain ⟨hkeypad, hring, hbytes, hout⟩ := (exec_writes e).outsideIo rfl
  obtain rfl := answer_eq_next.mp e
  exact ⟨_, s.level p, e, ⟨⟨congrArg (some <| Resp.ok ·) hdata, noteForeign_delay p s, noteForeign_mainDelay p s⟩, hkeypad, hring,
    hbytes, ⟨noteForeign_rowOut p s, fun i => congrArg (Vector.get · i) (noteForeign_pins p s)⟩, noteForeign_line p s, hout⟩,
    fun _ => rfl⟩

/-! ## The level of a pin (41 R124) -/

/-- Settles O30: in a valid configuration each pin is bound once, so a row pin has its row's level and a column pin is no row pin. -/
theorem pinLevels : Obligations.PinLevels := by
  refine fun s hv hl => ⟨fun r p hp => ?_, fun c p hp => ?_⟩
  · have hr : r < s.rowOut.length := hl ▸ (List.getElem?_eq_some_iff.mp hp).1
    have hlevel := level_row (valid_rows_nodup hv) hp (List.getElem?_eq_getElem hr)
    rw [hlevel, List.getElem?_eq_getElem hr]
  · have hc : p ∈ s.cfg.colPin := List.mem_of_getElem? hp
    rw [level_col hc (valid_col_not_row hv hc), Bool.not_eq_false', pulledLow_iff (valid_cols_nodup hv) hp]

/-! ## The scan (41 section 3) -/

/-- What a scan does not write (41 R125, R129). -/
theorem ScanFrame.same {s t : State} (h : ScanFrame s t) :
    KeypadSame s t ∧ RingSame s t ∧ BytesSame s t ∧ (∀ i, t.pin i = s.pin i) ∧ OutsideSame s t := by
  rw [h]
  exact ⟨⟨rfl, rfl, rfl, rfl, rfl, rfl, rfl⟩, ⟨rfl, rfl, rfl, rfl⟩, .of rfl rfl, fun _ => rfl,
    ⟨rfl, rfl, rfl, rfl, rfl, rfl, rfl⟩⟩

/-- Settles O31: the scan visits the keys in rising order, so the first closed key it meets is the least. -/
theorem coreScanFindsLeastKey : Obligations.CoreScanFindsLeastKey := by
  intro s hv hk hh
  obtain ⟨hkey, hrows⟩ := coreScanFrom_spec (List.range s.cfg.nRows) hv hh fun _ => List.mem_range.mp
  obtain ⟨hkeypad, hring, hbytes, hpins, hout⟩ := (coreScan_frame s).same
  exact ⟨hkey, firstPressed_none hk, fun _ => firstPressed_least hk, hkeypad, hring, hbytes, ⟨hrows.trans hh.symm, hpins⟩,
    coreScanFrom_kept _ s, hout⟩

/-- Settles O33: the rows are raised for the scan if they rest low, and lowered after it. -/
theorem scanKeepsRest : Obligations.ScanKeepsRest := by
  intro s hv _ hh
  obtain ⟨hkey, hrows⟩ := scan_rest hv (hh ▸ List.length_replicate) hh
  obtain ⟨hkeypad, hring, hbytes, hpins, hout⟩ := (scan_frame s).same
  exact ⟨hkey, hkeypad, hring, hbytes, ⟨hrows, hpins⟩, scan_kept s, hout⟩

/-! ## At most one row is low (41 R126) -/

theorem count_low_of_high {s : State} (hh : s.rowOut = List.replicate s.cfg.nRows true) : s.rowOut.count false = 0 := by
  rw [hh, List.count_replicate]
  rfl

/-- Lowering one row of rows that are all high leaves one low row. -/
theorem count_low_of_lowered {n r : Nat} (hr : r < n) : ((List.replicate n true).set r false).count false = 1 := by
  rw [List.count_set (by simpa using hr), List.count_replicate]
  simp

/-- From rows that are all high, a scan lowers one row at a time and raises it before the next (41 R125). -/
theorem scanTrace_count_low (l : List Nat) {s : State} (hnd : s.cfg.rowPin.Nodup)
    (hh : s.rowOut = List.replicate s.cfg.nRows true) (hl : ∀ r ∈ l, r < s.cfg.nRows) :
    ∀ t ∈ s :: scanTrace l s, t.rowOut.count false ≤ 1 := by
  induction l generalizing s with
  | nil =>
    intro t ht
    rw [List.mem_singleton.mp ht, count_low_of_high hh]
    exact Nat.zero_le 1
  | cons r l ih =>
    obtain ⟨hlow, hback⟩ := scanned_row hnd hh (hl r List.mem_cons_self)
    have hrest := ih (s := driveRow true r (driveRow false r s)) (by simpa using hnd) (by simpa using hback)
      (by simpa using fun x hx => hl x (List.mem_cons_of_mem r hx))
    intro t ht
    simp only [scanTrace, List.mem_cons] at ht
    rcases ht with rfl | rfl | rfl | ht
    · rw [count_low_of_high hh]
      exact Nat.zero_le 1
    · rw [hlow]
      exact (count_low_of_lowered (hl r List.mem_cons_self)).le
    · exact hrest _ List.mem_cons_self
    · split at ht
      · cases ht
      · exact hrest t (List.mem_cons_of_mem _ ht)

/-- The trace of a scan ends in the state that the scan returns. -/
theorem getLast?_scanTrace (l : List Nat) (s : State) :
    (s :: scanTrace l s).getLast? = some (coreScanFrom l s).1 := by
  induction l generalizing s with
  | nil => rfl
  | cons r l ih =>
    simp only [scanTrace, coreScanFrom, List.getLast?_cons_cons]
    cases (driveRow false r s).sample with
    | some c => rfl
    | none => exact ih _

/-- Settles O32, over the rows in configuration order. -/
theorem rowExclusivity : Obligations.RowExclusivity :=
  fun s hnd hh => ⟨scanTrace_count_low _ hnd hh fun _ => List.mem_range.mp, getLast?_scanTrace _ s⟩

end Machine
end Sys2Proof
end

section
/-! PROOFS. `KP.INIT` refused, the other variant's operations, and the poll machine tick by tick (O13, O14, O34 to O39). -/

namespace Sys2Proof
namespace Machine

/-! ## Operations that only answer -/

/-- `REFUSED` marks the run (42 R150, R151). -/
theorem answer_refused (s : State) :
    ∃ t, answer (s, .refused) = .next t ∧ OnlyAnswered s t .refused ∧ t.marks.refused = true := by
  obtain ⟨t, e, ht⟩ := answer_onlyAnswered s .refused
  exact ⟨t, e, ht, by rw [answer_eq_next.mp e]; rfl⟩

/-- Settles O13: `inited` is tested first. -/
theorem secondInitRefused : Obligations.SecondInitRefused := by
  intro s hi
  have e : exec .kpInit s = answer (s, .refused) := by simp [exec, execKpInit, hi]
  rw [e]
  exact answer_refused s

/-- Settles O14: the refused `KP.INIT` writes `inited` and `active` and answers. -/
theorem invalidConfigurationRefused : Obligations.InvalidConfigurationRefused := by
  intro s hi hv
  have e : exec .kpInit s = answer ({ s with inited := true, active := false }, .eConfig) := by simp [exec, execKpInit, hi, hv]
  obtain ⟨t, ht, hans, hkeypad, hring, hbytes, hpins, hlines, hout⟩ :=
    answer_onlyAnswered { s with inited := true, active := false } .eConfig
  exact ⟨t, e.trans ht, ⟨hans.resp, ⟨hans.delays.delay, hans.delays.mainDelay⟩⟩, hkeypad.inited, hkeypad.active, hkeypad.phase,
    hkeypad.cnt, hkeypad.trig, hkeypad.hstep, hkeypad.hkey, ⟨hring.rbValid, hring.rbCap, hring.head, hring.tail⟩, hbytes,
    ⟨hpins.rowOut, hpins.pins⟩, hlines,
    ⟨hout.cfg, hout.ms, hout.pressed, hout.producer, hout.consumer, hout.sched, hout.issuer⟩⟩

/-- Settles O34: the variant is tested first, then the activity. -/
theorem wrongVariantAndInactive : Obligations.WrongVariantAndInactive := by
  refine fun s => ⟨fun hv => ?_, fun hv ha => ?_, fun v hv => ?_, fun v hv ha => ?_⟩
  · have e : exec .kpTick s = answer (s, .refused) := by simp [exec, execKpTick, hv]
    rw [e]
    exact answer_refused s
  · have e : exec .kpTick s = answer (s, .inert) := by simp [exec, execKpTick, hv, ha]
    rw [e]
    exact answer_onlyAnswered s .inert
  · have e : exec (.kpIrq v) s = answer (s, .refused) := by simp [exec, execKpIrq, hv]
    rw [e]
    exact answer_refused s
  · have e : exec (.kpIrq v) s = answer (s, .inert) := by simp [exec, execKpIrq, hv, ha]
    rw [e]
    exact answer_onlyAnswered s .inert

/-! ## What every tick of a polling keypad does -/

/-- An active keypad of the Poll variant that meets its invariants: what the statements about ticks start from. -/
structure Polling (s : State) : Prop where
  run    : RunOk s
  keypad : KeypadOk s
  poll   : s.cfg.variant = .poll
  active : s.active = true

/-- A polling keypad's tick applies its phase's rule to the least pressed key (41 R129, 42 R143). -/
theorem Polling.exec_kpTick {s : State} (h : Polling s) :
    exec .kpTick s = Result.andThen (tickPhase s.firstPressed (scan s).1) answerOk := by
  have hkey := (scan_rest (h.run.active h.active).2 h.run.rows (h.keypad.rest h.active)).1
  simp [exec, execKpTick, h.poll, h.active, hkey]

/-- A tick answers `OK` and leaves alone all but the phase, the count, the ring and the lines' flags (10_state R45, 42 R143). -/
theorem Polling.tick_frame {s t : State} (h : Polling s) (e : exec .kpTick s = .next t) :
    Answered s t (.ok 0) ∧ t.active = s.active ∧ t.inited = s.inited ∧ t.trig = s.trig ∧ t.hstep = s.hstep ∧ t.hkey = s.hkey ∧
    PinsSame s t ∧ LinesKept s t ∧ OutsideSame s t := by
  have w := exec_writes e
  obtain ⟨hactive, hinited, hhkey⟩ := w.control nofun
  obtain ⟨htrig, hhstep⟩ := w.handler nofun nofun
  have hrow := permitted_rowOut (i := .kpTick) h.run h.keypad h.active nofun rfl e
  have hlines : LinesKept s t :=
    ⟨fun n => (w.bound rfl n).1, fun n => (w.bound rfl n).2, w.enable rfl nofun nofun, w.sticky rfl nofun⟩
  refine ⟨?_, hactive, hinited, htrig, hhstep, hhkey, ⟨hrow, w.pins nofun nofun⟩, hlines, w.outside⟩
  rw [h.exec_kpTick, andThen_eq_next] at e
  obtain ⟨u, hu, ha⟩ := e
  obtain rfl := answerOk_eq_next.mp ha
  rw [tickPhase_frame hu]
  exact ⟨rfl, scan_delay s, scan_mainDelay s⟩

/-- A polling keypad keeps polling. -/
theorem Polling.tick {s t : State} (h : Polling s) (e : exec .kpTick s = .next t) : Polling t where
  run := by
    rw [h.exec_kpTick, andThen_eq_next] at e
    obtain ⟨u, hu, ha⟩ := e
    exact (h.run.scan.tickPhase (by simpa using h.poll) hu).answer ha
  keypad := h.keypad.exec h.run (h.run.poll h.poll).1 (fun _ => rfl) e
  poll := (congrArg Config.variant (exec_writes e).outside.cfg).trans h.poll
  active := ((exec_writes e).control nofun).1.trans h.active

/-! ## Ticks that write nothing -/

/-- From `s` to `t` the keypad has polled on and written no KeyEvent; its phase is now `p` and its count `n`. -/
structure Quiet (s t : State) (p : Phase) (n : Nat) : Prop where
  polling : Polling t
  cfg     : t.cfg = s.cfg
  phase   : t.phase = p
  cnt     : t.cnt = n
  ring    : RingSame s t
  bytes   : BytesSame s t

theorem Quiet.refl {s : State} (h : Polling s) : Quiet s s s.phase s.cnt :=
  ⟨h, rfl, rfl, rfl, ⟨rfl, rfl, rfl, rfl⟩, fun _ => rfl⟩

theorem Quiet.trans {s t u : State} {p q : Phase} {m n : Nat} (h : Quiet s t p m) (k : Quiet t u q n) : Quiet s u q n :=
  ⟨k.polling, k.cfg.trans h.cfg, k.phase, k.cnt,
    ⟨k.ring.rbValid.trans h.ring.rbValid, k.ring.rbCap.trans h.ring.rbCap, k.ring.head.trans h.ring.head,
      k.ring.tail.trans h.ring.tail⟩,
    fun a => (k.bytes a).trans (h.bytes a)⟩

/-- A tick whose phase rule moves the phase and the count only is quiet. -/
theorem Polling.tick_quiet {s u : State} {p : Phase} {n : Nat} (h : Polling s)
    (e : tickPhase s.firstPressed (scan s).1 = .next u) (hu : u = { (scan s).1 with phase := u.phase, cnt := u.cnt })
    (hp : u.phase = p) (hn : u.cnt = n) : ∃ t, exec .kpTick s = .next t ∧ Quiet s t p n := by
  have ht := h.exec_kpTick
  rw [e, hu, hp, hn] at ht
  exact ⟨_, ht, h.tick ht, scan_cfg s, rfl, rfl, ⟨scan_rbValid s, scan_rbCap s, scan_head s, scan_tail s⟩,
    .of (scan_buf s) (scan_cfg s)⟩

/-- What a quiet tick leaves alone, with its answer. -/
theorem Polling.quiet_frame {s t : State} {p : Phase} {n : Nat} (h : Polling s) (e : exec .kpTick s = .next t)
    (q : Quiet s t p n) :
    Answered s t (.ok 0) ∧ t.active = s.active ∧ t.inited = s.inited ∧ t.trig = s.trig ∧ t.hstep = s.hstep ∧ t.hkey = s.hkey ∧
    RingSame s t ∧ BytesSame s t ∧ PinsSame s t ∧ LinesKept s t ∧ OutsideSame s t := by
  obtain ⟨hans, hactive, hinited, htrig, hhstep, hhkey, hsame⟩ := h.tick_frame e
  exact ⟨hans, hactive, hinited, htrig, hhstep, hhkey, q.ring, q.bytes, hsame⟩

/-- A tick with no key sensed ends in `IDLE` from every phase, and only `DEBOUNCE` resets the count (42 R144, R145, R146). -/
theorem Polling.tick_empty {s : State} (h : Polling s) (hk : s.firstPressed = none) :
    ∃ t, exec .kpTick s = .next t ∧ Quiet s t .idle (if s.phase = .debounce then 0 else s.cnt) := by
  cases hp : s.phase with
  | idle =>
    have e : tickPhase s.firstPressed (scan s).1 = .next (scan s).1 := by rw [hk, tickPhase, scan_phase, hp]; rfl
    exact h.tick_quiet e rfl ((scan_phase s).trans hp) (scan_cnt s)
  | debounce =>
    have e : tickPhase s.firstPressed (scan s).1 = .next { (scan s).1 with phase := .idle, cnt := 0 } := by
      rw [hk, tickPhase, scan_phase, hp]; rfl
    exact h.tick_quiet e rfl rfl rfl
  | pressed =>
    have e : tickPhase s.firstPressed (scan s).1 = .next { (scan s).1 with phase := .idle } := by
      rw [hk, tickPhase, scan_phase, hp]; rfl
    exact h.tick_quiet e rfl rfl (scan_cnt s)

section SensedTick
variable {s : State} {k : Key} (h : Polling s) (hk : s.firstPressed = some k)
include h hk

/-- The first sensed tick starts the count at 0 (42 R144). -/
theorem Polling.tick_starts (hp : s.phase = .idle) : ∃ t, exec .kpTick s = .next t ∧ Quiet s t .debounce 0 := by
  have e : tickPhase s.firstPressed (scan s).1 = .next { (scan s).1 with phase := .debounce, cnt := 0 } := by
    rw [hk, tickPhase, scan_phase, hp]; rfl
  exact h.tick_quiet e rfl rfl rfl

/-- A sensed tick below the threshold counts (42 R145). -/
theorem Polling.tick_counts (hp : s.phase = .debounce) (hlt : s.cnt + 1 < s.cfg.debounceThreshold) :
    ∃ t, exec .kpTick s = .next t ∧ Quiet s t .debounce (s.cnt + 1) := by
  have hn := Nat.mod_eq_of_lt (h.run.cnt_fits hp)
  have e : tickPhase s.firstPressed (scan s).1 = .next { (scan s).1 with cnt := s.cnt + 1 } := by
    rw [hk, tickPhase, scan_phase, hp]
    simp [tickDebounce, hn, Nat.not_le.mpr hlt]
  exact h.tick_quiet e rfl ((scan_phase s).trans hp) rfl

/-- A key still held keeps `PRESSED` (42 R146, R148). -/
theorem Polling.tick_holds (hp : s.phase = .pressed) : ∃ t, exec .kpTick s = .next t ∧ Quiet s t .pressed s.cnt := by
  have e : tickPhase s.firstPressed (scan s).1 = .next (scan s).1 := by rw [hk, tickPhase, scan_phase, hp]; rfl
  exact h.tick_quiet e rfl ((scan_phase s).trans hp) (scan_cnt s)

end SensedTick

/-! ## The confirming tick -/

/-- From `s` to `t` the symbol of key `k` was written into the ring, and the phase is `PRESSED` (40 R101, 42 R145). -/
structure Confirmed (s t : State) (k : Key) : Prop where
  phase   : t.phase = .pressed
  cnt     : t.cnt = s.cnt + 1
  rbValid : t.rbValid = s.rbValid
  rbCap   : t.rbCap = s.rbCap
  head    : t.head = (s.head + 1) % s.rbCap
  tail    : t.tail = if (s.head + 1) % s.rbCap = s.tail then (s.tail + 1) % s.rbCap else s.tail
  written : t.memRead (.ring s.head) = s.memRead (.keymap (k.1 * s.cfg.nCols + k.2))
  others  : ∀ a, a ≠ .ring s.head → t.memRead a = s.memRead a

/-- The least pressed key is a key of the matrix. -/
theorem hasKey_of_firstPressed {s : State} {k : Key} (hk : s.firstPressed = some k) : s.cfg.hasKey k = true :=
  mem_keys.mp (List.mem_of_find?_eq_some hk)

/-- A sensed tick at the threshold confirms the key that its own scan returned (42 R145). -/
theorem Polling.tick_confirms {s : State} {k : Key} (h : Polling s) (hp : s.phase = .debounce) (hk : s.firstPressed = some k)
    (hth : s.cfg.debounceThreshold ≤ s.cnt + 1) : ∃ t, exec .kpTick s = .next t ∧ Confirmed s t k := by
  obtain ⟨b, hb, e⟩ := tickDebounce_confirms (s := (scan s).1) h.run.scan (by simpa using (h.keypad.ring h.active).1)
    (by simpa using hasKey_of_firstPressed hk) (by simpa using h.run.cnt_fits hp) (by simpa using hth)
  have ht := h.exec_kpTick
  rw [hk, tickPhase, scan_phase, hp, e] at ht
  have hbuf : (scan s).1.buf.write (scan s).1.head b = s.buf.write s.head b := by rw [scan_buf, scan_head]
  obtain ⟨hnew, hold⟩ := memRead_ring_write (i := s.head) hbuf (exec_writes ht).outside.cfg
  have hsym : s.memRead (.keymap (k.1 * s.cfg.nCols + k.2)) = some b := by simpa [State.memRead] using hb
  refine ⟨_, ht, rfl, ?_, ?_, ?_, ?_, ?_, hnew.trans hsym.symm, hold⟩
  · exact congrArg (· + 1) (scan_cnt s)
  · exact (dropOldest_rbValid _).trans (scan_rbValid s)
  · exact (dropOldest_rbCap _).trans (scan_rbCap s)
  · show ((scan s).1.head + 1) % (scan s).1.rbCap = _
    rw [scan_head, scan_rbCap]
  · refine (dropOldest_tail _).trans ?_
    rw [scan_head, scan_rbCap, scan_tail]

/-- A confirmed key's symbol is the last byte of the queue, which drops its oldest byte when full (40 R101, R107). -/
theorem Confirmed.contents {s t : State} {k : Key} (c : Confirmed s t k) (h : Polling s) {b : Byte}
    (hb : s.memRead (.keymap (k.1 * s.cfg.nCols + k.2)) = some b) :
    t.contents = lastBytes (s.rbCap - 1) (s.contents ++ [b]) :=
  contents_written h.run.ring (h.keypad.ring h.active).1 c.rbValid c.rbCap c.head c.tail (c.written.trans hb) c.others

/-! ## One tick in each phase -/

/-- With a key closed a scan finds one. -/
theorem firstPressed_some {s : State} (h : KeysOk s.cfg s.pressed) (hne : s.pressed ≠ []) : ∃ k, s.firstPressed = some k :=
  Option.ne_none_iff_exists'.mp fun hn => hne ((firstPressed_none h).mp hn)

/-- Settles O35: both outcomes are quiet ticks. -/
theorem tickInIdle : Obligations.TickInIdle := by
  intro s hrun hkeypad hpoll hact hp
  have h : Polling s := ⟨hrun, hkeypad, hpoll, hact⟩
  by_cases hnone : s.pressed = []
  · obtain ⟨t, e, q⟩ := h.tick_empty ((firstPressed_none hrun.keys).mpr hnone)
    obtain ⟨hans, hrest⟩ := h.quiet_frame e q
    exact ⟨t, e, hans, fun _ => ⟨q.phase, by simpa [hp] using q.cnt⟩, absurd hnone, hrest⟩
  · obtain ⟨k, hk⟩ := firstPressed_some hrun.keys hnone
    obtain ⟨t, e, q⟩ := h.tick_starts hk hp
    obtain ⟨hans, hrest⟩ := h.quiet_frame e q
    exact ⟨t, e, hans, (absurd · hnone), fun _ => ⟨q.phase, q.cnt⟩, hrest⟩

/-- Settles O36: a quiet tick with no key or below the threshold, and the confirming tick at it. -/
theorem tickInDebounce : Obligations.TickInDebounce := by
  intro s hrun hkeypad hpoll hact hp
  have h : Polling s := ⟨hrun, hkeypad, hpoll, hact⟩
  cases hk : s.firstPressed with
  | none =>
    obtain ⟨t, e, q⟩ := h.tick_empty hk
    obtain ⟨hans, hrest⟩ := h.tick_frame e
    exact ⟨t, e, hans, fun _ => ⟨q.phase, by simpa [hp] using q.cnt, q.ring, q.bytes⟩, nofun, nofun, hrest⟩
  | some k =>
    by_cases hlt : s.cnt + 1 < s.cfg.debounceThreshold
    · obtain ⟨t, e, q⟩ := h.tick_counts hk hp hlt
      obtain ⟨hans, hrest⟩ := h.tick_frame e
      exact ⟨t, e, hans, nofun, fun _ _ _ => ⟨q.phase, q.cnt, q.ring, q.bytes⟩, fun _ _ hge => absurd hlt (by omega), hrest⟩
    · obtain ⟨t, e, c⟩ := h.tick_confirms hp hk (Nat.not_lt.mp hlt)
      obtain ⟨hans, hrest⟩ := h.tick_frame e
      refine ⟨t, e, hans, nofun, fun _ _ hlt' => absurd hlt' hlt, ?_, hrest⟩
      rintro _ ⟨⟩ -
      exact ⟨c.phase, c.cnt, c.rbValid, c.rbCap, c.head, c.tail, c.written, c.others⟩

/-- Settles O37: both outcomes are quiet ticks that keep the count. -/
theorem tickInPressed : Obligations.TickInPressed := by
  intro s hrun hkeypad hpoll hact hp
  have h : Polling s := ⟨hrun, hkeypad, hpoll, hact⟩
  by_cases hnone : s.pressed = []
  · obtain ⟨t, e, q⟩ := h.tick_empty ((firstPressed_none hrun.keys).mpr hnone)
    obtain ⟨hans, hrest⟩ := h.quiet_frame e q
    exact ⟨t, e, hans, fun _ => q.phase, absurd hnone, by simpa [hp] using q.cnt, hrest⟩
  · obtain ⟨k, hk⟩ := firstPressed_some hrun.keys hnone
    obtain ⟨t, e, q⟩ := h.tick_holds hk hp
    obtain ⟨hans, hrest⟩ := h.quiet_frame e q
    exact ⟨t, e, hans, (absurd · hnone), fun _ => q.phase, q.cnt, hrest⟩

/-! ## Runs of ticks -/

/-- A run ends with the tick of its last keys. -/
theorem tickRun_concat (ls : List (List Key)) (l : List Key) (s : State) :
    tickRun (ls ++ [l]) s = Result.andThen (tickRun ls s) (tickWith l) := by
  induction ls generalizing s with
  | nil =>
    show Result.andThen (tickWith l s) (tickRun []) = tickWith l s
    cases tickWith l s <;> rfl
  | cons m ls ih =>
    show Result.andThen (tickWith m s) (tickRun (ls ++ [l])) = _
    rw [tickRun]
    cases tickWith m s with
    | next u => exact ih u
    | fault r => rfl
    | refused r => rfl

theorem RunOk.setPressed {s : State} {l : List Key} (h : RunOk s) (hl : KeysOk s.cfg l) : RunOk (Machine.setPressed l s) := by
  have hkeys : RunOk { s with
      pressed := l, marks := { s.marks with ghosting := s.marks.ghosting || decide (3 ≤ l.length) } } :=
    { h with ring := h.ring.congr rfl rfl rfl rfl rfl rfl, keys := hl }
  exact hkeys.edgeLatch

theorem KeypadOk.setPressed {s : State} (l : List Key) (h : KeypadOk s) : KeypadOk (Machine.setPressed l s) := by
  have hk := setPressed_kept l s
  exact h.congr (setPressed_active l s) (setPressed_cfg l s) (setPressed_rowOut l s)
    ⟨setPressed_rbValid l s, setPressed_rbCap l s⟩ (fun p _ => congrArg (Vector.get · p.index) (setPressed_pins l s))
    (fun n _ => ⟨hk.port n, hk.edge n, hk.en n⟩) (by simp)

/-- New keys change nothing that a keypad's tick starts from but the keys (30_encoding R89). -/
theorem Polling.press {s : State} {l : List Key} (h : Polling s) (hl : KeysOk s.cfg l) :
    Quiet s (setPressed l s) s.phase s.cnt := by
  obtain ⟨-, -, hring, hbytes, -⟩ := setPressed_same l s
  have polling : Polling (setPressed l s) :=
    ⟨h.run.setPressed hl, h.keypad.setPressed l, by simpa using h.poll, by simpa using h.active⟩
  exact ⟨polling, setPressed_cfg l s, setPressed_phase l s, setPressed_cnt l s, hring, hbytes⟩

/-- The closed keys of a tick that senses one. -/
def Sensed (c : Config) (l : List Key) : Prop := KeysOk c l ∧ l ≠ []

theorem Sensed.firstPressed {s : State} {l : List Key} (h : Sensed s.cfg l) : ∃ k, (setPressed l s).firstPressed = some k :=
  firstPressed_some h.1 h.2

/-- After quiet ticks, one with no key closed returns to `IDLE` with nothing written (42 R147, R148). -/
theorem Quiet.then_empty {s t : State} {p : Phase} {n : Nat} {ls : List (List Key)} (q : Quiet s t p n)
    (e : tickRun ls s = .next t) :
    ∃ u, tickRun (ls ++ [[]]) s = .next u ∧ Quiet s u .idle (if p = .debounce then 0 else n) := by
  have pressed := q.polling.press (l := []) ⟨.nil, nofun⟩
  obtain ⟨u, eu, qu⟩ := pressed.polling.tick_empty ((firstPressed_none pressed.polling.run.keys).mpr rfl)
  rw [pressed.phase, pressed.cnt, q.phase, q.cnt] at qu
  exact ⟨u, by rw [tickRun_concat, e]; exact eu, q.trans (pressed.trans qu)⟩

/-- In `PRESSED` any number of sensed ticks is quiet (42 R148). -/
theorem Polling.tickRun_pressed (ls : List (List Key)) {s : State} (h : Polling s) (hp : s.phase = .pressed)
    (hs : ∀ l ∈ ls, Sensed s.cfg l) : ∃ t, tickRun ls s = .next t ∧ Quiet s t .pressed s.cnt := by
  induction ls generalizing s with
  | nil => exact ⟨s, rfl, hp ▸ .refl h⟩
  | cons l ls ih =>
    obtain ⟨hl, hls⟩ := List.forall_mem_cons.mp hs
    have pressed := h.press hl.1
    obtain ⟨k, hk⟩ := hl.firstPressed
    obtain ⟨u, eu, qu⟩ := pressed.polling.tick_holds hk (pressed.phase.trans hp)
    rw [pressed.cnt] at qu
    have qu := pressed.trans qu
    obtain ⟨t, et, qt⟩ := ih qu.polling qu.phase (qu.cfg ▸ hls)
    rw [qu.cnt] at qt
    exact ⟨t, andThen_eq_next.mpr ⟨u, eu, et⟩, qu.trans qt⟩

/-- In `DEBOUNCE` sensed ticks below the threshold are quiet, and each counts (42 R145). -/
theorem Polling.tickRun_debounce (ls : List (List Key)) {s : State} (h : Polling s) (hp : s.phase = .debounce)
    (hs : ∀ l ∈ ls, Sensed s.cfg l) (hlt : s.cnt + ls.length < max 1 s.cfg.debounceThreshold) :
    ∃ t, tickRun ls s = .next t ∧ Quiet s t .debounce (s.cnt + ls.length) := by
  induction ls generalizing s with
  | nil => exact ⟨s, rfl, hp ▸ .refl h⟩
  | cons l ls ih =>
    obtain ⟨hl, hls⟩ := List.forall_mem_cons.mp hs
    rw [List.length_cons] at hlt ⊢
    have pressed := h.press hl.1
    obtain ⟨k, hk⟩ := hl.firstPressed
    obtain ⟨u, eu, qu⟩ := pressed.polling.tick_counts hk (pressed.phase.trans hp)
      (by rw [pressed.cfg, pressed.cnt]; omega)
    rw [pressed.cnt] at qu
    have qu := pressed.trans qu
    obtain ⟨t, et, qt⟩ := ih qu.polling qu.phase (qu.cfg ▸ hls) (by rw [qu.cfg, qu.cnt]; omega)
    rw [qu.cnt, Nat.add_assoc, Nat.add_comm 1] at qt
    exact ⟨t, andThen_eq_next.mpr ⟨u, eu, et⟩, qu.trans qt⟩

/-- From `IDLE` up to `max(1, threshold)` sensed ticks are quiet: the first starts the count, the others count (42 R144, R147). -/
theorem Polling.tickRun_idle (ls : List (List Key)) {s : State} (h : Polling s) (hp : s.phase = .idle)
    (hs : ∀ l ∈ ls, Sensed s.cfg l) (hpos : 1 ≤ ls.length) (hle : ls.length ≤ max 1 s.cfg.debounceThreshold) :
    ∃ t, tickRun ls s = .next t ∧ Quiet s t .debounce (ls.length - 1) := by
  cases ls with
  | nil => cases hpos
  | cons l ls =>
    obtain ⟨hl, hls⟩ := List.forall_mem_cons.mp hs
    rw [List.length_cons] at hle ⊢
    have pressed := h.press hl.1
    obtain ⟨k, hk⟩ := hl.firstPressed
    obtain ⟨u, eu, qu⟩ := pressed.polling.tick_starts hk (pressed.phase.trans hp)
    have qu := pressed.trans qu
    obtain ⟨t, et, qt⟩ := qu.polling.tickRun_debounce ls qu.phase (qu.cfg ▸ hls) (by rw [qu.cfg, qu.cnt]; omega)
    rw [qu.cnt, Nat.zero_add] at qt
    exact ⟨t, andThen_eq_next.mpr ⟨u, eu, et⟩, qu.trans qt⟩

/-- After quiet ticks up to the threshold, a further sensed tick writes the symbol of its own key (42 R145, R147, R149). -/
theorem Quiet.then_confirms {s t : State} {n : Nat} {l : List Key} (q : Quiet s t .debounce n)
    (hth : s.cfg.debounceThreshold ≤ n + 1) (hl : Sensed s.cfg l) :
    ∃ u k b, tickWith l t = .next u ∧ u.phase = .pressed ∧ (s.cfg.keys.find? fun k => l.contains k) = some k ∧
      s.memRead (.keymap (k.1 * s.cfg.nCols + k.2)) = some b ∧ u.contents = lastBytes (s.rbCap - 1) (s.contents ++ [b]) := by
  have hl' : Sensed t.cfg l := by rw [q.cfg]; exact hl
  have pressed := q.polling.press hl'.1
  have qp := q.trans pressed
  obtain ⟨k, hk⟩ := hl'.firstPressed
  obtain ⟨b, -, hb⟩ := symbol_some qp.polling.run (hasKey_of_firstPressed hk)
  obtain ⟨u, eu, c⟩ := qp.polling.tick_confirms (pressed.phase.trans q.phase) hk
    (by rw [qp.cfg, pressed.cnt, q.cnt]; exact hth)
  have hcon := c.contents qp.polling hb
  rw [qp.ring.rbCap, contents_same qp.ring qp.bytes] at hcon
  rw [qp.bytes, qp.cfg] at hb
  rw [State.firstPressed, qp.cfg] at hk
  exact ⟨u, k, b, eu, c.phase, hk, hb, hcon⟩

/-- Settles O38: quiet ticks up to the threshold; then an empty tick returns to `IDLE`, and one more sensed tick confirms. -/
theorem confirmationBoundary : Obligations.ConfirmationBoundary := by
  intro s ls hrun hkeypad hpoll hact hp hs
  have h : Polling s := ⟨hrun, hkeypad, hpoll, hact⟩
  refine ⟨fun hpos hle => ?_, fun hlen => ?_⟩
  · obtain ⟨t, e, q⟩ := h.tickRun_idle ls hp hs hpos hle
    obtain ⟨u, eu, qu⟩ := q.then_empty e
    exact ⟨⟨t, e, q.phase, by rw [q.cnt]; omega, q.ring, q.bytes⟩, u, eu, qu.phase, qu.cnt, qu.ring, qu.bytes⟩
  · obtain ⟨init, last, rfl⟩ := (List.eq_nil_or_concat' ls).resolve_left (by rintro rfl; cases hlen)
    obtain ⟨hinit, hlast⟩ := List.forall_mem_append.mp hs
    rw [List.length_append, List.length_singleton, Nat.add_right_cancel_iff] at hlen
    obtain ⟨t, e, q⟩ := h.tickRun_idle init hp hinit (by omega) hlen.le
    obtain ⟨u, k, b, eu, hphase, hk, hb, hcon⟩ := q.then_confirms (by omega) (hlast last List.mem_cons_self)
    exact ⟨u, k, b, by rw [tickRun_concat, e]; exact eu, hphase, by simpa using hk, hb, hcon⟩

/-- Settles O39: sensed ticks in `PRESSED` are quiet, and so is the empty tick after them. -/
theorem noAutoRepeat : Obligations.NoAutoRepeat := by
  intro s ls hrun hkeypad hpoll hact hp hs
  have h : Polling s := ⟨hrun, hkeypad, hpoll, hact⟩
  obtain ⟨t, e, q⟩ := h.tickRun_pressed ls hp hs
  obtain ⟨u, eu, qu⟩ := q.then_empty e
  exact ⟨⟨t, e, q.phase, q.cnt, q.ring, q.bytes⟩, u, eu, qu.phase, qu.ring, qu.bytes⟩

end Machine
end Sys2Proof
end

section
/-! PROOFS. `KP.IRQ` and the handler's micro-steps, one by one (O6, O40, O41, O42, O43, O45, O54). -/

namespace Sys2Proof
namespace Machine

/-! ## KDB's move with a handler in progress (43 R167) -/

theorem kdbMove_of_handler {s : State} (hd : s.delay = none) (hh : s.hstep ≠ .h0) : kdbMove s = microStep s := by
  have hi : s.inHandler = true := by simpa [State.inHandler] using hh
  simp [kdbMove, hd, hi]

/-- Settles O6: with no delay running KDB's move is the handler's. -/
theorem stepTakesMicroStep : Obligations.StepTakesMicroStep :=
  fun _ hk hd hh => (step_of_kdbMoves hk).trans (kdbMove_of_handler hd hh)

/-! ## The micro-steps, each with the state it leaves (43 R161 to R166) -/

section MicroSteps
variable {s : State}

theorem microStep_h1 (h : s.hstep = .h1) :
    microStep s = .next { s with lines := (eachCol (enableLine false) s).lines, hstep := .h2 } := by
  rw [microStep, h, stepH1, eachCol_enable_frame]

theorem microStep_h2 (h : s.hstep = .h2) :
    microStep s = if s.cfg.debounceDelayMs = 0 then .next { s with hstep := .h3 }
      else .next (holdDelay .producer ⟨s.ms, s.cfg.debounceDelayMs⟩ s) := by
  rw [microStep, h, stepH2, startDelay_eq, endH2]

theorem microStep_h3 (h : s.hstep = .h3) :
    microStep s = .next { s with
      rowOut := (scan s).1.rowOut, lines := (scan s).1.lines, draws := (scan s).1.draws, marks := (scan s).1.marks
      hkey := (scan s).2, hstep := .h4 } := by
  rw [microStep, h, stepH3]
  dsimp only
  rw [scan_frame s]

theorem microStep_h4_none (h : s.hstep = .h4) (hk : s.hkey = none) : microStep s = .next { s with hstep := .h5 } := by
  rw [microStep, h, stepH4, hk]

/-- Only the oldest byte's place may move when a full ring drops it (40 R101). -/
theorem dropOldest_frame (s : State) : dropOldest s = { s with tail := (dropOldest s).tail } := by
  unfold dropOldest
  split <;> rfl

theorem microStep_h4_some {k : Key} (hrun : RunOk s) (hv : s.rbValid = true) (h : s.hstep = .h4) (hk : s.hkey = some k) :
    ∃ b, s.memRead (.keymap (k.1 * s.cfg.nCols + k.2)) = some b ∧
      microStep s = .next { s with
        buf := s.buf.write s.head b, head := s.next s.head, tail := (dropOldest s).tail, hstep := .h5 } := by
  obtain ⟨b, hb, e⟩ := reportKey_spec hrun hv (hrun.hkey k hk)
  have e' : microStep s = .next { dropOldest s with buf := s.buf.write s.head b, head := s.next s.head, hstep := .h5 } := by
    simp only [microStep, h, stepH4, hk, e, andThen_next]
  refine ⟨b, hb, e'.trans ?_⟩
  rw [dropOldest_frame]

theorem microStep_h5 (h : s.hstep = .h5) :
    microStep s = .next { s with lines := (eachCol clearLine s).lines, hstep := .h6 } := by
  rw [microStep, h, stepH5, eachCol_clear_frame]

theorem microStep_h6 (h : s.hstep = .h6) :
    microStep s = .next { s with
      lines := (eachCol (enableLine true) s).lines, hstep := .h0, hkey := none, resp := some (.ok 0) } := by
  rw [microStep, h, stepH6, returnFromHandler, answerOk_eq_next, eachCol_enable_frame]

end MicroSteps

/-- A micro-step over the lines leaves all but the lines and `hstep` alone (43 R161, R165). -/
theorem linesStep_same {s t : State} (e : t = { s with lines := t.lines, hstep := t.hstep }) :
    t.active = s.active ∧ t.inited = s.inited ∧ t.phase = s.phase ∧ t.cnt = s.cnt ∧ t.trig = s.trig ∧ t.hkey = s.hkey ∧
    t.resp = s.resp ∧ DelaysSame s t ∧ RingSame s t ∧ BytesSame s t ∧ PinsSame s t ∧ OutsideSame s t := by
  rw [e]
  exact ⟨rfl, rfl, rfl, rfl, rfl, rfl, rfl, ⟨rfl, rfl⟩, ⟨rfl, rfl, rfl, rfl⟩, .of rfl rfl, ⟨rfl, fun _ => rfl⟩,
    ⟨rfl, rfl, rfl, rfl, rfl, rfl, rfl⟩⟩

/-! ## `H0` (43 R160) -/

theorem exec_kpIrq_free {s : State} (hv : s.cfg.variant = .interrupt) (ha : s.active = true) (hh : s.hstep = .h0)
    (v : BitVec 4) :
    exec (.kpIrq v) s = if s.pendingCols = 0 then .next { s with trig := 0, resp := some (.ok 0) }
      else .next (enterHandler s) := by
  simp [exec, execKpIrq, hv, ha, State.inHandler, hh, answerOk, answer, Marks.note]

/-- Bit `n` of `trig` after `H0` says whether line `n` is a pending column line (45 R198). -/
theorem pendingCols_bit (s : State) (n : Fin 16) :
    s.pendingCols.getLsbD n.val = (s.cfg.isColLine n && (s.line n).pend) :=
  maskOf_bit _ n

/-- Settles O40: `trig` is zero exactly when no column line is pending; either outcome writes `trig`, `hstep` and the answer only. -/
theorem handlerEntry : Obligations.HandlerEntry := by
  intro v s hv ha hh
  have hexec := exec_kpIrq_free hv ha hh
  have hzero := pendingCols_eq_zero s
  by_cases hz : s.pendingCols = 0
  · simp only [hz, if_true] at hexec
    refine ⟨_, hexec v, fun n => ?_, fun ⟨n, hn, hp⟩ => ?_, fun _ => ⟨hh, rfl, rfl, rfl, rfl⟩, rfl, rfl, rfl, rfl, rfl,
      ⟨rfl, rfl, rfl, rfl⟩, .of rfl rfl, ⟨rfl, fun _ => rfl⟩, fun _ => rfl, ⟨rfl, rfl, rfl, rfl, rfl, rfl, rfl⟩, hexec⟩
    · rw [← pendingCols_bit, hz]
    · rw [hzero.mp hz n hn] at hp
      cases hp
  · simp only [hz, if_false] at hexec
    exact ⟨_, hexec v, pendingCols_bit s, fun _ => ⟨rfl, rfl, rfl, rfl⟩, fun hnone => absurd (hzero.mpr hnone) hz, rfl, rfl, rfl,
      rfl, rfl, ⟨rfl, rfl, rfl, rfl⟩, .of rfl rfl, ⟨rfl, fun _ => rfl⟩, fun _ => rfl, ⟨rfl, rfl, rfl, rfl, rfl, rfl, rfl⟩, hexec⟩

/-! ## `H1` (43 R161) -/

/-- Settles O41: a line of the vector that requests would be a column line, which is disabled. -/
theorem handlerDisablesColumns : Obligations.HandlerDisablesColumns := by
  intro s h
  have hline := eachCol_enable_line false s
  refine ⟨_, microStep_h1 h, rfl, hline, fun v hcols => ?_, linesStep_same rfl⟩
  rw [← Bool.not_eq_true, vreq_iff]
  rintro ⟨n, hn, -, hen⟩
  have hoff : ((eachCol (enableLine false) s).line n).en = true := hen
  rw [hline, if_pos (hcols n hn)] at hoff
  cases hoff

/-! ## `H2` (43 R162) -/

/-- A micro-step of the wait leaves all but `hstep`, the answer and the producer's delay alone (43 R162). -/
theorem waitStep_same {s t : State} (e : t = { s with hstep := t.hstep, resp := t.resp, delay := t.delay }) :
    t.hkey = s.hkey ∧ t.trig = s.trig ∧ t.mainDelay = s.mainDelay ∧ t.active = s.active ∧ t.inited = s.inited ∧
    t.phase = s.phase ∧ t.cnt = s.cnt ∧ RingSame s t ∧ BytesSame s t ∧ PinsSame s t ∧ LinesSame s t ∧ OutsideSame s t := by
  rw [e]
  exact ⟨rfl, rfl, rfl, rfl, rfl, rfl, rfl, ⟨rfl, rfl, rfl, rfl⟩, .of rfl rfl, ⟨rfl, fun _ => rfl⟩, fun _ => rfl,
    ⟨rfl, rfl, rfl, rfl, rfl, rfl, rfl⟩⟩

theorem kdbMove_of_waiting {s : State} {d : Delay} (hd : s.delay = some d) (hlt : s.cfg.elapsed d.t0 s.ms < d.m) :
    kdbMove s = .next s := by
  have ho : s.delayOver d = false := by rw [← Bool.not_eq_true, delayOver_iff]; omega
  simp [kdbMove, hd, ho]

theorem kdbMove_of_waited {s : State} {d : Delay} (hh : s.hstep = .h2) (hd : s.delay = some d)
    (hle : d.m ≤ s.cfg.elapsed d.t0 s.ms) : kdbMove s = .next { s with delay := none, hstep := .h3 } := by
  simp [kdbMove, hd, delayOver_iff.mpr hle, endDelay, State.inHandler, hh, endH2]

/-- Settles O54: `H2` starts the delay or passes at once, and the delay is looked at in each of KDB's moves. -/
theorem handlerWaitsDebounceDelay : Obligations.HandlerWaitsDebounceDelay := by
  intro s h
  have busy : s.hstep ≠ .h0 := by simp [h]
  refine ⟨fun hd hne => ?_, fun hd hz => ?_, fun d hd hlt => kdbMove_of_waiting hd hlt, fun d hd hle => ?_⟩
  · have e := (kdbMove_of_handler hd busy).trans (microStep_h2 h)
    rw [if_neg hne] at e
    exact ⟨_, e, h, rfl, waitStep_same rfl⟩
  · have e := (kdbMove_of_handler hd busy).trans (microStep_h2 h)
    rw [if_pos hz] at e
    exact ⟨_, e, rfl, hd, waitStep_same rfl⟩
  · exact ⟨_, kdbMove_of_waited h hd hle, rfl, rfl, waitStep_same rfl⟩

/-! ## `H3` and `H4` (43 R163, R164) -/

/-- Settles O42: the scan from rows at rest finds the least key; a key found is one of the matrix, so it has a symbol, and the ring is
the keypad's, so it takes the byte. -/
theorem handlerScansAndReports : Obligations.HandlerScansAndReports := by
  refine fun s hrun hkeypad hv ha => ⟨fun h => ?_, fun h => ?_⟩
  · obtain ⟨hkey, hrows⟩ := scan_rest (hrun.active ha).2 hrun.rows (hkeypad.rest ha)
    have hkept := scan_kept s
    exact ⟨_, microStep_h3 h, rfl, hkey, rfl, rfl, rfl, rfl, rfl, rfl, ⟨rfl, rfl⟩, ⟨rfl, rfl, rfl, rfl⟩, .of rfl rfl,
      ⟨hrows, fun _ => rfl⟩, ⟨hkept.port, hkept.edge, hkept.en, hkept.pend⟩, ⟨rfl, rfl, rfl, rfl, rfl, rfl, rfl⟩⟩
  · cases hk : s.hkey with
    | none =>
      exact ⟨_, microStep_h4_none h hk, rfl, fun _ => ⟨⟨rfl, rfl, rfl, rfl⟩, .of rfl rfl⟩, nofun, rfl, rfl, rfl, rfl, rfl, hk,
        rfl, ⟨rfl, rfl⟩, ⟨rfl, fun _ => rfl⟩, fun _ => rfl, ⟨rfl, rfl, rfl, rfl, rfl, rfl, rfl⟩⟩
    | some k =>
      obtain ⟨b, hb, e⟩ := microStep_h4_some hrun (hkeypad.ring ha).1 h hk
      refine ⟨_, e, rfl, nofun, ?_, rfl, rfl, rfl, rfl, rfl, hk, rfl, ⟨rfl, rfl⟩, ⟨rfl, fun _ => rfl⟩, fun _ => rfl,
        ⟨rfl, rfl, rfl, rfl, rfl, rfl, rfl⟩⟩
      rintro _ ⟨⟩
      exact ⟨rfl, rfl, rfl, dropOldest_tail s, Eq.trans (And.left (memRead_ring_write (s := s) rfl rfl)) hb.symm,
        And.right (memRead_ring_write (s := s) rfl rfl)⟩

/-! ## `H5` and `H6` (43 R165, R166) -/

/-- Settles O43: both micro-steps are one operation over every column line. -/
theorem handlerClearsThenEnables : Obligations.HandlerClearsThenEnables := by
  refine fun s => ⟨fun h => ?_, fun h => ?_⟩
  · exact ⟨_, microStep_h5 h, rfl, eachCol_clear_line s, linesStep_same rfl⟩
  · exact ⟨_, microStep_h6 h, rfl, rfl, ⟨rfl, rfl, rfl⟩, eachCol_enable_line true s, rfl, rfl, rfl, rfl, rfl,
      ⟨rfl, rfl, rfl, rfl⟩, .of rfl rfl, ⟨rfl, fun _ => rfl⟩, ⟨rfl, rfl, rfl, rfl, rfl, rfl, rfl⟩⟩

/-- Enabling the column lines sets no pending flag (45 R187). -/
theorem eachCol_enable_pend (b : Bit) (s : State) (n : Fin 16) :
    ((eachCol (enableLine b) s).line n).pend = (s.line n).pend := by
  rw [eachCol_enable_line]
  split <;> rfl

theorem eachCol_clear_pend {s : State} {n : Fin 16} (h : s.cfg.isColLine n = true) :
    ((eachCol clearLine s).line n).pend = false := by
  rw [eachCol_clear_line, if_pos h]

/-- `H5` then `H6` move only the lines, `hstep`, the carried key and the answer, and leave no column line pending (43 R165, R166). -/
theorem clearedThenEnabled {s t u : State} (h : s.hstep = .h5) (e1 : microStep s = .next t) (e2 : microStep t = .next u) :
    u = { s with lines := u.lines, hstep := .h0, hkey := none, resp := some (.ok 0) } ∧
    ∀ n, s.cfg.isColLine n = true → (u.line n).pend = false := by
  cases (microStep_h5 h).symm.trans e1
  cases (microStep_h6 rfl).symm.trans e2
  exact ⟨rfl, fun n hn => (eachCol_enable_pend true _ n).trans (eachCol_clear_pend hn)⟩

/-- Settles O45: `H5` has cleared every column line and `H6` has set no flag, so `H0` finds none pending. -/
theorem noDoubleEnqueue : Obligations.NoDoubleEnqueue := by
  intro s t u v hv ha h e1 e2
  obtain ⟨hu, hpend⟩ := clearedThenEnabled h e1 e2
  have hcfg : u.cfg = s.cfg := by rw [hu]
  have hidle : u.hstep = .h0 := by rw [hu]
  have hexec := exec_kpIrq_free (s := u) (by rw [hcfg, hv]) (by rw [hu]; exact ha) hidle v
  rw [if_pos ((pendingCols_eq_zero u).mpr (hcfg ▸ hpend))] at hexec
  have hring : RingSame s { u with trig := 0, resp := some (.ok 0) } := by rw [hu]; exact ⟨rfl, rfl, rfl, rfl⟩
  exact ⟨_, hexec, hidle, rfl, ⟨rfl, rfl, rfl⟩, hring, .of (by rw [hu]) hcfg, ⟨rfl, fun _ => rfl⟩, fun _ => rfl⟩

end Machine
end Sys2Proof
end

section
/-! PROOFS. A whole invocation of the handler, under every schedule that lets the delay pass (O44). -/

namespace Sys2Proof
namespace Machine

/-! ## What a step makes of the schedule -/

theorem kdbMove_sched {s t : State} (e : kdbMove s = .next t) : t.sched = s.sched := by
  rcases kdbMove_cases s with ⟨d, -, -, em⟩ | ⟨d, -, -, em⟩ | ⟨-, hh, em⟩ | ⟨-, -, w, u, hf, em⟩ | ⟨-, -, -, em⟩ <;>
    rw [em] at e
  · cases e
    rfl
  · rcases endDelay_cases e with ⟨-, rfl⟩ | rfl <;> rfl
  · rw [(microStep_move hh e).frame]
  · have hu : u.sched = s.sched := by rw [fetch_frame hf]
    rcases runWord_cases e with ⟨i, -, ex⟩ | ⟨-, ha⟩
    · exact (exec_writes ex).outside.sched.trans hu
    · cases answer_eq_next.mp ha
      exact hu
  · rcases idleMove_cases s with em' | ⟨d, -, -, em'⟩ <;> rw [em'] at e <;> cases e <;> rfl

theorem envStep_sched (v : EnvStep) (s : State) : (envStep v s).sched = s.sched := by
  rcases envStep_cases v s with e | ⟨l, e, -⟩ | ⟨d, e⟩ <;> rw [e] <;> rfl

/-- `t` differs from `s` at most in the clock, the port's words, the schedule, the marks and the draws. -/
def Aside (s t : State) : Prop :=
  t = { s with ms := t.ms, producer := t.producer, consumer := t.consumer, sched := t.sched, marks := t.marks, draws := t.draws }

theorem Aside.trans {s t u : State} (h : Aside s t) (k : Aside t u) : Aside s u := by
  unfold Aside at *
  rw [k, h]

theorem makeReady_aside (c : Context) (w : CmdWord) (s : State) : Aside s (makeReady c w s) := by
  cases c <;> rfl

/-- Bringing a word to the port moves neither the clock nor the schedule (45 R195). -/
theorem serve_aside (s : State) : Aside s (serve s) ∧ (serve s).ms = s.ms ∧ (serve s).sched = s.sched := by
  unfold serve
  split <;> exact ⟨rfl, rfl, rfl⟩

/-- Every step takes its move off the schedule (log entry 3). -/
theorem step_sched {s t : State} (e : step s = .next t) : t.sched = s.sched.tail := by
  rcases step_cases s with ⟨-, em⟩ | ⟨v, l, hs, em⟩ | ⟨c, w, l, hs, em⟩ | ⟨l, hs, em⟩ <;> rw [em] at e
  · exact kdbMove_sched e
  all_goals
    cases e
    rw [hs]
  · exact envStep_sched v _
  · exact makeReady_sched c w _
  · exact (serve_aside _).2.2

/-- A move that is not KDB's and changes no key only advances the clock, by what it adds, or acts at the port. -/
theorem step_aside {s : State} {m : Move} {l : List Move} (hs : s.sched = m :: l) (hm : m ≠ .kdb) (hk : m.changesKeys = false)
    (hms : s.ms < 2 ^ s.cfg.msW) :
    ∃ t, step s = .next t ∧ Aside s t ∧ t.sched = l ∧ t.ms = (s.ms + msAdded [m]) % 2 ^ s.cfg.msW := by
  have still : (s.ms + 0) % 2 ^ s.cfg.msW = s.ms := Nat.mod_eq_of_lt hms
  have unscheduled : Aside s { s with sched := l } := rfl
  cases m with
  | kdb => exact absurd rfl hm
  | env v =>
    cases v with
    | press k => cases hk
    | release k => cases hk
    | ms d => exact ⟨_, step_of_sched hs, rfl, rfl, rfl⟩
  | ready c w =>
    exact ⟨_, step_of_sched hs, unscheduled.trans (makeReady_aside c w _), makeReady_sched c w _,
      (makeReady_ms c w _).trans still.symm⟩
  | serve =>
    obtain ⟨ha, hclock, hsched⟩ := serve_aside { s with sched := l }
    exact ⟨_, step_of_sched hs, unscheduled.trans ha, hsched, hclock.trans still.symm⟩

/-! ## Counting moves and milliseconds -/

theorem kdbCount_kdb (l : List Move) : kdbCount (.kdb :: l) = kdbCount l + 1 := List.countP_cons_of_pos rfl

theorem kdbCount_other {m : Move} (hm : m ≠ .kdb) (l : List Move) : kdbCount (m :: l) = kdbCount l :=
  List.countP_cons_of_neg (by simpa using hm)

theorem kdbCount_append (l m : List Move) : kdbCount (l ++ m) = kdbCount l + kdbCount m := List.countP_append

theorem kdb_mem_of_count {l : List Move} (h : 0 < kdbCount l) : .kdb ∈ l := by
  obtain ⟨m, hm, e⟩ := List.countP_pos_iff.mp h
  exact beq_iff_eq.mp e ▸ hm

theorem msAdded_cons (m : Move) (l : List Move) : msAdded (m :: l) = msAdded [m] + msAdded l := by
  cases m with
  | env v => cases v <;> simp [msAdded]
  | _ => simp [msAdded]

theorem msAdded_append (l m : List Move) : msAdded (l ++ m) = msAdded l + msAdded m := by
  induction l with
  | nil => simp [msAdded]
  | cons a l ih => rw [List.cons_append, msAdded_cons, ih, msAdded_cons a l, Nat.add_assoc]

/-- The elapsed time follows the clock up to a round of it (46 R217). -/
theorem elapsed_advance {c : Config} {t0 ms d : Nat} (h0 : t0 < 2 ^ c.msW) (hlt : c.elapsed t0 ms + d < 2 ^ c.msW) :
    c.elapsed t0 ((ms + d) % 2 ^ c.msW) = c.elapsed t0 ms + d := by
  unfold Config.elapsed at *
  simp only [Nat.add_sub_assoc h0.le] at *
  calc ((ms + d) % 2 ^ c.msW + (2 ^ c.msW - t0)) % 2 ^ c.msW
    _ = (ms + (2 ^ c.msW - t0) + d) % 2 ^ c.msW := by rw [Nat.mod_add_mod, Nat.add_right_comm]
    _ = ((ms + (2 ^ c.msW - t0)) % 2 ^ c.msW + d) % 2 ^ c.msW := by rw [Nat.mod_add_mod]
    _ = (ms + (2 ^ c.msW - t0)) % 2 ^ c.msW + d := Nat.mod_eq_of_lt hlt

/-! ## What holds along an invocation -/

/-- `t` is reached from `s` within a handler invocation, with the same keys closed, and no move to come changes them. -/
structure Invoked (s t : State) : Prop where
  run     : RunOk t
  keypad  : KeypadOk t
  active  : t.active = true
  cfg     : t.cfg = s.cfg
  pressed : t.pressed = s.pressed
  keys    : ∀ m ∈ t.sched, m.changesKeys = false

theorem Invoked.firstPressed {s t : State} (h : Invoked s t) : t.firstPressed = s.firstPressed := by
  simp only [State.firstPressed, h.cfg, h.pressed]

theorem Invoked.unscheduled {s t : State} (h : Invoked s t) : Invoked s { t with sched := t.sched.tail } where
  run := h.run.port ⟨rfl, .inl rfl, .inl rfl⟩
  keypad := h.keypad.port ⟨rfl, .inl rfl, .inl rfl⟩
  active := h.active
  cfg := h.cfg
  pressed := h.pressed
  keys := fun m hm => h.keys m (List.mem_of_mem_tail hm)

/-- While a handler is in progress no operation is issued, so none can offend against ownership (45 R194). -/
theorem owned_of_busy {s : State} (busy : s.hstep ≠ .h0) : Owned s := by
  intro _ i hi
  simp [State.issuing, State.inHandler, busy] at hi

/-- A step that the schedule gives to KDB, or to a move that changes no key, leaves the closed keys alone. -/
theorem step_pressed {s t : State} (hk : ∀ m ∈ s.sched, m.changesKeys = false) (hms : s.ms < 2 ^ s.cfg.msW)
    (e : step s = .next t) : t.pressed = s.pressed := by
  by_cases henv : ∃ v, s.sched.head? = some (.env v)
  · obtain ⟨v, hv⟩ := henv
    have hs := List.eq_cons_of_mem_head? hv
    obtain ⟨u, eu, ha, -⟩ := step_aside hs nofun (hk _ (List.mem_of_mem_head? hv)) hms
    cases eu.symm.trans e
    rw [ha]
  · exact ((onlyEnvironmentMovesTimeAndKeys s t e).2 (not_exists.mp henv)).2

theorem Invoked.step {s t u : State} (h : Invoked s t) (busy : t.hstep ≠ .h0) (e : step t = .next u) : Invoked s u where
  run := stepKeepsInvariant t u h.run e
  keypad := stepKeepsKeypad t u h.run h.keypad (owned_of_busy busy) e
  active := (step_control (h.run.active h.active).1 e).1.trans h.active
  cfg := (onlyEnvironmentMovesTimeAndKeys t u e).1.trans h.cfg
  pressed := (step_pressed h.keys h.run.clock.1 e).trans h.pressed
  keys := by
    rw [step_sched e]
    exact fun m hm => h.keys m (List.mem_of_mem_tail hm)

/-- Nothing has been written into the ring since `s`. -/
structure Unreported (s t : State) : Prop where
  ring  : RingSame s t
  bytes : BytesSame s t

theorem Unreported.trans {s t u : State} (h : Unreported s t) (k : Unreported t u) : Unreported s u :=
  ⟨⟨k.ring.rbValid.trans h.ring.rbValid, k.ring.rbCap.trans h.ring.rbCap, k.ring.head.trans h.ring.head,
    k.ring.tail.trans h.ring.tail⟩, fun a => (k.bytes a).trans (h.bytes a)⟩

theorem Unreported.contents {s t : State} (h : Unreported s t) : t.contents = s.contents := contents_same h.ring h.bytes

/-- The ring holds one more KeyEvent than at `s` if a key is held, and no more if none is (43 R164). -/
def Reported (s t : State) : Prop :=
  (s.firstPressed = none → t.contents = s.contents) ∧
  ∀ k, s.firstPressed = some k → ∃ b, s.memRead (.keymap (k.1 * s.cfg.nCols + k.2)) = some b ∧
    t.contents = lastBytes (s.rbCap - 1) (s.contents ++ [b])

theorem Reported.congr {s t u : State} (h : Reported s t) (k : u.contents = t.contents) : Reported s u := by
  unfold Reported
  rw [k]
  exact h

theorem Aside.unreported {s t : State} (h : Aside s t) : Unreported s t := by
  rw [h]
  exact ⟨⟨rfl, rfl, rfl, rfl⟩, .of rfl rfl⟩

/-- A move aside touches neither the handler nor the lines. -/
theorem Aside.same {s t : State} (h : Aside s t) :
    t.hstep = s.hstep ∧ t.delay = s.delay ∧ t.hkey = s.hkey ∧ t.cfg = s.cfg ∧ LinesSame s t := by
  rw [h]
  exact ⟨rfl, rfl, rfl, rfl, fun _ => rfl⟩

/-! ## The handler from `H3` to its return -/

/-- The handler invoked at `s` has returned (43 R166). -/
structure Returned (s t : State) : Prop where
  hstep    : t.hstep = .h0
  hkey     : t.hkey = none
  resp     : t.resp = some (.ok 0)
  delay    : t.delay = none
  lines    : ∀ n, s.cfg.isColLine n = true → (t.line n).en = true ∧ (t.line n).pend = false
  reported : Reported s t

/-- How far the handler invoked at `s` has come past `H2`: `Stage s n t` says that `n` moves of KDB are left from `t` to its return. -/
inductive Stage (s : State) : Nat → State → Prop
  | scan {t : State} (at3 : t.hstep = .h3) (free : t.delay = none) (unreported : Unreported s t) : Stage s 4 t
  | report {t : State} (at4 : t.hstep = .h4) (free : t.delay = none) (key : t.hkey = s.firstPressed)
      (unreported : Unreported s t) : Stage s 3 t
  | clear {t : State} (at5 : t.hstep = .h5) (free : t.delay = none) (reported : Reported s t) : Stage s 2 t
  | enable {t : State} (at6 : t.hstep = .h6) (free : t.delay = none) (reported : Reported s t)
      (cleared : ∀ n, s.cfg.isColLine n = true → (t.line n).pend = false) : Stage s 1 t
  | returned {t : State} (done : Returned s t) : Stage s 0 t

theorem Stage.busy {s t : State} {n : Nat} (h : Stage s (n + 1) t) : t.hstep ≠ .h0 ∧ t.delay = none := by
  cases h <;> simp_all

/-- The other agents do not move the handler. -/
theorem Stage.aside {s t u : State} {n : Nat} (h : Stage s (n + 1) t) (a : Aside t u) : Stage s (n + 1) u := by
  obtain ⟨hstep, hdelay, hkey, -, hlines⟩ := a.same
  have hring := a.unreported
  cases h with
  | scan at3 free un => exact .scan (hstep.trans at3) (hdelay.trans free) (un.trans hring)
  | report at4 free key un => exact .report (hstep.trans at4) (hdelay.trans free) (hkey.trans key) (un.trans hring)
  | clear at5 free re => exact .clear (hstep.trans at5) (hdelay.trans free) (re.congr hring.contents)
  | enable at6 free re cleared =>
    exact .enable (hstep.trans at6) (hdelay.trans free) (re.congr hring.contents) fun n hn => by rw [hlines n, cleared n hn]

/-- `H4` leaves in the ring the symbol of the key that `H3` found, if any (43 R164). -/
theorem Invoked.reports {s t : State} (inv : Invoked s t) (at4 : t.hstep = .h4) (key : t.hkey = s.firstPressed)
    (un : Unreported s t) : ∃ u, microStep t = .next u ∧ u.hstep = .h5 ∧ u.delay = t.delay ∧ Reported s u := by
  have hv := inv.run.interrupt (by simp [at4])
  obtain ⟨u, e, hstep, hnone, hsome, -, -, -, -, -, -, -, hdelays, -⟩ :=
    (handlerScansAndReports t inv.run inv.keypad hv inv.active).2 at4
  refine ⟨u, e, hstep, hdelays.delay, fun hk => ?_, fun k hk => ?_⟩
  · obtain ⟨hring, hbytes⟩ := hnone (key.trans hk)
    exact (un.trans ⟨hring, hbytes⟩).contents
  · obtain ⟨hvalid, hcap, hhead, htail, hnew, hold⟩ := hsome k (key.trans hk)
    obtain ⟨b, -, hb⟩ := symbol_some inv.run (inv.run.hkey k (key.trans hk))
    have hcon := contents_written inv.run.ring (inv.keypad.ring inv.active).1 hvalid hcap hhead htail (hnew.trans hb) hold
    rw [un.ring.rbCap, un.contents] at hcon
    rw [un.bytes, inv.cfg] at hb
    exact ⟨b, hb, hcon⟩

/-- Each micro-step brings the handler one stage on (43 R163 to R166). -/
theorem Stage.micro {s t : State} {n : Nat} (h : Stage s (n + 1) t) (inv : Invoked s t) :
    ∃ u, microStep t = .next u ∧ Stage s n u := by
  obtain ⟨busy, -⟩ := h.busy
  obtain ⟨hclears, henables⟩ := handlerClearsThenEnables t
  cases h with
  | scan at3 free un =>
    obtain ⟨u, e, hstep, hkey, -, -, -, -, -, -, hdelays, hring, hbytes, -⟩ :=
      (handlerScansAndReports t inv.run inv.keypad (inv.run.interrupt busy) inv.active).1 at3
    exact ⟨u, e, .report hstep (hdelays.delay.trans free) (hkey.trans inv.firstPressed) (un.trans ⟨hring, hbytes⟩)⟩
  | report at4 free key un =>
    obtain ⟨u, e, hstep, hdelay, re⟩ := inv.reports at4 key un
    exact ⟨u, e, .clear hstep (hdelay.trans free) re⟩
  | clear at5 free re =>
    obtain ⟨u, e, hstep, hlines, -, -, -, -, -, -, -, hdelays, hring, hbytes, -⟩ := hclears at5
    refine ⟨u, e, .enable hstep (hdelays.delay.trans free) (re.congr (contents_same hring hbytes)) fun n hn => ?_⟩
    rw [hlines, inv.cfg, if_pos hn]
  | enable at6 free re cleared =>
    obtain ⟨u, e, hstep, hkey, hans, hlines, -, -, -, -, -, hring, hbytes, -⟩ := henables at6
    refine ⟨u, e, .returned ⟨hstep, hkey, hans.resp, hans.delays.delay.trans free, fun n hn => ?_,
      re.congr (contents_same hring hbytes)⟩⟩
    rw [hlines, inv.cfg, if_pos hn]
    exact ⟨rfl, cleared n hn⟩

/-! ## Steps within the schedule -/

/-- From `t`, no more steps than the schedule has moves carry the handler invoked at `s` to its return. -/
def Returns (s t : State) : Prop :=
  ∃ n u, n ≤ t.sched.length ∧ Host.Core.run core n t = .next u ∧ Invoked s u ∧ Returned s u

theorem Returns.here {s t : State} (inv : Invoked s t) (h : Stage s 0 t) : Returns s t := by
  cases h with
  | returned done => exact ⟨0, t, Nat.zero_le _, rfl, inv, done⟩

/-- A run begins with one step. -/
theorem run_succ {M : Host.Core} {s t : M.State} (n : Nat) (e : M.step s = .next t) : M.run (n + 1) s = M.run n t := by
  rw [Host.Core.run, e]

theorem Returns.step {s t u : State} {m : Move} {l : List Move} (hs : t.sched = m :: l) (e : Machine.step t = .next u)
    (h : Returns s u) : Returns s t := by
  obtain ⟨n, v, hn, hrun, hv⟩ := h
  refine ⟨n + 1, v, ?_, ?_, hv⟩
  · rw [step_sched e, hs, List.tail_cons] at hn
    rw [hs, List.length_cons]
    omega
  · exact (run_succ (M := core) n e).trans hrun

theorem kdbMoves_of_sched {s : State} {l : List Move} (hs : s.sched = .kdb :: l) : s.kdbMoves = true := by
  simp [State.kdbMoves, hs]

/-- Past `H2` the handler returns when the schedule has as many moves of KDB as it has stages left. -/
theorem Stage.returns {s t : State} {n : Nat} (h : Stage s n t) (inv : Invoked s t) (hn : n ≤ kdbCount t.sched) :
    Returns s t := by
  induction hs : t.sched generalizing n t with
  | nil =>
    rw [hs] at hn
    cases Nat.le_zero.mp hn
    exact .here inv h
  | cons m l ih =>
    cases n with
    | zero => exact .here inv h
    | succ n =>
      obtain ⟨busy, free⟩ := h.busy
      by_cases hm : m = .kdb
      · subst hm
        obtain ⟨u, e, hu⟩ := Stage.micro (h.aside (u := { t with sched := t.sched.tail }) rfl) inv.unscheduled
        have e' := (stepTakesMicroStep t (kdbMoves_of_sched hs) free busy).trans e
        have hl : u.sched = l := by rw [step_sched e', hs, List.tail_cons]
        rw [hs, kdbCount_kdb] at hn
        exact .step hs e' (ih hu (inv.step busy e') (by rw [hl]; omega) hl)
      · obtain ⟨u, e, ha, hl, -⟩ := step_aside hs hm (inv.keys m (hs ▸ List.mem_cons_self)) inv.run.clock.1
        rw [hs, kdbCount_other hm] at hn
        exact .step hs e (ih (h.aside ha) (inv.step busy e) (by rw [hl]; exact hn) hl)

/-- Moves aside before the next move of KDB do not keep the handler from returning. -/
theorem returns_after_asides {s t : State} {a l : List Move} (inv : Invoked s t) (busy : t.hstep ≠ .h0)
    (hs : t.sched = a ++ l) (ha : kdbCount a = 0)
    (h : ∀ u, Invoked s u → Aside t u → u.sched = l → Returns s u) : Returns s t := by
  induction a generalizing t with
  | nil => exact h t inv rfl hs
  | cons m a ih =>
    have hm : m ≠ .kdb := by
      rintro rfl
      simp [kdbCount_kdb] at ha
    rw [kdbCount_other hm] at ha
    obtain ⟨u, e, hu, hl, -⟩ := step_aside hs hm (inv.keys m (hs ▸ List.mem_cons_self)) inv.run.clock.1
    obtain ⟨hstep, -⟩ := hu.same
    exact .step hs e (ih (inv.step busy e) (by rw [hstep]; exact busy) hl ha fun v hv k => h v hv (hu.trans k))

/-! ## The wait (43 R162) -/

/-- The handler invoked at `s` waits in `H2` for the delay `d`. -/
structure Waiting (s : State) (d : Delay) (t : State) : Prop where
  at2        : t.hstep = .h2
  delay      : t.delay = some d
  unreported : Unreported s t

theorem Waiting.busy {s t : State} {d : Delay} (h : Waiting s d t) : t.hstep ≠ .h0 := by
  simp [h.at2]

theorem Waiting.aside {s t u : State} {d : Delay} (h : Waiting s d t) (a : Aside t u) : Waiting s d u := by
  obtain ⟨hstep, hdelay, -⟩ := a.same
  exact ⟨hstep.trans h.at2, hdelay.trans h.delay, h.unreported.trans a.unreported⟩

/-- With the delay over, KDB's next move ends the wait. -/
theorem Waiting.returns_of_ended {s t : State} {d : Delay} {l : List Move} (h : Waiting s d t) (inv : Invoked s t)
    (hs : t.sched = .kdb :: l) (ended : d.m ≤ t.cfg.elapsed d.t0 t.ms) (hn : 4 ≤ kdbCount l) : Returns s t := by
  have e := (step_of_kdbMoves (kdbMoves_of_sched hs)).trans
    (kdbMove_of_waited (s := { t with sched := t.sched.tail }) h.at2 h.delay ended)
  refine .step hs e (Stage.returns (n := 4) (.scan rfl rfl ?_) (inv.step h.busy e) (by rw [step_sched e, hs]; exact hn))
  exact h.unreported.trans ⟨⟨rfl, rfl, rfl, rfl⟩, .of rfl rfl⟩

/-- The wait ends at the latest with the first move of KDB after the delay has passed, if the clock does not go round once more. -/
theorem Waiting.returns {s t : State} {d : Delay} {c l : List Move} (h : Waiting s d t) (inv : Invoked s t)
    (hs : t.sched = c ++ .kdb :: l) (passed : d.m ≤ t.cfg.elapsed d.t0 t.ms + msAdded c)
    (round : t.cfg.elapsed d.t0 t.ms + msAdded c < 2 ^ t.cfg.msW) (hn : 4 ≤ kdbCount l) : Returns s t := by
  induction c generalizing t with
  | nil => exact h.returns_of_ended inv hs passed hn
  | cons m c ih =>
    rw [msAdded_cons] at passed round
    by_cases hm : m = .kdb
    · subst hm
      by_cases ended : d.m ≤ t.cfg.elapsed d.t0 t.ms
      · exact h.returns_of_ended inv (l := c ++ .kdb :: l) hs ended (by rw [kdbCount_append, kdbCount_kdb]; omega)
      · have e := (step_of_kdbMoves (kdbMoves_of_sched hs)).trans
          (kdbMove_of_waiting (s := { t with sched := t.sched.tail }) h.delay (Nat.not_le.mp ended))
        rw [show msAdded [Move.kdb] = 0 from rfl, Nat.zero_add] at passed round
        exact .step hs e (ih (h.aside rfl) (inv.step h.busy e) (by rw [hs]; rfl) passed round)
    · obtain ⟨u, e, ha, hl, hms⟩ := step_aside hs hm (inv.keys m (hs ▸ List.mem_cons_self)) inv.run.clock.1
      obtain ⟨-, -, -, hcfg, -⟩ := ha.same
      obtain ⟨-, ht0, -⟩ := inv.run.clock
      have helapsed : u.cfg.elapsed d.t0 u.ms = t.cfg.elapsed d.t0 t.ms + msAdded [m] := by
        rw [hms, hcfg]
        exact elapsed_advance (ht0 d h.delay) (by omega)
      exact .step hs e (ih (h.aside ha) (inv.step h.busy e) hl (by rw [helapsed]; omega) (by rw [helapsed, hcfg]; omega))

/-- From the start of `H2` the handler returns when the schedule lets the delay pass and then has five moves of KDB. -/
theorem returns_of_h2 {s t : State} {c l : List Move} (inv : Invoked s t) (at2 : t.hstep = .h2) (free : t.delay = none)
    (un : Unreported s t) (hs : t.sched = .kdb :: (c ++ l)) (passed : t.cfg.debounceDelayMs ≤ msAdded c)
    (round : msAdded (c ++ l) < 2 ^ t.cfg.msW) (hn : 5 ≤ kdbCount l) : Returns s t := by
  have busy : t.hstep ≠ .h0 := by simp [at2]
  have em := step_of_kdbMoves (kdbMoves_of_sched hs)
  obtain ⟨hwait, hpass, -⟩ := handlerWaitsDebounceDelay { t with sched := t.sched.tail } at2
  have un' : Unreported s { t with sched := t.sched.tail } := un.trans ⟨⟨rfl, rfl, rfl, rfl⟩, .of rfl rfl⟩
  by_cases hz : t.cfg.debounceDelayMs = 0
  · obtain ⟨u, e, hstep, hdelay, -, -, -, -, -, -, -, hring, hbytes, -⟩ := hpass free hz
    have e' := em.trans e
    refine .step hs e' (Stage.returns (n := 4) (.scan hstep hdelay (un'.trans ⟨hring, hbytes⟩)) (inv.step busy e') ?_)
    rw [step_sched e', hs, List.tail_cons, kdbCount_append]
    omega
  · obtain ⟨u, e, hstep, hdelay, -, -, -, -, -, -, -, hring, hbytes, -, -, hout⟩ := hwait free hz
    have e' := em.trans e
    obtain ⟨a, l, rfl, ha⟩ := List.eq_append_cons_of_mem (kdb_mem_of_count (l := l) (by omega))
    have hcount : kdbCount a = 0 := List.countP_eq_zero.mpr fun m hm h => ha (beq_iff_eq.mp h ▸ hm)
    rw [kdbCount_append, kdbCount_kdb, hcount] at hn
    rw [msAdded_append, msAdded_append] at round
    have helapsed : u.cfg.elapsed t.ms u.ms = 0 := by rw [hout.ms]; exact elapsed_self _ _
    have hcfg : u.cfg = t.cfg := hout.cfg
    refine .step hs e' (Waiting.returns (c := c ++ a) (l := l) ⟨hstep, hdelay, un'.trans ⟨hring, hbytes⟩⟩ (inv.step busy e')
      (by rw [step_sched e', hs, List.tail_cons, List.append_assoc]) ?_ ?_ (by omega))
    · show t.cfg.debounceDelayMs ≤ u.cfg.elapsed t.ms u.ms + _
      rw [helapsed, msAdded_append]
      omega
    · show u.cfg.elapsed t.ms u.ms + _ < 2 ^ u.cfg.msW
      rw [helapsed, msAdded_append, hcfg]
      omega

/-- Settles O44: `H1`, the start of `H2`, the wait and the stages past it, with the other agents' moves between. -/
theorem handlerRunsToCompletion : Obligations.HandlerRunsToCompletion := by
  intro s a b c e hrun hkeypad _ hact at1 free hs hcount hkeys passed round hn
  rw [kdbCount_append] at hcount
  have inv : Invoked s s := ⟨hrun, hkeypad, hact, rfl, rfl, hkeys⟩
  obtain ⟨n, t, hle, hreach, hinv, done⟩ : Returns s s := by
    simp only [List.append_assoc, List.cons_append] at hs
    refine returns_after_asides inv (by simp [at1]) hs (by omega) fun u hu hau hsu => ?_
    obtain ⟨hstep, hdelay, -, hcfg, -⟩ := hau.same
    have busy : u.hstep ≠ .h0 := by simp [hstep, at1]
    obtain ⟨v, ev, at2, -, -, -, -, -, -, -, -, -, hdelays, hring, hbytes, -, hout⟩ :=
      handlerDisablesColumns { u with sched := u.sched.tail } (hstep.trans at1)
    have ev' := (stepTakesMicroStep u (kdbMoves_of_sched hsu) (hdelay.trans free) busy).trans ev
    have hv := hu.step busy ev'
    have un : Unreported s v := (hau.trans (u := { u with sched := u.sched.tail }) rfl).unreported.trans ⟨hring, hbytes⟩
    refine .step hsu ev' (returns_after_asides (a := b) hv (by simp [at2]) (by rw [step_sched ev', hsu]; rfl) (by omega)
      fun w hw haw hsw => ?_)
    obtain ⟨hstep', hdelay', -⟩ := haw.same
    exact returns_of_h2 hw (hstep'.trans at2) (hdelay'.trans (hdelays.delay.trans (hdelay.trans free)))
      (un.trans haw.unreported) hsw (by rw [hw.cfg]; exact passed) (by rw [hw.cfg]; exact round) hn
  refine ⟨n, t, hle, hreach, done.hstep, done.hkey, done.resp, done.delay, done.lines, ?_, done.reported⟩
  rw [hinv.keypad.rest hinv.active, hinv.cfg]

end Machine
end Sys2Proof
end

section
/-! PROOFS. The consumer read: `KP.RDKEY` of an active keypad is `RB.RD` (O46). -/

namespace Sys2Proof
namespace Machine

/-- An inactive keypad never has a key (44 R180). -/
theorem exec_kpRdkey_inactive {s : State} (h : s.active = false) : exec .kpRdkey s = answer (s, .noValue) := by
  simp [exec, execKpRdkey, h]

/-- An active keypad's read is the ring's (44 R180). -/
theorem exec_kpRdkey_active {s : State} (h : s.active = true) : exec .kpRdkey s = exec .rbRd s := by
  simp [exec, execKpRdkey, execRbRd, h]

/-- Settles O46: an inactive keypad only answers; for an active one the two clauses are those of `RB.RD`. -/
theorem readKeyTakesOldest : Obligations.ReadKeyTakesOldest := by
  intro s
  obtain ⟨hempty, holdest⟩ := ringReadTakesOldest s
  cases hactive : s.active with
  | false =>
    rw [exec_kpRdkey_inactive hactive]
    exact ⟨fun _ => answer_onlyAnswered s .noValue, nofun⟩
  | true =>
    rw [exec_kpRdkey_active hactive]
    exact ⟨fun h => hempty (h.resolve_left nofun), fun _ => holdest⟩

end Machine
end Sys2Proof
end

section
/-! PROOFS. The interrupt line controller: the edge latch, the vector requests, the arbiter, and the operations of unit IL (O47, O48, O49,
O50, O51). -/

namespace Sys2Proof
namespace Machine

/-! ## The edge latch (45 R190, R191) -/

/-- A change of level is a hit when it is the selected edge (45 R190). -/
theorem hit_iff {e : Edge} {old new : Bit} :
    e.hit old new = true ↔ (e = .falling ∧ old = true ∧ new = false) ∨ (e = .rising ∧ old = false ∧ new = true) := by
  cases e <;> simp [Edge.hit]

/-- Settles O49: what the latch makes of a line with an edge, by whether the change of level is a hit. -/
theorem edgeLatchRule : Obligations.EdgeLatchRule := by
  intro s n
  dsimp only
  rw [edgeLatch_line, ← hit_iff]
  refine ⟨latched_noEdge, fun hedge => ?_⟩
  rw [latched_edge hedge]
  refine ⟨rfl, rfl, rfl, rfl, fun hhit hen => ?_, fun hhit hen => ?_, fun hmiss => ?_⟩
  · simp [hhit, hen]
  · simp [hhit, hen]
  · simp [hmiss]

/-! ## The vector requests (45 R192, R193) -/

/-- The vectors' groups, by the numbers of the lines (45 R192). -/
theorem vectorOf_eq_iff {n : Fin 16} {v : Nat} :
    vectorOf n = v ↔ (n.val ≤ 4 ∧ v = n.val) ∨ (5 ≤ n.val ∧ n.val ≤ 9 ∧ v = 5) ∨ (10 ≤ n.val ∧ v = 6) := by
  unfold vectorOf
  split
  · omega
  · split <;> omega

/-- Settles O50: the request is the OR over the group. -/
theorem vectorRequestIsOrOfGroup : Obligations.VectorRequestIsOrOfGroup := by
  intro s v
  rw [vreq_iff]
  refine exists_congr fun n => ?_
  rw [vectorOf_eq_iff, and_comm, and_assoc]

/-! ## The arbiter (45 R195) -/

theorem mem_requesting {s : State} {v : Nat} : v ∈ s.requesting ↔ v < 7 ∧ s.vreq v = true := by
  simp [State.requesting]

/-- With no request the arbiter has no vector to draw (45 R195). -/
theorem serve_of_idle {s : State} (h : s.requesting = []) : serve s = s := by
  simp [serve, h]

/-- With a request, whatever the draw, the arbiter brings the word of a requesting vector to the producer's queue (45 R195). -/
theorem serve_of_requesting {s : State} (h : s.requesting ≠ []) :
    ∃ v ∈ s.requesting, serve s = makeReady .producer (encode (.kpIrq (BitVec.ofNat 4 v))) { s with draws := s.draws + 1 } := by
  have hlt : Config.vectorDraw s.draws % s.requesting.length < s.requesting.length := Nat.mod_lt _ (List.length_pos_iff.mpr h)
  refine ⟨_, List.getElem_mem hlt, ?_⟩
  rw [serve, List.getElem?_eq_getElem hlt]

/-- The word of each of the seven vectors is an operation (30_encoding R84). -/
theorem decode_kpIrq {v : Nat} (h : v < 7) :
    decode (encode (.kpIrq (BitVec.ofNat 4 v))) = some (.kpIrq (BitVec.ofNat 4 v)) := by
  refine decode_encode (decide_eq_true ?_)
  rw [BitVec.toNat_ofNat]
  omega

/-- Settles O51: the arbiter's draw is one of the requesting vectors; a step is the schedule's first move. -/
theorem arbiterServesRequestingVector : Obligations.ArbiterServesRequestingVector := by
  refine fun s => ⟨fun hno => serve_of_idle ?_, fun ⟨v, hv⟩ => ?_, fun ms hs => step_of_sched hs⟩
  · refine List.eq_nil_iff_forall_not_mem.mpr fun v hv => ?_
    obtain ⟨hlt, hreq⟩ := mem_requesting.mp hv
    exact Bool.false_ne_true ((hno v hlt).symm.trans hreq)
  · obtain ⟨u, hu, e⟩ := serve_of_requesting (List.ne_nil_of_mem (mem_requesting.mpr hv))
    obtain ⟨hlt, hreq⟩ := mem_requesting.mp hu
    rw [e]
    exact ⟨u, hlt, hreq, ⟨_, rfl, decode_kpIrq hlt⟩, rfl, ⟨rfl, rfl⟩, ⟨rfl, rfl, rfl, rfl, rfl, rfl, rfl⟩, ⟨rfl, rfl, rfl, rfl⟩,
      .of rfl rfl, ⟨rfl, fun _ => rfl⟩, fun _ => rfl⟩

/-! ## The operations of unit IL (45 R186 to R189) -/

/-- An operation that has written one line only, and the model's draws and marks, answers `OK` and leaves everything else alone. -/
theorem answerOk_ofLine {s u : State} {n : Fin 16} (f : LineReg → LineReg)
    (hline : ∀ m, u.line m = if m = n then f (s.line m) else s.line m) (h : ScanFrame s u) (hrow : u.rowOut = s.rowOut) :
    ∃ t, answerOk u = .next t ∧ Answered s t (.ok 0) ∧ t.line n = f (s.line n) ∧ (∀ m, m ≠ n → t.line m = s.line m) ∧
      KeypadSame s t ∧ RingSame s t ∧ BytesSame s t ∧ PinsSame s t ∧ OutsideSame s t := by
  refine ⟨_, rfl, ?_⟩
  have hat : u.line n = f (s.line n) := (hline n).trans (if_pos rfl)
  have hother : ∀ m, m ≠ n → u.line m = s.line m := fun m hm => (hline m).trans (if_neg hm)
  rw [h, hrow]
  exact ⟨⟨rfl, rfl, rfl⟩, hat, hother, ⟨rfl, rfl, rfl, rfl, rfl, rfl, rfl⟩, ⟨rfl, rfl, rfl, rfl⟩, .of rfl rfl,
    ⟨rfl, fun _ => rfl⟩, ⟨rfl, rfl, rfl, rfl, rfl, rfl, rfl⟩⟩

/-- The edge that `IL.ARM` selects (45 R186). -/
def armedEdge : Instr.ArmEdge → Edge
  | .F => .falling
  | .R => .rising

/-- `IL.ARMF` and `IL.ARMR` are the two edges of one operation (45 R186). -/
theorem exec_ilArm (e : Instr.ArmEdge) (p : PinId) (s : State) :
    exec (.ilArm p e) s = answerOk (armLine (armedEdge e) p s) := by
  cases e <;> rfl

/-- Settles O47: the bit is the level that the model gives the pin. -/
theorem armBindsLine : Obligations.ArmBindsLine := by
  intro e p s
  obtain ⟨t, ht, hans, hat, hother, hframe⟩ := answerOk_ofLine
    (fun _ => ⟨p.port, armedEdge e, true, false, s.level p⟩) (armLine_line _ p s) (armLine_frame _ p s) (armLine_rowOut _ p s)
  refine ⟨t, s.level p, (exec_ilArm e p s).trans ht, hans, ?_, fun _ => rfl, hother, hframe⟩
  rw [hat]
  cases e <;> rfl

/-- A line that is pending and enabled requests its vector (45 R193). -/
theorem vreq_of_line {s : State} {n : Fin 16} (hpend : (s.line n).pend = true) (hen : (s.line n).en = true) :
    s.vreq (vectorOf n) = true := (vreq_iff s _).mpr ⟨n, rfl, hpend, hen⟩

/-- Settles O48: each operation writes one field of one line; what `IL.EN` leaves pending it leaves enabled. -/
theorem lineEnableAndClear : Obligations.LineEnableAndClear := by
  refine fun p s => ⟨answerOk_ofLine (fun l => { l with en := false }) (enableLine_line false p s) rfl rfl, ?_,
    answerOk_ofLine (fun l => { l with pend := false }) (clearLine_line p s) rfl rfl⟩
  obtain ⟨t, ht, hans, hat, hother, hframe⟩ :=
    answerOk_ofLine (fun l => { l with en := true }) (enableLine_line true p s) rfl rfl
  exact ⟨t, ht, hans, hat, hother, fun hpend => vreq_of_line (by rw [hat]; exact hpend) (by rw [hat]), hframe⟩

end Machine
end Sys2Proof
end

section
/-! PROOFS. The operations of unit TM and the two delays: the clock's answer, and the wait from its start to its end (O52, O53). -/

namespace Sys2Proof
namespace Machine

/-- Settles O52: `TM.NOW` is an answer and no more. -/
theorem nowAnswersClock : Obligations.NowAnswersClock :=
  fun s => answer_onlyAnswered s (.ok (BitVec.ofNat 32 s.ms))

/-! ## The time passed -/

/-- On integers the time passed is the difference modulo the clock's round: the model adds one round to keep the difference natural (46 R217). -/
theorem elapsed_eq_emod {c : Config} {t0 : Nat} (ms : Nat) (h0 : t0 < 2 ^ c.msW) :
    (c.elapsed t0 ms : Int) = ((ms : Int) - t0) % (2 : Int) ^ c.msW := by
  have hle : t0 ≤ ms + 2 ^ c.msW := h0.le.trans (Nat.le_add_left _ _)
  calc (c.elapsed t0 ms : Int)
    _ = ((ms : Int) + 2 ^ c.msW - t0) % 2 ^ c.msW := by simp [Config.elapsed, Nat.cast_sub hle]
    _ = ((ms : Int) - t0 + 2 ^ c.msW) % 2 ^ c.msW := by rw [add_sub_right_comm]
    _ = ((ms : Int) - t0) % 2 ^ c.msW := Int.add_emod_right _ _

/-! ## The start of a delay -/

theorem exec_tmDelay (m : Byte) (s : State) :
    exec (.tmDelay m) s = if m.toNat = 0 then answerOk s else .next (holdDelay s.issuer ⟨s.ms, m.toNat⟩ s) :=
  startDelay_eq s.issuer m.toNat answerOk s

/-- What writes the delays and the response port only leaves KDB's registers, and all that is outside KDB, alone (46 R217). -/
theorem delayStep_same {s t : State} (e : t = { s with resp := t.resp, delay := t.delay, mainDelay := t.mainDelay }) :
    KeypadSame s t ∧ RingSame s t ∧ BytesSame s t ∧ PinsSame s t ∧ LinesSame s t ∧ OutsideSame s t := by
  rw [e]
  exact ⟨⟨rfl, rfl, rfl, rfl, rfl, rfl, rfl⟩, ⟨rfl, rfl, rfl, rfl⟩, .of rfl rfl, ⟨rfl, fun _ => rfl⟩, fun _ => rfl,
    ⟨rfl, rfl, rfl, rfl, rfl, rfl, rfl⟩⟩

/-- A context that begins to wait changes its own delay, and its answer is still to come (46 R217). -/
theorem holdDelay_starts (d : Delay) (s : State) :
    (holdDelay s.issuer d s).resp = none ∧
    (s.issuer = .producer → (holdDelay s.issuer d s).delay = some d ∧ (holdDelay s.issuer d s).mainDelay = s.mainDelay) ∧
    (s.issuer = .consumer → (holdDelay s.issuer d s).delay = s.delay ∧ (holdDelay s.issuer d s).mainDelay = some d) ∧
    KeypadSame s (holdDelay s.issuer d s) ∧ RingSame s (holdDelay s.issuer d s) ∧ BytesSame s (holdDelay s.issuer d s) ∧
    PinsSame s (holdDelay s.issuer d s) ∧ LinesSame s (holdDelay s.issuer d s) ∧
    OutsideSame s (holdDelay s.issuer d s) := by
  cases s.issuer with
  | producer => exact ⟨rfl, fun _ => ⟨rfl, rfl⟩, nofun, delayStep_same rfl⟩
  | consumer => exact ⟨rfl, nofun, fun _ => ⟨rfl, rfl⟩, delayStep_same rfl⟩

/-! ## The end of a delay -/

/-- With no handler in progress a producer's delay that is over answers its `TM.DELAY` (46 R217). -/
theorem kdbMove_ends_delay {s : State} {d : Delay} (hh : s.hstep = .h0) (hd : s.delay = some d)
    (hle : d.m ≤ s.cfg.elapsed d.t0 s.ms) : kdbMove s = .next { s with delay := none, resp := some (.ok 0) } := by
  simp [kdbMove, hd, delayOver_iff.mpr hle, endDelay, State.inHandler, hh, answerOk_eq_next]

/-- A main loop that waits takes no word, so with no producer operation in progress or ready KDB looks at the main loop's delay (20_memory R69,
46 R217). -/
theorem kdbMove_of_mainDelay {s : State} {d : Delay} (hm : s.mainDelay = some d) (hd : s.delay = none) (hh : s.hstep = .h0)
    (hp : s.producer = []) : kdbMove s = if s.delayOver d then endMainDelay s else .next s := by
  have hf : s.fetch = none := by
    refine Option.eq_none_iff_forall_ne_some.mpr fun ⟨w, t⟩ hf => ?_
    rcases fetch_eq_some.mp hf with ⟨ws, hw, -⟩ | ⟨-, hn, -⟩
    · simp [hp] at hw
    · simp [hm] at hn
  simp [kdbMove, hd, State.inHandler, hh, hf, idleMove, hm]

theorem endMainDelay_eq (s : State) : endMainDelay s = .next { s with mainDelay := none, resp := some (.ok 0) } :=
  answerOk_eq_next.mpr rfl

/-- Settles O53: the time passed on integers, the start of a delay, and the move that looks at it for each context. -/
theorem delayIsLowerBound : Obligations.DelayIsLowerBound := by
  refine ⟨fun c t0 ms h0 => elapsed_eq_emod ms h0, fun s => answer_onlyAnswered s (.ok 0), fun m s hm => ?_,
    fun d s hd hlt => kdbMove_of_waiting hd hlt, fun d s hd hh hle => ?_, fun d s hm hd hh hp => ⟨fun hlt => ?_, fun hle => ?_⟩⟩
  · have hne : m.toNat ≠ 0 := fun h => hm (BitVec.eq_of_toNat_eq h)
    exact ⟨_, (exec_tmDelay m s).trans (if_neg hne), holdDelay_starts _ s⟩
  · exact ⟨_, kdbMove_ends_delay hh hd hle, rfl, rfl, rfl, delayStep_same rfl⟩
  · have early : ¬ s.delayOver d = true := fun h => Nat.not_le.mpr hlt (delayOver_iff.mp h)
    rw [kdbMove_of_mainDelay hm hd hh hp, if_neg early]
  · have e := kdbMove_of_mainDelay hm hd hh hp
    rw [if_pos (delayOver_iff.mpr hle), endMainDelay_eq] at e
    exact ⟨_, e, hd, rfl, rfl, delayStep_same rfl⟩

end Machine
end Sys2Proof
end

section
/-! PROOFS. No state of the invariant stops: every rule that can fault or refuse gives a next state there (O58). -/

namespace Sys2Proof
namespace Machine

/-! ## The rules that can stop: the ring's storage, the key map, the handler already in progress -/

/-- A sequence goes on when its first part does, and its second after whatever the first gives. -/
theorem andThen_progress {α β : Type} {x : Result α} {f : α → Result β} (hx : ∃ a, x = .next a)
    (hf : ∀ a, ∃ b, f a = .next b) : ∃ b, Result.andThen x f = .next b := by
  obtain ⟨a, rfl⟩ := hx
  exact hf a

/-- An invalid ring refuses the byte by an answer; a valid one has its `head` in the storage (20_memory R62, 40 R101). -/
theorem ringWrite_progress {s : State} (b : Byte) (h : RingOk s) : ∃ p, ringWrite b s = .next p := by
  cases hv : s.rbValid with
  | false => exact ⟨_, ringWrite_eq_next.mpr (.inl ⟨hv, rfl⟩)⟩
  | true =>
    obtain ⟨u, e, -⟩ := ringWrite_spec b h hv
    exact ⟨_, e⟩

/-- An invalid ring is empty; a valid one has its `tail` in the storage, and a stored byte there (20_memory R62, 10_state R43). -/
theorem ringRead_progress {s : State} (h : RingOk s) : ∃ p, ringRead s = .next p := by
  cases hv : s.rbValid with
  | false => exact ⟨_, ringRead_eq_next.mpr (.inl ⟨by simp [State.ringEmpty, hv], rfl⟩)⟩
  | true =>
    obtain ⟨u, e, -⟩ := ringRead_spec h hv
    exact ⟨_, e⟩

/-- A key that has a symbol is reported, whatever the ring answers (42 R145, 43 R164). -/
theorem reportKey_progress {s : State} {k : Key} {b : Byte} (hb : s.symbol k = some b) (h : RingOk s) :
    ∃ t, reportKey k s = .next t := by
  obtain ⟨⟨t, r⟩, e⟩ := ringWrite_progress b h
  exact ⟨t, reportKey_eq_next.mpr ⟨b, r, hb, e⟩⟩

theorem RunOk.tickDebounce_progress {s : State} {k : Option Key} (h : RunOk s)
    (hk : ∀ key, k = some key → s.cfg.hasKey key = true) : ∃ t, Machine.tickDebounce k s = .next t := by
  unfold Machine.tickDebounce
  cases k with
  | none => exact ⟨_, rfl⟩
  | some key =>
    obtain ⟨b, hb, -⟩ := symbol_some h (hk key rfl)
    dsimp only
    split
    · exact andThen_progress (reportKey_progress hb (h.ring.congr rfl rfl rfl rfl rfl rfl)) fun _ => ⟨_, rfl⟩
    · exact ⟨_, rfl⟩

/-- Only the rule of `DEBOUNCE` can reach a stop, and it reports keys of the matrix only (42 R143, R145). -/
theorem RunOk.tickPhase_progress {s : State} {k : Option Key} (h : RunOk s)
    (hk : ∀ key, k = some key → s.cfg.hasKey key = true) : ∃ t, Machine.tickPhase k s = .next t := by
  unfold Machine.tickPhase
  split
  case h_1 => exact ⟨_, rfl⟩
  case h_2 => exact h.tickDebounce_progress hk
  case h_3 => exact ⟨_, rfl⟩

/-! ## The operations -/

/-- With no handler in progress every operation gives a next state. -/
theorem RunOk.exec_progress {s : State} (i : Instr) (h : RunOk s) (idle : s.hstep = .h0) : ∃ t, Machine.exec i s = .next t := by
  cases i with
  | rbWr b => exact andThen_progress (ringWrite_progress b h.ring) fun _ => ⟨_, rfl⟩
  | rbRd => exact andThen_progress (ringRead_progress h.ring) fun _ => ⟨_, rfl⟩
  | kpInit =>
    show ∃ t, execKpInit s = .next t
    unfold execKpInit
    split
    · exact ⟨_, rfl⟩
    · split <;> exact ⟨_, rfl⟩
  | kpTick =>
    show ∃ t, execKpTick s = .next t
    unfold execKpTick
    split
    · exact ⟨_, rfl⟩
    · split
      · exact ⟨_, rfl⟩
      · have scanned : ∀ key, (Machine.scan s).2 = some key → (Machine.scan s).1.cfg.hasKey key = true :=
          fun key e => by simpa using scan_hasKey e
        exact andThen_progress (h.scan.tickPhase_progress scanned) fun _ => ⟨_, rfl⟩
  | kpIrq v =>
    show ∃ t, execKpIrq v s = .next t
    have free : s.inHandler = false := by simp [State.inHandler, idle]
    rw [execKpIrq, free, if_neg Bool.false_ne_true]
    split
    · exact ⟨_, rfl⟩
    · split
      · exact ⟨_, rfl⟩
      · split <;> exact ⟨_, rfl⟩
  | kpRdkey =>
    cases ha : s.active with
    | false => exact ⟨_, exec_kpRdkey_inactive ha⟩
    | true =>
      rw [exec_kpRdkey_active ha]
      exact andThen_progress (ringRead_progress h.ring) fun _ => ⟨_, rfl⟩
  | tmDelay m =>
    rw [exec_tmDelay]
    split <;> exact ⟨_, rfl⟩
  | rbInit | rbCnt | rbFlush | ilArmf | ilArmr | ilDis | ilEn | ilClr | ioCfg | ioSet | ioRst | ioRd | tmNow => exact ⟨_, rfl⟩

/-! ## KDB's own moves -/

/-- Of the micro-steps only `H4` can reach a stop, and the key it reports is one of the matrix (10_state R26, 43 R164). -/
theorem RunOk.microStep_progress {s : State} (h : RunOk s) : ∃ t, Machine.microStep s = .next t := by
  cases hs : s.hstep with
  | h0 => exact ⟨s, by rw [Machine.microStep, hs]⟩
  | h1 => exact ⟨_, microStep_h1 hs⟩
  | h2 =>
    rw [microStep_h2 hs]
    split <;> exact ⟨_, rfl⟩
  | h3 => exact ⟨_, microStep_h3 hs⟩
  | h4 =>
    cases hk : s.hkey with
    | none => exact ⟨_, microStep_h4_none hs hk⟩
    | some k =>
      obtain ⟨b, hb, -⟩ := symbol_some h (h.hkey k hk)
      rw [Machine.microStep, hs, stepH4, hk]
      exact andThen_progress (reportKey_progress hb h.ring) fun _ => ⟨_, rfl⟩
  | h5 => exact ⟨_, microStep_h5 hs⟩
  | h6 => exact ⟨_, microStep_h6 hs⟩

theorem endDelay_progress (s : State) : ∃ t, endDelay s = .next t := by
  unfold endDelay
  dsimp only
  split <;> exact ⟨_, rfl⟩

/-- An illegal word is answered, so a word stops where its operation does (30_encoding R85). -/
theorem RunOk.runWord_progress {s : State} (w : CmdWord) (h : RunOk s) (idle : s.hstep = .h0) :
    ∃ t, Machine.runWord w s = .next t := by
  unfold Machine.runWord
  split
  · exact h.exec_progress _ idle
  · exact ⟨_, rfl⟩

theorem RunOk.kdbMove_progress {s : State} (h : RunOk s) : ∃ t, Machine.kdbMove s = .next t := by
  rcases kdbMove_cases s with ⟨d, -, -, e⟩ | ⟨d, -, -, e⟩ | ⟨-, -, e⟩ | ⟨-, hh, w, u, hf, e⟩ | ⟨-, -, -, e⟩ <;> rw [e]
  · exact ⟨s, rfl⟩
  · exact endDelay_progress s
  · exact h.microStep_progress
  · have hu := fetch_frame hf
    have taken : PortMove s u := ⟨by rw [hu], .inl (by rw [hu]), .inl (by rw [hu])⟩
    exact (h.port taken).runWord_progress w (by rw [hu]; exact hh)
  · rcases idleMove_cases s with e | ⟨d, -, -, e⟩ <;> exact ⟨_, e⟩

/-- Settles O58: another agent's move always gives a next state, and KDB's own gives one from every state of the invariant. -/
theorem invariantStateNeverStops : Obligations.InvariantStateNeverStops := by
  intro s h
  rcases step_cases s with ⟨-, e⟩ | ⟨v, ms, -, e⟩ | ⟨c, w, ms, -, e⟩ | ⟨ms, -, e⟩
  · rw [e]
    exact (h.port (t := { s with sched := s.sched.tail }) ⟨rfl, .inl rfl, .inl rfl⟩).kdbMove_progress
  all_goals exact ⟨_, e⟩

end Machine
end Sys2Proof
end

section
/-! PROOFS. What a successful `KP.INIT` leaves (O12). -/

namespace Sys2Proof
namespace Machine

/-- Up to the arming of the column lines: the rows driven to rest, the ring empty at the matrix's capacity, the scan's registers reset
(42 R140). -/
theorem readied_eq {s : State} (hv : s.cfg.valid = true) :
    readied s = { driveRows s.cfg.rowRest (bindPins s) with
      rbCap := s.cfg.nRows * s.cfg.nCols, head := 0, tail := 0, rbValid := true
      phase := .idle, cnt := 0, trig := 0, hstep := .h0, hkey := none } := by
  have hc : (driveRows s.cfg.rowRest (bindPins s)).cfg = s.cfg := (driveRows_cfg _ _).trans (bindPins_cfg s)
  have hring := ringInit_valid (s := driveRows s.cfg.rowRest (bindPins s)) (by rw [hc]; exact hv)
  rw [hc] at hring
  rw [readied, hring]
  simp only [resetScanState, hc]

/-- Arming the column lines writes neither the scan's registers nor the ring's indices (42 R140). -/
theorem bringUp_registers {s : State} (hv : s.cfg.valid = true) :
    (bringUp s).active = true ∧ (bringUp s).phase = .idle ∧ (bringUp s).cnt = 0 ∧ (bringUp s).trig = 0 ∧
    (bringUp s).hkey = none ∧ (bringUp s).head = 0 ∧ (bringUp s).tail = 0 := by
  rw [bringUp_eq, armColumns_frame, readied_eq hv]
  exact ⟨rfl, rfl, rfl, rfl, rfl, rfl, rfl⟩

theorem bringUp_contents {s : State} (hv : s.cfg.valid = true) : (bringUp s).contents = [] := by
  obtain ⟨-, -, -, -, -, hhead, htail⟩ := bringUp_registers hv
  exact contents_empty (by simp [State.ringCount, hhead, htail])

/-- A pin of neither the rows nor the columns is not bound (42 R140). -/
theorem bringUp_pin_of_foreign {s : State} (hv : s.cfg.valid = true) {p : PinId} (hrow : p ∉ s.cfg.rowPin)
    (hcol : p ∉ s.cfg.colPin) : (bringUp s).pin p.index = s.pin p.index := by
  rw [bringUp_pin hv, bindPins_pin, if_neg (mt any_index.mp hcol), if_neg (mt any_index.mp hrow)]

/-! ### The lines -/

theorem valid_lines_nodup {c : Config} (h : c.valid = true) (hi : c.variant = .interrupt) : (c.colPin.map PinId.line).Nodup := by
  obtain ⟨-, -, -, -, -, -, hlines⟩ := valid_iff.mp h
  exact (hlines hi).2

/-- Before the column lines are armed only the edge latch of the driven rows writes a line (42 R140, 45 R190). -/
theorem readied_kept {s : State} (hv : s.cfg.valid = true) : LinesKept s (readied s) := by
  have hbound : LinesKept s (bindPins s) := .ofLines (by rw [bindPins_frame s])
  exact (hbound.trans (driveRows_kept _ _)).trans (.ofLines (by rw [readied_eq hv]))

/-- In the Poll variant nothing is armed (42 R140). -/
theorem bringUp_kept {s : State} (hv : s.cfg.valid = true) (hp : s.cfg.variant = .poll) : LinesKept s (bringUp s) := by
  have harm : armColumns (readied s) = readied s := by rw [armColumns, (readied_same hv).1, hp]
  exact (readied_kept hv).trans (.ofLines (by rw [bringUp_eq, harm]))

/-- In the Interrupt variant the lines are those that arming every column pin leaves (42 R140). -/
theorem bringUp_line {s : State} (hv : s.cfg.valid = true) (hi : s.cfg.variant = .interrupt) (n : Fin 16) :
    (bringUp s).line n = (s.cfg.colPin.foldl (fun t p => armLine .falling p t) (readied s)).line n := by
  show (armColumns (readied s)).line n = _
  simp only [armColumns, eachCol, (readied_same hv).1, hi]

/-- In the Interrupt variant a column line ends armed for the falling edge, enabled, not pending, having seen the level its pin has
(42 R140, 45 R186). -/
theorem bringUp_line_of_col {s : State} (hv : s.cfg.valid = true) (hrows : s.rowOut.length = s.cfg.nRows)
    (hi : s.cfg.variant = .interrupt) {p : PinId} (hp : p ∈ s.cfg.colPin) :
    (bringUp s).line p.line = ⟨p.port, .falling, true, false, (bringUp s).level p⟩ := by
  obtain ⟨hcfg, hrow, -⟩ := readied_same hv
  have hout := (bringUp_outside s).1
  obtain ⟨u, huc, hur, hup, hline⟩ :=
    (foldl_arm_line s.cfg.colPin (readied s) (valid_lines_nodup hv hi) p.line).1 p hp rfl
  have hpressed : (readied s).pressed = s.pressed := by
    rw [readied_eq hv, driveRows_frame, bindPins_frame s]
  have hlevel : u.level p = (bringUp s).level p := by
    refine level_congr (huc.trans (hcfg.trans hout.cfg.symm)) (hur.trans (hrow.trans (bringUp_same hv).1.symm))
      (hup.trans (hpressed.trans hout.pressed.symm)) ?_ ?_
    · rw [bringUp_rowOut hv hrows, List.length_replicate, hout.cfg]
    · simp [Config.isMatrix, hout.cfg, isCol_iff.mpr hp]
  rw [bringUp_line hv hi, hline, hlevel]

/-- A line of no column keeps its pin, edge and enable, in either variant (42 R140). -/
theorem bringUp_line_of_not_col {s : State} (hv : s.cfg.valid = true) {n : Fin 16} (hn : s.cfg.isColLine n = false) :
    ((bringUp s).line n).port = (s.line n).port ∧ ((bringUp s).line n).edge = (s.line n).edge ∧
      ((bringUp s).line n).en = (s.line n).en := by
  cases hvar : s.cfg.variant with
  | poll =>
    have hk := bringUp_kept hv hvar
    exact ⟨hk.port n, hk.edge n, hk.en n⟩
  | interrupt =>
    have hk := readied_kept hv
    have hother : ∀ p ∈ s.cfg.colPin, p.line ≠ n := fun p hp e => by
      rw [← e, isColLine_of_mem hp] at hn
      cases hn
    rw [bringUp_line hv hvar, (foldl_arm_line s.cfg.colPin (readied s) (valid_lines_nodup hv hvar) n).2 hother]
    exact ⟨hk.port n, hk.edge n, hk.en n⟩

/-! ### The operation -/

/-- The first `KP.INIT` with a valid configuration sets `inited`, brings the keypad up and answers (42 R140). -/
theorem exec_kpInit_valid {s : State} (hi : s.inited = false) (hv : s.cfg.valid = true) :
    exec .kpInit s = .next { bringUp { s with inited := true } with resp := some (.ok 0) } := by
  have e : exec .kpInit s = answerOk (bringUp { s with inited := true }) := by simp [exec, execKpInit, hi, hv]
  exact e.trans (answerOk_eq_next.mpr rfl)

/-- Settles O12: the answer changes the response only, so everything is a fact of `bringUp` from the state with `inited` set. -/
theorem bootLeavesKeypadReady : Obligations.BootLeavesKeypadReady := by
  intro s hi hv hrows
  have hvb : ({ s with inited := true } : State).cfg.valid = true := hv
  obtain ⟨hactive, hphase, hcnt, htrig, hhkey, hhead, htail⟩ := bringUp_registers hvb
  obtain ⟨-, -, hvalid, hcap, hhstep⟩ := bringUp_same hvb
  obtain ⟨hout, hbuf, hinited, hdelays⟩ := bringUp_outside { s with inited := true }
  obtain ⟨hrowPins, hcolPins⟩ := bringUp_bound hvb
  refine ⟨_, exec_kpInit_valid hi hv, ⟨rfl, ⟨hdelays.delay, hdelays.mainDelay⟩⟩, hactive, hinited, hphase, hcnt, htrig, hhstep, hhkey,
    hvalid, hcap, hhead, htail, bringUp_contents hvb, bringUp_rowOut hvb hrows, hrowPins, hcolPins,
    fun p => bringUp_pin_of_foreign hvb, fun hint p hp => bringUp_line_of_col hvb hrows hint hp, fun hpoll => ?_,
    fun n => bringUp_line_of_not_col hvb, .of hbuf hout.cfg,
    ⟨hout.cfg, hout.ms, hout.pressed, hout.producer, hout.consumer, hout.sched, hout.issuer⟩⟩
  obtain ⟨hport, hedge, hen, hpend⟩ := bringUp_kept hvb hpoll
  exact ⟨hport, hedge, hen, hpend⟩

end Machine
end Sys2Proof
end
